-- ==== Sys2Proof/Word.lean ====
section
/-! DEFINITION. The widths of the block's values (rules R6, R8), the names of its eight registers (R20), and the
enumerated fields of the opcode word and the operand forms built from them (R91, R98 to R102). -/

namespace Sys2Proof

/-- Half of a memory word: the unit in which `Host.Cell` holds memory. No instruction sees it (R64). -/
abbrev Byte := BitVec 8

/-- A register value, a memory word, an opcode word (R6). -/
abbrev Word := BitVec 16

/-- The 22-bit program address `LPC` (R24). -/
abbrev ProgAddr := BitVec 22

/-- A word address as the memory primitives take it: 23 bits (R60, R61). -/
abbrev Addr := BitVec 23

/-- The eight general registers, in the order of rule R20. -/
inductive Reg where
  | sp | r1 | r2 | r3 | r4 | bp | sr | pc
  deriving DecidableEq, Repr

/-- The index of a register, the value of the opcode field that names it (R20). -/
def Reg.num : Reg → BitVec 3
  | .sp => 0#3
  | .r1 => 1#3
  | .r2 => 2#3
  | .r3 => 3#3
  | .r4 => 4#3
  | .bp => 5#3
  | .sr => 6#3
  | .pc => 7#3

/-- The four indirect forms `[Rs]`, `[Rs--]`, `[Rs++]`, `[++Rs]` (R223 to R226). -/
inductive IndMode where
  | plain | postDec | postInc | preInc
  deriving DecidableEq, Repr

/-- The ALU operations that compute a result: the twelve of rule R98 but STORE, which computes nothing (R272). -/
inductive AluOp where
  | add | adc | sub | sbc | cmp | neg | xor | load | or | and | test
  deriving DecidableEq, Repr

/-- The thirteen operand forms of the remaining group (R99). `nn` is the two-bit count field: the count is `nn + 1`. -/
inductive Form where
  | bp6 (imm6 : BitVec 6)
  | imm6 (imm6 : BitVec 6)
  | ind (ds : Bool) (mode : IndMode) (rs : Reg)
  | reg (rs : Reg)
  | imm16 (rs : Reg) (imm : Word)
  | a16 (rs : Reg) (addr : Word)
  | toA16 (rs : Reg) (addr : Word)
  | asr (nn : BitVec 2) (rs : Reg)
  | lsl (nn : BitVec 2) (rs : Reg)
  | lsr (nn : BitVec 2) (rs : Reg)
  | rol (nn : BitVec 2) (rs : Reg)
  | ror (nn : BitVec 2) (rs : Reg)
  | a6 (imm6 : BitVec 6)
  deriving DecidableEq, Repr

/-- The operand forms STORE takes: those that name a memory destination (R238, R272). -/
inductive StoreForm where
  | bp6 (imm6 : BitVec 6)
  | ind (ds : Bool) (mode : IndMode) (rs : Reg)
  | a16 (rs : Reg) (addr : Word)
  | toA16 (rs : Reg) (addr : Word)
  | a6 (imm6 : BitVec 6)
  deriving DecidableEq, Repr

/-- The four bit operations, in the order of the field `bb` (R190). -/
inductive BitFn where
  | tstb | setb | clrb | invb
  deriving DecidableEq, Repr

/-- The six forms of a bit operation (R191): the target is a register, `[Rd]` or `DS:[Rd]`; the bit number comes
from a register or from the opcode. -/
inductive BitForm where
  | rRs (rs : Reg)
  | rImm (off : BitVec 4)
  | mRs (rs : Reg)
  | dmRs (rs : Reg)
  | mImm (off : BitVec 4)
  | dmImm (off : BitVec 4)
  deriving DecidableEq, Repr

/-- The eight register-count shifts, in the order of the field `lll` (R190, R196). -/
inductive ShiftFn where
  | asr | asror | lsl | lslor | lsr | lsror | rol | ror
  deriving DecidableEq, Repr

/-- The fifteen jump conditions, in the order of the field `cond` (R100). -/
inductive Cond where
  | jb | jae | jge | jl | jne | je | jpl | jmi | jbe | ja | jle | jg | jvc | jvs | jmp
  deriving DecidableEq, Repr

/-- The nine instructions whose sixteen bits are all fixed in the Fxxx group (R101). -/
inductive FixedOp where
  | intOff | intIrq | intFiq | intFiqIrq | irqOff | irqOn | fiqOff | fiqOn | nop
  deriving DecidableEq, Repr

end Sys2Proof
end

