-- ==== Sys2Proof/Syntax.lean ====
section
/-! DEFINITION. The instructions: one constructor for each of the 211 rows of spec/opcode_table.json (R95), in the
order of the table. A row is one instruction in one operand form; the fields of the row are the constructor's
arguments, registers by name. `imm`, `addr` of a two-word instruction is its second word (R93). -/

namespace Sys2Proof

/-- An instruction of configuration unsp-block-v1. Register arguments: `rd` is the field `opa`, `rs` or `rb` the
field `opb` (R91). -/
inductive Instr where
  -- Fxxx group (R131 to R143)
  | mulUs (rd rs : Reg)
  | mulSs (rd rs : Reg)
  | call (seg : BitVec 6) (addr : Word)
  | goto (seg : BitVec 6) (addr : Word)
  | intOff
  | intIrq
  | intFiq
  | intFiqIrq
  | irqOff
  | irqOn
  | fiqOff
  | fiqOn
  | nop
  -- Jump group (R161 to R175)
  | jb (back : Bool) (imm6 : BitVec 6)
  | jae (back : Bool) (imm6 : BitVec 6)
  | jge (back : Bool) (imm6 : BitVec 6)
  | jl (back : Bool) (imm6 : BitVec 6)
  | jne (back : Bool) (imm6 : BitVec 6)
  | je (back : Bool) (imm6 : BitVec 6)
  | jpl (back : Bool) (imm6 : BitVec 6)
  | jmi (back : Bool) (imm6 : BitVec 6)
  | jbe (back : Bool) (imm6 : BitVec 6)
  | ja (back : Bool) (imm6 : BitVec 6)
  | jle (back : Bool) (imm6 : BitVec 6)
  | jg (back : Bool) (imm6 : BitVec 6)
  | jvc (back : Bool) (imm6 : BitVec 6)
  | jvs (back : Bool) (imm6 : BitVec 6)
  | jmp (back : Bool) (imm6 : BitVec 6)
  -- Bit operations (R192 to R195)
  | tstbRRs (rd rs : Reg)
  | tstbRImm (rd : Reg) (off : BitVec 4)
  | tstbMRs (rd rs : Reg)
  | tstbDmRs (rd rs : Reg)
  | tstbMImm (rd : Reg) (off : BitVec 4)
  | tstbDmImm (rd : Reg) (off : BitVec 4)
  | setbRRs (rd rs : Reg)
  | setbRImm (rd : Reg) (off : BitVec 4)
  | setbMRs (rd rs : Reg)
  | setbDmRs (rd rs : Reg)
  | setbMImm (rd : Reg) (off : BitVec 4)
  | setbDmImm (rd : Reg) (off : BitVec 4)
  | clrbRRs (rd rs : Reg)
  | clrbRImm (rd : Reg) (off : BitVec 4)
  | clrbMRs (rd rs : Reg)
  | clrbDmRs (rd rs : Reg)
  | clrbMImm (rd : Reg) (off : BitVec 4)
  | clrbDmImm (rd : Reg) (off : BitVec 4)
  | invbRRs (rd rs : Reg)
  | invbRImm (rd : Reg) (off : BitVec 4)
  | invbMRs (rd rs : Reg)
  | invbDmRs (rd rs : Reg)
  | invbMImm (rd : Reg) (off : BitVec 4)
  | invbDmImm (rd : Reg) (off : BitVec 4)
  -- Register-count shifts (R197 to R204)
  | rasr (rd rs : Reg)
  | rasror (rd rs : Reg)
  | rlsl (rd rs : Reg)
  | rlslor (rd rs : Reg)
  | rlsr (rd rs : Reg)
  | rlsror (rd rs : Reg)
  | rrol (rd rs : Reg)
  | rror (rd rs : Reg)
  -- Stack instructions (R290 to R292)
  | push (rd : Reg) (n : BitVec 3) (rb : Reg)
  | pop (rd : Reg) (n : BitVec 3) (rb : Reg)
  | reti
  -- ADD (R261), its thirteen operand forms
  | addBp6 (rd : Reg) (imm6 : BitVec 6)
  | addImm6 (rd : Reg) (imm6 : BitVec 6)
  | addInd (rd : Reg) (ds : Bool) (mode : IndMode) (rs : Reg)
  | addReg (rd rs : Reg)
  | addImm16 (rd rs : Reg) (imm : Word)
  | addA16 (rd rs : Reg) (addr : Word)
  | addToA16 (rd rs : Reg) (addr : Word)
  | addAsr (rd : Reg) (nn : BitVec 2) (rs : Reg)
  | addLsl (rd : Reg) (nn : BitVec 2) (rs : Reg)
  | addLsr (rd : Reg) (nn : BitVec 2) (rs : Reg)
  | addRol (rd : Reg) (nn : BitVec 2) (rs : Reg)
  | addRor (rd : Reg) (nn : BitVec 2) (rs : Reg)
  | addA6 (rd : Reg) (imm6 : BitVec 6)
  -- ADC (R262), its thirteen operand forms
  | adcBp6 (rd : Reg) (imm6 : BitVec 6)
  | adcImm6 (rd : Reg) (imm6 : BitVec 6)
  | adcInd (rd : Reg) (ds : Bool) (mode : IndMode) (rs : Reg)
  | adcReg (rd rs : Reg)
  | adcImm16 (rd rs : Reg) (imm : Word)
  | adcA16 (rd rs : Reg) (addr : Word)
  | adcToA16 (rd rs : Reg) (addr : Word)
  | adcAsr (rd : Reg) (nn : BitVec 2) (rs : Reg)
  | adcLsl (rd : Reg) (nn : BitVec 2) (rs : Reg)
  | adcLsr (rd : Reg) (nn : BitVec 2) (rs : Reg)
  | adcRol (rd : Reg) (nn : BitVec 2) (rs : Reg)
  | adcRor (rd : Reg) (nn : BitVec 2) (rs : Reg)
  | adcA6 (rd : Reg) (imm6 : BitVec 6)
  -- SUB (R263), its thirteen operand forms
  | subBp6 (rd : Reg) (imm6 : BitVec 6)
  | subImm6 (rd : Reg) (imm6 : BitVec 6)
  | subInd (rd : Reg) (ds : Bool) (mode : IndMode) (rs : Reg)
  | subReg (rd rs : Reg)
  | subImm16 (rd rs : Reg) (imm : Word)
  | subA16 (rd rs : Reg) (addr : Word)
  | subToA16 (rd rs : Reg) (addr : Word)
  | subAsr (rd : Reg) (nn : BitVec 2) (rs : Reg)
  | subLsl (rd : Reg) (nn : BitVec 2) (rs : Reg)
  | subLsr (rd : Reg) (nn : BitVec 2) (rs : Reg)
  | subRol (rd : Reg) (nn : BitVec 2) (rs : Reg)
  | subRor (rd : Reg) (nn : BitVec 2) (rs : Reg)
  | subA6 (rd : Reg) (imm6 : BitVec 6)
  -- SBC (R264), its thirteen operand forms
  | sbcBp6 (rd : Reg) (imm6 : BitVec 6)
  | sbcImm6 (rd : Reg) (imm6 : BitVec 6)
  | sbcInd (rd : Reg) (ds : Bool) (mode : IndMode) (rs : Reg)
  | sbcReg (rd rs : Reg)
  | sbcImm16 (rd rs : Reg) (imm : Word)
  | sbcA16 (rd rs : Reg) (addr : Word)
  | sbcToA16 (rd rs : Reg) (addr : Word)
  | sbcAsr (rd : Reg) (nn : BitVec 2) (rs : Reg)
  | sbcLsl (rd : Reg) (nn : BitVec 2) (rs : Reg)
  | sbcLsr (rd : Reg) (nn : BitVec 2) (rs : Reg)
  | sbcRol (rd : Reg) (nn : BitVec 2) (rs : Reg)
  | sbcRor (rd : Reg) (nn : BitVec 2) (rs : Reg)
  | sbcA6 (rd : Reg) (imm6 : BitVec 6)
  -- CMP (R265), its thirteen operand forms
  | cmpBp6 (rd : Reg) (imm6 : BitVec 6)
  | cmpImm6 (rd : Reg) (imm6 : BitVec 6)
  | cmpInd (rd : Reg) (ds : Bool) (mode : IndMode) (rs : Reg)
  | cmpReg (rd rs : Reg)
  | cmpImm16 (rd rs : Reg) (imm : Word)
  | cmpA16 (rd rs : Reg) (addr : Word)
  | cmpToA16 (rd rs : Reg) (addr : Word)
  | cmpAsr (rd : Reg) (nn : BitVec 2) (rs : Reg)
  | cmpLsl (rd : Reg) (nn : BitVec 2) (rs : Reg)
  | cmpLsr (rd : Reg) (nn : BitVec 2) (rs : Reg)
  | cmpRol (rd : Reg) (nn : BitVec 2) (rs : Reg)
  | cmpRor (rd : Reg) (nn : BitVec 2) (rs : Reg)
  | cmpA6 (rd : Reg) (imm6 : BitVec 6)
  -- NEG (R266), its thirteen operand forms
  | negBp6 (rd : Reg) (imm6 : BitVec 6)
  | negImm6 (rd : Reg) (imm6 : BitVec 6)
  | negInd (rd : Reg) (ds : Bool) (mode : IndMode) (rs : Reg)
  | negReg (rd rs : Reg)
  | negImm16 (rd rs : Reg) (imm : Word)
  | negA16 (rd rs : Reg) (addr : Word)
  | negToA16 (rd rs : Reg) (addr : Word)
  | negAsr (rd : Reg) (nn : BitVec 2) (rs : Reg)
  | negLsl (rd : Reg) (nn : BitVec 2) (rs : Reg)
  | negLsr (rd : Reg) (nn : BitVec 2) (rs : Reg)
  | negRol (rd : Reg) (nn : BitVec 2) (rs : Reg)
  | negRor (rd : Reg) (nn : BitVec 2) (rs : Reg)
  | negA6 (rd : Reg) (imm6 : BitVec 6)
  -- XOR (R267), its thirteen operand forms
  | xorBp6 (rd : Reg) (imm6 : BitVec 6)
  | xorImm6 (rd : Reg) (imm6 : BitVec 6)
  | xorInd (rd : Reg) (ds : Bool) (mode : IndMode) (rs : Reg)
  | xorReg (rd rs : Reg)
  | xorImm16 (rd rs : Reg) (imm : Word)
  | xorA16 (rd rs : Reg) (addr : Word)
  | xorToA16 (rd rs : Reg) (addr : Word)
  | xorAsr (rd : Reg) (nn : BitVec 2) (rs : Reg)
  | xorLsl (rd : Reg) (nn : BitVec 2) (rs : Reg)
  | xorLsr (rd : Reg) (nn : BitVec 2) (rs : Reg)
  | xorRol (rd : Reg) (nn : BitVec 2) (rs : Reg)
  | xorRor (rd : Reg) (nn : BitVec 2) (rs : Reg)
  | xorA6 (rd : Reg) (imm6 : BitVec 6)
  -- LOAD (R268), its thirteen operand forms
  | loadBp6 (rd : Reg) (imm6 : BitVec 6)
  | loadImm6 (rd : Reg) (imm6 : BitVec 6)
  | loadInd (rd : Reg) (ds : Bool) (mode : IndMode) (rs : Reg)
  | loadReg (rd rs : Reg)
  | loadImm16 (rd rs : Reg) (imm : Word)
  | loadA16 (rd rs : Reg) (addr : Word)
  | loadToA16 (rd rs : Reg) (addr : Word)
  | loadAsr (rd : Reg) (nn : BitVec 2) (rs : Reg)
  | loadLsl (rd : Reg) (nn : BitVec 2) (rs : Reg)
  | loadLsr (rd : Reg) (nn : BitVec 2) (rs : Reg)
  | loadRol (rd : Reg) (nn : BitVec 2) (rs : Reg)
  | loadRor (rd : Reg) (nn : BitVec 2) (rs : Reg)
  | loadA6 (rd : Reg) (imm6 : BitVec 6)
  -- OR (R269), its thirteen operand forms
  | orBp6 (rd : Reg) (imm6 : BitVec 6)
  | orImm6 (rd : Reg) (imm6 : BitVec 6)
  | orInd (rd : Reg) (ds : Bool) (mode : IndMode) (rs : Reg)
  | orReg (rd rs : Reg)
  | orImm16 (rd rs : Reg) (imm : Word)
  | orA16 (rd rs : Reg) (addr : Word)
  | orToA16 (rd rs : Reg) (addr : Word)
  | orAsr (rd : Reg) (nn : BitVec 2) (rs : Reg)
  | orLsl (rd : Reg) (nn : BitVec 2) (rs : Reg)
  | orLsr (rd : Reg) (nn : BitVec 2) (rs : Reg)
  | orRol (rd : Reg) (nn : BitVec 2) (rs : Reg)
  | orRor (rd : Reg) (nn : BitVec 2) (rs : Reg)
  | orA6 (rd : Reg) (imm6 : BitVec 6)
  -- AND (R270), its thirteen operand forms
  | andBp6 (rd : Reg) (imm6 : BitVec 6)
  | andImm6 (rd : Reg) (imm6 : BitVec 6)
  | andInd (rd : Reg) (ds : Bool) (mode : IndMode) (rs : Reg)
  | andReg (rd rs : Reg)
  | andImm16 (rd rs : Reg) (imm : Word)
  | andA16 (rd rs : Reg) (addr : Word)
  | andToA16 (rd rs : Reg) (addr : Word)
  | andAsr (rd : Reg) (nn : BitVec 2) (rs : Reg)
  | andLsl (rd : Reg) (nn : BitVec 2) (rs : Reg)
  | andLsr (rd : Reg) (nn : BitVec 2) (rs : Reg)
  | andRol (rd : Reg) (nn : BitVec 2) (rs : Reg)
  | andRor (rd : Reg) (nn : BitVec 2) (rs : Reg)
  | andA6 (rd : Reg) (imm6 : BitVec 6)
  -- TEST (R271), its thirteen operand forms
  | testBp6 (rd : Reg) (imm6 : BitVec 6)
  | testImm6 (rd : Reg) (imm6 : BitVec 6)
  | testInd (rd : Reg) (ds : Bool) (mode : IndMode) (rs : Reg)
  | testReg (rd rs : Reg)
  | testImm16 (rd rs : Reg) (imm : Word)
  | testA16 (rd rs : Reg) (addr : Word)
  | testToA16 (rd rs : Reg) (addr : Word)
  | testAsr (rd : Reg) (nn : BitVec 2) (rs : Reg)
  | testLsl (rd : Reg) (nn : BitVec 2) (rs : Reg)
  | testLsr (rd : Reg) (nn : BitVec 2) (rs : Reg)
  | testRol (rd : Reg) (nn : BitVec 2) (rs : Reg)
  | testRor (rd : Reg) (nn : BitVec 2) (rs : Reg)
  | testA6 (rd : Reg) (imm6 : BitVec 6)
  -- STORE (R272), its five operand forms
  | storeBp6 (rd : Reg) (imm6 : BitVec 6)
  | storeInd (rd : Reg) (ds : Bool) (mode : IndMode) (rs : Reg)
  | storeA16 (rd rs : Reg) (addr : Word)
  | storeToA16 (rd rs : Reg) (addr : Word)
  | storeA6 (rd : Reg) (imm6 : BitVec 6)
  deriving DecidableEq, Repr

end Sys2Proof
end

