-- ==== Sys2Proof/WellFormed.lean ====
section
/-! DEFINITION. The shape of an instruction (its group, operation and operand form, what the opcode word is made of)
and the check that an instruction has an encoding: the constraints and carve-outs of spec/opcode_table.json (R95). -/

namespace Sys2Proof

/-- The group an instruction belongs to (R96), with its operation and its operands. Each instruction has one shape
(`Instr.shape`) and each shape names one instruction (`Shape.instr`). -/
inductive Shape where
  | mul (signed : Bool) (rd rs : Reg)
  | call (seg : BitVec 6) (addr : Word)
  | goto (seg : BitVec 6) (addr : Word)
  | fixed (k : FixedOp)
  | jump (c : Cond) (back : Bool) (imm6 : BitVec 6)
  | bit (fn : BitFn) (rd : Reg) (f : BitForm)
  | rshift (fn : ShiftFn) (rd rs : Reg)
  | push (rd : Reg) (n : BitVec 3) (rb : Reg)
  | pop (rd : Reg) (n : BitVec 3) (rb : Reg)
  | reti
  | alu (op : AluOp) (rd : Reg) (f : Form)
  | store (rd : Reg) (f : StoreForm)
  deriving DecidableEq, Repr

/-- The shape of each instruction. -/
def Instr.shape : Instr → Shape
  | .mulUs rd rs => .mul false rd rs
  | .mulSs rd rs => .mul true rd rs
  | .call seg addr => .call seg addr
  | .goto seg addr => .goto seg addr
  | .intOff => .fixed .intOff
  | .intIrq => .fixed .intIrq
  | .intFiq => .fixed .intFiq
  | .intFiqIrq => .fixed .intFiqIrq
  | .irqOff => .fixed .irqOff
  | .irqOn => .fixed .irqOn
  | .fiqOff => .fixed .fiqOff
  | .fiqOn => .fixed .fiqOn
  | .nop => .fixed .nop
  | .jb back imm6 => .jump .jb back imm6
  | .jae back imm6 => .jump .jae back imm6
  | .jge back imm6 => .jump .jge back imm6
  | .jl back imm6 => .jump .jl back imm6
  | .jne back imm6 => .jump .jne back imm6
  | .je back imm6 => .jump .je back imm6
  | .jpl back imm6 => .jump .jpl back imm6
  | .jmi back imm6 => .jump .jmi back imm6
  | .jbe back imm6 => .jump .jbe back imm6
  | .ja back imm6 => .jump .ja back imm6
  | .jle back imm6 => .jump .jle back imm6
  | .jg back imm6 => .jump .jg back imm6
  | .jvc back imm6 => .jump .jvc back imm6
  | .jvs back imm6 => .jump .jvs back imm6
  | .jmp back imm6 => .jump .jmp back imm6
  | .tstbRRs rd rs => .bit .tstb rd (.rRs rs)
  | .tstbRImm rd off => .bit .tstb rd (.rImm off)
  | .tstbMRs rd rs => .bit .tstb rd (.mRs rs)
  | .tstbDmRs rd rs => .bit .tstb rd (.dmRs rs)
  | .tstbMImm rd off => .bit .tstb rd (.mImm off)
  | .tstbDmImm rd off => .bit .tstb rd (.dmImm off)
  | .setbRRs rd rs => .bit .setb rd (.rRs rs)
  | .setbRImm rd off => .bit .setb rd (.rImm off)
  | .setbMRs rd rs => .bit .setb rd (.mRs rs)
  | .setbDmRs rd rs => .bit .setb rd (.dmRs rs)
  | .setbMImm rd off => .bit .setb rd (.mImm off)
  | .setbDmImm rd off => .bit .setb rd (.dmImm off)
  | .clrbRRs rd rs => .bit .clrb rd (.rRs rs)
  | .clrbRImm rd off => .bit .clrb rd (.rImm off)
  | .clrbMRs rd rs => .bit .clrb rd (.mRs rs)
  | .clrbDmRs rd rs => .bit .clrb rd (.dmRs rs)
  | .clrbMImm rd off => .bit .clrb rd (.mImm off)
  | .clrbDmImm rd off => .bit .clrb rd (.dmImm off)
  | .invbRRs rd rs => .bit .invb rd (.rRs rs)
  | .invbRImm rd off => .bit .invb rd (.rImm off)
  | .invbMRs rd rs => .bit .invb rd (.mRs rs)
  | .invbDmRs rd rs => .bit .invb rd (.dmRs rs)
  | .invbMImm rd off => .bit .invb rd (.mImm off)
  | .invbDmImm rd off => .bit .invb rd (.dmImm off)
  | .rasr rd rs => .rshift .asr rd rs
  | .rasror rd rs => .rshift .asror rd rs
  | .rlsl rd rs => .rshift .lsl rd rs
  | .rlslor rd rs => .rshift .lslor rd rs
  | .rlsr rd rs => .rshift .lsr rd rs
  | .rlsror rd rs => .rshift .lsror rd rs
  | .rrol rd rs => .rshift .rol rd rs
  | .rror rd rs => .rshift .ror rd rs
  | .push rd n rb => .push rd n rb
  | .pop rd n rb => .pop rd n rb
  | .reti => .reti
  | .addBp6 rd imm6 => .alu .add rd (.bp6 imm6)
  | .addImm6 rd imm6 => .alu .add rd (.imm6 imm6)
  | .addInd rd ds mode rs => .alu .add rd (.ind ds mode rs)
  | .addReg rd rs => .alu .add rd (.reg rs)
  | .addImm16 rd rs imm => .alu .add rd (.imm16 rs imm)
  | .addA16 rd rs addr => .alu .add rd (.a16 rs addr)
  | .addToA16 rd rs addr => .alu .add rd (.toA16 rs addr)
  | .addAsr rd nn rs => .alu .add rd (.asr nn rs)
  | .addLsl rd nn rs => .alu .add rd (.lsl nn rs)
  | .addLsr rd nn rs => .alu .add rd (.lsr nn rs)
  | .addRol rd nn rs => .alu .add rd (.rol nn rs)
  | .addRor rd nn rs => .alu .add rd (.ror nn rs)
  | .addA6 rd imm6 => .alu .add rd (.a6 imm6)
  | .adcBp6 rd imm6 => .alu .adc rd (.bp6 imm6)
  | .adcImm6 rd imm6 => .alu .adc rd (.imm6 imm6)
  | .adcInd rd ds mode rs => .alu .adc rd (.ind ds mode rs)
  | .adcReg rd rs => .alu .adc rd (.reg rs)
  | .adcImm16 rd rs imm => .alu .adc rd (.imm16 rs imm)
  | .adcA16 rd rs addr => .alu .adc rd (.a16 rs addr)
  | .adcToA16 rd rs addr => .alu .adc rd (.toA16 rs addr)
  | .adcAsr rd nn rs => .alu .adc rd (.asr nn rs)
  | .adcLsl rd nn rs => .alu .adc rd (.lsl nn rs)
  | .adcLsr rd nn rs => .alu .adc rd (.lsr nn rs)
  | .adcRol rd nn rs => .alu .adc rd (.rol nn rs)
  | .adcRor rd nn rs => .alu .adc rd (.ror nn rs)
  | .adcA6 rd imm6 => .alu .adc rd (.a6 imm6)
  | .subBp6 rd imm6 => .alu .sub rd (.bp6 imm6)
  | .subImm6 rd imm6 => .alu .sub rd (.imm6 imm6)
  | .subInd rd ds mode rs => .alu .sub rd (.ind ds mode rs)
  | .subReg rd rs => .alu .sub rd (.reg rs)
  | .subImm16 rd rs imm => .alu .sub rd (.imm16 rs imm)
  | .subA16 rd rs addr => .alu .sub rd (.a16 rs addr)
  | .subToA16 rd rs addr => .alu .sub rd (.toA16 rs addr)
  | .subAsr rd nn rs => .alu .sub rd (.asr nn rs)
  | .subLsl rd nn rs => .alu .sub rd (.lsl nn rs)
  | .subLsr rd nn rs => .alu .sub rd (.lsr nn rs)
  | .subRol rd nn rs => .alu .sub rd (.rol nn rs)
  | .subRor rd nn rs => .alu .sub rd (.ror nn rs)
  | .subA6 rd imm6 => .alu .sub rd (.a6 imm6)
  | .sbcBp6 rd imm6 => .alu .sbc rd (.bp6 imm6)
  | .sbcImm6 rd imm6 => .alu .sbc rd (.imm6 imm6)
  | .sbcInd rd ds mode rs => .alu .sbc rd (.ind ds mode rs)
  | .sbcReg rd rs => .alu .sbc rd (.reg rs)
  | .sbcImm16 rd rs imm => .alu .sbc rd (.imm16 rs imm)
  | .sbcA16 rd rs addr => .alu .sbc rd (.a16 rs addr)
  | .sbcToA16 rd rs addr => .alu .sbc rd (.toA16 rs addr)
  | .sbcAsr rd nn rs => .alu .sbc rd (.asr nn rs)
  | .sbcLsl rd nn rs => .alu .sbc rd (.lsl nn rs)
  | .sbcLsr rd nn rs => .alu .sbc rd (.lsr nn rs)
  | .sbcRol rd nn rs => .alu .sbc rd (.rol nn rs)
  | .sbcRor rd nn rs => .alu .sbc rd (.ror nn rs)
  | .sbcA6 rd imm6 => .alu .sbc rd (.a6 imm6)
  | .cmpBp6 rd imm6 => .alu .cmp rd (.bp6 imm6)
  | .cmpImm6 rd imm6 => .alu .cmp rd (.imm6 imm6)
  | .cmpInd rd ds mode rs => .alu .cmp rd (.ind ds mode rs)
  | .cmpReg rd rs => .alu .cmp rd (.reg rs)
  | .cmpImm16 rd rs imm => .alu .cmp rd (.imm16 rs imm)
  | .cmpA16 rd rs addr => .alu .cmp rd (.a16 rs addr)
  | .cmpToA16 rd rs addr => .alu .cmp rd (.toA16 rs addr)
  | .cmpAsr rd nn rs => .alu .cmp rd (.asr nn rs)
  | .cmpLsl rd nn rs => .alu .cmp rd (.lsl nn rs)
  | .cmpLsr rd nn rs => .alu .cmp rd (.lsr nn rs)
  | .cmpRol rd nn rs => .alu .cmp rd (.rol nn rs)
  | .cmpRor rd nn rs => .alu .cmp rd (.ror nn rs)
  | .cmpA6 rd imm6 => .alu .cmp rd (.a6 imm6)
  | .negBp6 rd imm6 => .alu .neg rd (.bp6 imm6)
  | .negImm6 rd imm6 => .alu .neg rd (.imm6 imm6)
  | .negInd rd ds mode rs => .alu .neg rd (.ind ds mode rs)
  | .negReg rd rs => .alu .neg rd (.reg rs)
  | .negImm16 rd rs imm => .alu .neg rd (.imm16 rs imm)
  | .negA16 rd rs addr => .alu .neg rd (.a16 rs addr)
  | .negToA16 rd rs addr => .alu .neg rd (.toA16 rs addr)
  | .negAsr rd nn rs => .alu .neg rd (.asr nn rs)
  | .negLsl rd nn rs => .alu .neg rd (.lsl nn rs)
  | .negLsr rd nn rs => .alu .neg rd (.lsr nn rs)
  | .negRol rd nn rs => .alu .neg rd (.rol nn rs)
  | .negRor rd nn rs => .alu .neg rd (.ror nn rs)
  | .negA6 rd imm6 => .alu .neg rd (.a6 imm6)
  | .xorBp6 rd imm6 => .alu .xor rd (.bp6 imm6)
  | .xorImm6 rd imm6 => .alu .xor rd (.imm6 imm6)
  | .xorInd rd ds mode rs => .alu .xor rd (.ind ds mode rs)
  | .xorReg rd rs => .alu .xor rd (.reg rs)
  | .xorImm16 rd rs imm => .alu .xor rd (.imm16 rs imm)
  | .xorA16 rd rs addr => .alu .xor rd (.a16 rs addr)
  | .xorToA16 rd rs addr => .alu .xor rd (.toA16 rs addr)
  | .xorAsr rd nn rs => .alu .xor rd (.asr nn rs)
  | .xorLsl rd nn rs => .alu .xor rd (.lsl nn rs)
  | .xorLsr rd nn rs => .alu .xor rd (.lsr nn rs)
  | .xorRol rd nn rs => .alu .xor rd (.rol nn rs)
  | .xorRor rd nn rs => .alu .xor rd (.ror nn rs)
  | .xorA6 rd imm6 => .alu .xor rd (.a6 imm6)
  | .loadBp6 rd imm6 => .alu .load rd (.bp6 imm6)
  | .loadImm6 rd imm6 => .alu .load rd (.imm6 imm6)
  | .loadInd rd ds mode rs => .alu .load rd (.ind ds mode rs)
  | .loadReg rd rs => .alu .load rd (.reg rs)
  | .loadImm16 rd rs imm => .alu .load rd (.imm16 rs imm)
  | .loadA16 rd rs addr => .alu .load rd (.a16 rs addr)
  | .loadToA16 rd rs addr => .alu .load rd (.toA16 rs addr)
  | .loadAsr rd nn rs => .alu .load rd (.asr nn rs)
  | .loadLsl rd nn rs => .alu .load rd (.lsl nn rs)
  | .loadLsr rd nn rs => .alu .load rd (.lsr nn rs)
  | .loadRol rd nn rs => .alu .load rd (.rol nn rs)
  | .loadRor rd nn rs => .alu .load rd (.ror nn rs)
  | .loadA6 rd imm6 => .alu .load rd (.a6 imm6)
  | .orBp6 rd imm6 => .alu .or rd (.bp6 imm6)
  | .orImm6 rd imm6 => .alu .or rd (.imm6 imm6)
  | .orInd rd ds mode rs => .alu .or rd (.ind ds mode rs)
  | .orReg rd rs => .alu .or rd (.reg rs)
  | .orImm16 rd rs imm => .alu .or rd (.imm16 rs imm)
  | .orA16 rd rs addr => .alu .or rd (.a16 rs addr)
  | .orToA16 rd rs addr => .alu .or rd (.toA16 rs addr)
  | .orAsr rd nn rs => .alu .or rd (.asr nn rs)
  | .orLsl rd nn rs => .alu .or rd (.lsl nn rs)
  | .orLsr rd nn rs => .alu .or rd (.lsr nn rs)
  | .orRol rd nn rs => .alu .or rd (.rol nn rs)
  | .orRor rd nn rs => .alu .or rd (.ror nn rs)
  | .orA6 rd imm6 => .alu .or rd (.a6 imm6)
  | .andBp6 rd imm6 => .alu .and rd (.bp6 imm6)
  | .andImm6 rd imm6 => .alu .and rd (.imm6 imm6)
  | .andInd rd ds mode rs => .alu .and rd (.ind ds mode rs)
  | .andReg rd rs => .alu .and rd (.reg rs)
  | .andImm16 rd rs imm => .alu .and rd (.imm16 rs imm)
  | .andA16 rd rs addr => .alu .and rd (.a16 rs addr)
  | .andToA16 rd rs addr => .alu .and rd (.toA16 rs addr)
  | .andAsr rd nn rs => .alu .and rd (.asr nn rs)
  | .andLsl rd nn rs => .alu .and rd (.lsl nn rs)
  | .andLsr rd nn rs => .alu .and rd (.lsr nn rs)
  | .andRol rd nn rs => .alu .and rd (.rol nn rs)
  | .andRor rd nn rs => .alu .and rd (.ror nn rs)
  | .andA6 rd imm6 => .alu .and rd (.a6 imm6)
  | .testBp6 rd imm6 => .alu .test rd (.bp6 imm6)
  | .testImm6 rd imm6 => .alu .test rd (.imm6 imm6)
  | .testInd rd ds mode rs => .alu .test rd (.ind ds mode rs)
  | .testReg rd rs => .alu .test rd (.reg rs)
  | .testImm16 rd rs imm => .alu .test rd (.imm16 rs imm)
  | .testA16 rd rs addr => .alu .test rd (.a16 rs addr)
  | .testToA16 rd rs addr => .alu .test rd (.toA16 rs addr)
  | .testAsr rd nn rs => .alu .test rd (.asr nn rs)
  | .testLsl rd nn rs => .alu .test rd (.lsl nn rs)
  | .testLsr rd nn rs => .alu .test rd (.lsr nn rs)
  | .testRol rd nn rs => .alu .test rd (.rol nn rs)
  | .testRor rd nn rs => .alu .test rd (.ror nn rs)
  | .testA6 rd imm6 => .alu .test rd (.a6 imm6)
  | .storeBp6 rd imm6 => .store rd (.bp6 imm6)
  | .storeInd rd ds mode rs => .store rd (.ind ds mode rs)
  | .storeA16 rd rs addr => .store rd (.a16 rs addr)
  | .storeToA16 rd rs addr => .store rd (.toA16 rs addr)
  | .storeA6 rd imm6 => .store rd (.a6 imm6)

/-- The multiply of a signedness (R130). -/
def Instr.ofMul (signed : Bool) (rd rs : Reg) : Instr :=
  if signed then .mulSs rd rs else .mulUs rd rs

/-- The fixed word of the Fxxx group (R130). -/
def Instr.ofFixed : FixedOp → Instr
  | .intOff => .intOff
  | .intIrq => .intIrq
  | .intFiq => .intFiq
  | .intFiqIrq => .intFiqIrq
  | .irqOff => .irqOff
  | .irqOn => .irqOn
  | .fiqOff => .fiqOff
  | .fiqOn => .fiqOn
  | .nop => .nop

/-- The jump on a condition (R100). -/
def Instr.ofJump (c : Cond) (back : Bool) (imm6 : BitVec 6) : Instr :=
  match c with
  | .jb => .jb back imm6
  | .jae => .jae back imm6
  | .jge => .jge back imm6
  | .jl => .jl back imm6
  | .jne => .jne back imm6
  | .je => .je back imm6
  | .jpl => .jpl back imm6
  | .jmi => .jmi back imm6
  | .jbe => .jbe back imm6
  | .ja => .ja back imm6
  | .jle => .jle back imm6
  | .jg => .jg back imm6
  | .jvc => .jvc back imm6
  | .jvs => .jvs back imm6
  | .jmp => .jmp back imm6

/-- The bit operation on a form (R190, R191). -/
def Instr.ofBit (fn : BitFn) (rd : Reg) (f : BitForm) : Instr :=
  match fn, f with
  | .tstb, .rRs rs => .tstbRRs rd rs
  | .tstb, .rImm off => .tstbRImm rd off
  | .tstb, .mRs rs => .tstbMRs rd rs
  | .tstb, .dmRs rs => .tstbDmRs rd rs
  | .tstb, .mImm off => .tstbMImm rd off
  | .tstb, .dmImm off => .tstbDmImm rd off
  | .setb, .rRs rs => .setbRRs rd rs
  | .setb, .rImm off => .setbRImm rd off
  | .setb, .mRs rs => .setbMRs rd rs
  | .setb, .dmRs rs => .setbDmRs rd rs
  | .setb, .mImm off => .setbMImm rd off
  | .setb, .dmImm off => .setbDmImm rd off
  | .clrb, .rRs rs => .clrbRRs rd rs
  | .clrb, .rImm off => .clrbRImm rd off
  | .clrb, .mRs rs => .clrbMRs rd rs
  | .clrb, .dmRs rs => .clrbDmRs rd rs
  | .clrb, .mImm off => .clrbMImm rd off
  | .clrb, .dmImm off => .clrbDmImm rd off
  | .invb, .rRs rs => .invbRRs rd rs
  | .invb, .rImm off => .invbRImm rd off
  | .invb, .mRs rs => .invbMRs rd rs
  | .invb, .dmRs rs => .invbDmRs rd rs
  | .invb, .mImm off => .invbMImm rd off
  | .invb, .dmImm off => .invbDmImm rd off

/-- The register-count shift of a variant (R190, R196). -/
def Instr.ofShift (fn : ShiftFn) (rd rs : Reg) : Instr :=
  match fn with
  | .asr => .rasr rd rs
  | .asror => .rasror rd rs
  | .lsl => .rlsl rd rs
  | .lslor => .rlslor rd rs
  | .lsr => .rlsr rd rs
  | .lsror => .rlsror rd rs
  | .rol => .rrol rd rs
  | .ror => .rror rd rs

/-- The ALU operation on an operand form (R98, R99). -/
def Instr.ofAlu (op : AluOp) (rd : Reg) (f : Form) : Instr :=
  match op, f with
  | .add, .bp6 imm6 => .addBp6 rd imm6
  | .add, .imm6 imm6 => .addImm6 rd imm6
  | .add, .ind ds mode rs => .addInd rd ds mode rs
  | .add, .reg rs => .addReg rd rs
  | .add, .imm16 rs imm => .addImm16 rd rs imm
  | .add, .a16 rs addr => .addA16 rd rs addr
  | .add, .toA16 rs addr => .addToA16 rd rs addr
  | .add, .asr nn rs => .addAsr rd nn rs
  | .add, .lsl nn rs => .addLsl rd nn rs
  | .add, .lsr nn rs => .addLsr rd nn rs
  | .add, .rol nn rs => .addRol rd nn rs
  | .add, .ror nn rs => .addRor rd nn rs
  | .add, .a6 imm6 => .addA6 rd imm6
  | .adc, .bp6 imm6 => .adcBp6 rd imm6
  | .adc, .imm6 imm6 => .adcImm6 rd imm6
  | .adc, .ind ds mode rs => .adcInd rd ds mode rs
  | .adc, .reg rs => .adcReg rd rs
  | .adc, .imm16 rs imm => .adcImm16 rd rs imm
  | .adc, .a16 rs addr => .adcA16 rd rs addr
  | .adc, .toA16 rs addr => .adcToA16 rd rs addr
  | .adc, .asr nn rs => .adcAsr rd nn rs
  | .adc, .lsl nn rs => .adcLsl rd nn rs
  | .adc, .lsr nn rs => .adcLsr rd nn rs
  | .adc, .rol nn rs => .adcRol rd nn rs
  | .adc, .ror nn rs => .adcRor rd nn rs
  | .adc, .a6 imm6 => .adcA6 rd imm6
  | .sub, .bp6 imm6 => .subBp6 rd imm6
  | .sub, .imm6 imm6 => .subImm6 rd imm6
  | .sub, .ind ds mode rs => .subInd rd ds mode rs
  | .sub, .reg rs => .subReg rd rs
  | .sub, .imm16 rs imm => .subImm16 rd rs imm
  | .sub, .a16 rs addr => .subA16 rd rs addr
  | .sub, .toA16 rs addr => .subToA16 rd rs addr
  | .sub, .asr nn rs => .subAsr rd nn rs
  | .sub, .lsl nn rs => .subLsl rd nn rs
  | .sub, .lsr nn rs => .subLsr rd nn rs
  | .sub, .rol nn rs => .subRol rd nn rs
  | .sub, .ror nn rs => .subRor rd nn rs
  | .sub, .a6 imm6 => .subA6 rd imm6
  | .sbc, .bp6 imm6 => .sbcBp6 rd imm6
  | .sbc, .imm6 imm6 => .sbcImm6 rd imm6
  | .sbc, .ind ds mode rs => .sbcInd rd ds mode rs
  | .sbc, .reg rs => .sbcReg rd rs
  | .sbc, .imm16 rs imm => .sbcImm16 rd rs imm
  | .sbc, .a16 rs addr => .sbcA16 rd rs addr
  | .sbc, .toA16 rs addr => .sbcToA16 rd rs addr
  | .sbc, .asr nn rs => .sbcAsr rd nn rs
  | .sbc, .lsl nn rs => .sbcLsl rd nn rs
  | .sbc, .lsr nn rs => .sbcLsr rd nn rs
  | .sbc, .rol nn rs => .sbcRol rd nn rs
  | .sbc, .ror nn rs => .sbcRor rd nn rs
  | .sbc, .a6 imm6 => .sbcA6 rd imm6
  | .cmp, .bp6 imm6 => .cmpBp6 rd imm6
  | .cmp, .imm6 imm6 => .cmpImm6 rd imm6
  | .cmp, .ind ds mode rs => .cmpInd rd ds mode rs
  | .cmp, .reg rs => .cmpReg rd rs
  | .cmp, .imm16 rs imm => .cmpImm16 rd rs imm
  | .cmp, .a16 rs addr => .cmpA16 rd rs addr
  | .cmp, .toA16 rs addr => .cmpToA16 rd rs addr
  | .cmp, .asr nn rs => .cmpAsr rd nn rs
  | .cmp, .lsl nn rs => .cmpLsl rd nn rs
  | .cmp, .lsr nn rs => .cmpLsr rd nn rs
  | .cmp, .rol nn rs => .cmpRol rd nn rs
  | .cmp, .ror nn rs => .cmpRor rd nn rs
  | .cmp, .a6 imm6 => .cmpA6 rd imm6
  | .neg, .bp6 imm6 => .negBp6 rd imm6
  | .neg, .imm6 imm6 => .negImm6 rd imm6
  | .neg, .ind ds mode rs => .negInd rd ds mode rs
  | .neg, .reg rs => .negReg rd rs
  | .neg, .imm16 rs imm => .negImm16 rd rs imm
  | .neg, .a16 rs addr => .negA16 rd rs addr
  | .neg, .toA16 rs addr => .negToA16 rd rs addr
  | .neg, .asr nn rs => .negAsr rd nn rs
  | .neg, .lsl nn rs => .negLsl rd nn rs
  | .neg, .lsr nn rs => .negLsr rd nn rs
  | .neg, .rol nn rs => .negRol rd nn rs
  | .neg, .ror nn rs => .negRor rd nn rs
  | .neg, .a6 imm6 => .negA6 rd imm6
  | .xor, .bp6 imm6 => .xorBp6 rd imm6
  | .xor, .imm6 imm6 => .xorImm6 rd imm6
  | .xor, .ind ds mode rs => .xorInd rd ds mode rs
  | .xor, .reg rs => .xorReg rd rs
  | .xor, .imm16 rs imm => .xorImm16 rd rs imm
  | .xor, .a16 rs addr => .xorA16 rd rs addr
  | .xor, .toA16 rs addr => .xorToA16 rd rs addr
  | .xor, .asr nn rs => .xorAsr rd nn rs
  | .xor, .lsl nn rs => .xorLsl rd nn rs
  | .xor, .lsr nn rs => .xorLsr rd nn rs
  | .xor, .rol nn rs => .xorRol rd nn rs
  | .xor, .ror nn rs => .xorRor rd nn rs
  | .xor, .a6 imm6 => .xorA6 rd imm6
  | .load, .bp6 imm6 => .loadBp6 rd imm6
  | .load, .imm6 imm6 => .loadImm6 rd imm6
  | .load, .ind ds mode rs => .loadInd rd ds mode rs
  | .load, .reg rs => .loadReg rd rs
  | .load, .imm16 rs imm => .loadImm16 rd rs imm
  | .load, .a16 rs addr => .loadA16 rd rs addr
  | .load, .toA16 rs addr => .loadToA16 rd rs addr
  | .load, .asr nn rs => .loadAsr rd nn rs
  | .load, .lsl nn rs => .loadLsl rd nn rs
  | .load, .lsr nn rs => .loadLsr rd nn rs
  | .load, .rol nn rs => .loadRol rd nn rs
  | .load, .ror nn rs => .loadRor rd nn rs
  | .load, .a6 imm6 => .loadA6 rd imm6
  | .or, .bp6 imm6 => .orBp6 rd imm6
  | .or, .imm6 imm6 => .orImm6 rd imm6
  | .or, .ind ds mode rs => .orInd rd ds mode rs
  | .or, .reg rs => .orReg rd rs
  | .or, .imm16 rs imm => .orImm16 rd rs imm
  | .or, .a16 rs addr => .orA16 rd rs addr
  | .or, .toA16 rs addr => .orToA16 rd rs addr
  | .or, .asr nn rs => .orAsr rd nn rs
  | .or, .lsl nn rs => .orLsl rd nn rs
  | .or, .lsr nn rs => .orLsr rd nn rs
  | .or, .rol nn rs => .orRol rd nn rs
  | .or, .ror nn rs => .orRor rd nn rs
  | .or, .a6 imm6 => .orA6 rd imm6
  | .and, .bp6 imm6 => .andBp6 rd imm6
  | .and, .imm6 imm6 => .andImm6 rd imm6
  | .and, .ind ds mode rs => .andInd rd ds mode rs
  | .and, .reg rs => .andReg rd rs
  | .and, .imm16 rs imm => .andImm16 rd rs imm
  | .and, .a16 rs addr => .andA16 rd rs addr
  | .and, .toA16 rs addr => .andToA16 rd rs addr
  | .and, .asr nn rs => .andAsr rd nn rs
  | .and, .lsl nn rs => .andLsl rd nn rs
  | .and, .lsr nn rs => .andLsr rd nn rs
  | .and, .rol nn rs => .andRol rd nn rs
  | .and, .ror nn rs => .andRor rd nn rs
  | .and, .a6 imm6 => .andA6 rd imm6
  | .test, .bp6 imm6 => .testBp6 rd imm6
  | .test, .imm6 imm6 => .testImm6 rd imm6
  | .test, .ind ds mode rs => .testInd rd ds mode rs
  | .test, .reg rs => .testReg rd rs
  | .test, .imm16 rs imm => .testImm16 rd rs imm
  | .test, .a16 rs addr => .testA16 rd rs addr
  | .test, .toA16 rs addr => .testToA16 rd rs addr
  | .test, .asr nn rs => .testAsr rd nn rs
  | .test, .lsl nn rs => .testLsl rd nn rs
  | .test, .lsr nn rs => .testLsr rd nn rs
  | .test, .rol nn rs => .testRol rd nn rs
  | .test, .ror nn rs => .testRor rd nn rs
  | .test, .a6 imm6 => .testA6 rd imm6

/-- STORE to an operand form that names memory (R238, R272). -/
def Instr.ofStore (rd : Reg) (f : StoreForm) : Instr :=
  match f with
  | .bp6 imm6 => .storeBp6 rd imm6
  | .ind ds mode rs => .storeInd rd ds mode rs
  | .a16 rs addr => .storeA16 rd rs addr
  | .toA16 rs addr => .storeToA16 rd rs addr
  | .a6 imm6 => .storeA6 rd imm6

/-- The instruction of a shape. -/
def Shape.instr : Shape → Instr
  | .mul signed rd rs => .ofMul signed rd rs
  | .call seg addr => .call seg addr
  | .goto seg addr => .goto seg addr
  | .fixed k => .ofFixed k
  | .jump c back imm6 => .ofJump c back imm6
  | .bit fn rd f => .ofBit fn rd f
  | .rshift fn rd rs => .ofShift fn rd rs
  | .push rd n rb => .push rd n rb
  | .pop rd n rb => .pop rd n rb
  | .reti => .reti
  | .alu op rd f => .ofAlu op rd f
  | .store rd f => .ofStore rd f

/-- The forms whose encoding has `op1 < 2`: with `opa = 7` those words are jumps (R96, R99). -/
def Form.inJumpColumn : Form → Bool
  | .bp6 _ | .imm6 _ => true
  | .ind _ _ _ | .reg _ | .imm16 _ _ | .a16 _ _ | .toA16 _ _ => false
  | .asr _ _ | .lsl _ _ | .lsr _ _ | .rol _ _ | .ror _ _ | .a6 _ => false

/-- As `Form.inJumpColumn`, for the forms of STORE. -/
def StoreForm.inJumpColumn : StoreForm → Bool
  | .bp6 _ => true
  | .ind _ _ _ | .a16 _ _ | .toA16 _ _ | .a6 _ => false

/-- As `Form.inJumpColumn`, for the forms of a bit operation: the register targets (R191). -/
def BitForm.inJumpColumn : BitForm → Bool
  | .rRs _ | .rImm _ => true
  | .mRs _ | .dmRs _ | .mImm _ | .dmImm _ => false

/-- PUSH may transfer `n` registers from `rd` downwards: `1 <= n` and `n <= opa + 1` (R290). -/
def pushLegal (rd : Reg) (n : BitVec 3) : Bool :=
  decide (1 ≤ n.toNat ∧ n.toNat ≤ rd.num.toNat + 1)

/-- POP may transfer `n` registers from above `rd`: `1 <= n` and `n <= 7 - opa` (R291). -/
def popLegal (rd : Reg) (n : BitVec 3) : Bool :=
  decide (1 ≤ n.toNat ∧ n.toNat + rd.num.toNat ≤ 7)

/-- The shape has an encoding. -/
def Shape.wf : Shape → Bool
  | .mul _ _ _ | .call _ _ | .goto _ _ | .fixed _ | .jump _ _ _ | .rshift _ _ _ | .reti => true
  | .bit _ rd f => !(f.inJumpColumn && rd == .pc)
  | .push rd n _ => pushLegal rd n
  | .pop rd n _ => popLegal rd n
  | .alu _ rd f => !(f.inJumpColumn && rd == .pc)
  | .store rd f => !(f.inJumpColumn && rd == .pc)

/-- The instruction is well formed: some word of spec/opcode_table.json stands for it. -/
def Instr.wf (i : Instr) : Bool := i.shape.wf

/-- A form that takes a second word (R90). -/
def Form.takesImm16 : Form → Bool
  | .imm16 _ _ | .a16 _ _ | .toA16 _ _ => true
  | .bp6 _ | .imm6 _ | .ind _ _ _ | .reg _ => false
  | .asr _ _ | .lsl _ _ | .lsr _ _ | .rol _ _ | .ror _ _ | .a6 _ => false

/-- As `Form.takesImm16`, for the forms of STORE. -/
def StoreForm.takesImm16 : StoreForm → Bool
  | .a16 _ _ | .toA16 _ _ => true
  | .bp6 _ | .ind _ _ _ | .a6 _ => false

/-- The instruction takes a second word: the ALU operations and STORE in the forms IMM16, A16 and TOA16, CALL and
GOTO (R90). -/
def Instr.takesImm16 (i : Instr) : Bool :=
  match i.shape with
  | .call _ _ | .goto _ _ => true
  | .alu _ _ f => f.takesImm16
  | .store _ f => f.takesImm16
  | .mul _ _ _ | .fixed _ | .jump _ _ _ | .bit _ _ _ | .rshift _ _ _ | .push _ _ _ | .pop _ _ _ | .reti => false

end Sys2Proof
end

