-- ==== Sys2Proof/Decode.lean ====
section
/-! DEFINITION. The instruction decoder and dispatch multiplexer (30_encoding.md R90 to R104), total on any words and
rejecting by name, and after it the encoder, written from the formats of rule R92. -/

namespace Sys2Proof

/-- Why words are no instruction. The first five are the illegal words of rule R103, each raising
`UnimplementedOpcode`; the last two are lists too short to hold an instruction, which a fetch never yields. -/
inductive Reject where
  /-- `op0 = 0xF` and not listed in rule R101 (R144). -/
  | fxxxUnlisted
  /-- `op0 = 0xE`, no jump, not listed in rule R102 (R205). -/
  | exxxUnlisted
  /-- `op0 = 5` or `op0 = 7`: no ALU operation has the number (R273). -/
  | aluUnnamed
  /-- STORE in a form that names no memory destination (R238). -/
  | storeForm
  /-- `op1 = 2` and no legal PUSH, POP or RETI (R294). -/
  | stackWord
  /-- No word at all. -/
  | noWord
  /-- A two-word instruction without its second word. -/
  | noSecondWord
  deriving DecidableEq, Repr

/-! ## Fields (R91) -/

def fieldOp0 (op : Word) : BitVec 4 := op.extractLsb' 12 4
def fieldOpa (op : Word) : BitVec 3 := op.extractLsb' 9 3
def fieldOp1 (op : Word) : BitVec 3 := op.extractLsb' 6 3
def fieldOpn (op : Word) : BitVec 3 := op.extractLsb' 3 3
def fieldOpb (op : Word) : BitVec 3 := op.extractLsb' 0 3
def fieldImm6 (op : Word) : BitVec 6 := op.extractLsb' 0 6

/-- The two-bit count field of the shifted forms, `op[4:3]` (R92). -/
def fieldNn (op : Word) : BitVec 2 := op.extractLsb' 3 2

/-- The bit number of the immediate bit operations, `op[3:0]` (R92). -/
def fieldOff (op : Word) : BitVec 4 := op.extractLsb' 0 4

/-- The register an index names (R20). -/
def Reg.ofNum (n : BitVec 3) : Reg :=
  match n.toNat with
  | 0 => .sp
  | 1 => .r1
  | 2 => .r2
  | 3 => .r3
  | 4 => .r4
  | 5 => .bp
  | 6 => .sr
  | _ => .pc

/-- `Rd`, the register of the field `opa`. -/
def fieldRd (op : Word) : Reg := .ofNum (fieldOpa op)

/-- `Rs`, the register of the field `opb`. -/
def fieldRs (op : Word) : Reg := .ofNum (fieldOpb op)

/-! ## The four groups -/

/-- The fixed words of the Fxxx group (R130). -/
def decodeFixed (op : Word) : Except Reject Instr :=
  if op = 0xF140#16 then .ok .intOff
  else if op = 0xF141#16 then .ok .intIrq
  else if op = 0xF142#16 then .ok .intFiq
  else if op = 0xF143#16 then .ok .intFiqIrq
  else if op = 0xF148#16 then .ok .irqOff
  else if op = 0xF149#16 then .ok .irqOn
  else if op = 0xF14C#16 then .ok .fiqOff
  else if op = 0xF14E#16 then .ok .fiqOn
  else if op = 0xF165#16 then .ok .nop
  else .error .fxxxUnlisted

/-- The Fxxx group (R130). -/
def decodeFxxx (op imm : Word) : Except Reject Instr :=
  if op &&& 0xF1F8#16 = 0xF008#16 then .ok (.mulUs (fieldRd op) (fieldRs op))
  else if op &&& 0xF1F8#16 = 0xF108#16 then .ok (.mulSs (fieldRd op) (fieldRs op))
  else if op &&& 0xFFC0#16 = 0xF040#16 then .ok (.call (fieldImm6 op) imm)
  else if op &&& 0xFFC0#16 = 0xFE80#16 then .ok (.goto (fieldImm6 op) imm)
  else decodeFixed op

/-- The condition of a jump: `op0`, 0 to 14 (R100). -/
def decodeCond (op0 : BitVec 4) : Cond :=
  match op0.toNat with
  | 0 => .jb
  | 1 => .jae
  | 2 => .jge
  | 3 => .jl
  | 4 => .jne
  | 5 => .je
  | 6 => .jpl
  | 7 => .jmi
  | 8 => .jbe
  | 9 => .ja
  | 10 => .jle
  | 11 => .jg
  | 12 => .jvc
  | 13 => .jvs
  | _ => .jmp

/-- The jump group: every word of it is legal (R100, R160). -/
def decodeJump (op : Word) : Instr :=
  .ofJump (decodeCond (fieldOp0 op)) (op.getLsbD 6) (fieldImm6 op)

/-- The bit operation of the field `bb = op[5:4]` (R190). -/
def decodeBitFn (op : Word) : BitFn :=
  match (op.extractLsb' 4 2).toNat with
  | 0 => .tstb
  | 1 => .setb
  | 2 => .clrb
  | _ => .invb

/-- The shift of the field `lll = op[6:4]` (R190). -/
def decodeShiftFn (op : Word) : ShiftFn :=
  match (op.extractLsb' 4 3).toNat with
  | 0 => .asr
  | 1 => .asror
  | 2 => .lsl
  | 3 => .lslor
  | 4 => .lsr
  | 5 => .lsror
  | 6 => .rol
  | _ => .ror

/-- The Exxx group (R190). -/
def decodeExxx (op : Word) : Except Reject Instr :=
  let bit (f : BitForm) : Except Reject Instr := .ok (.ofBit (decodeBitFn op) (fieldRd op) f)
  if op &&& 0xF1C8#16 = 0xE000#16 then bit (.rRs (fieldRs op))
  else if op &&& 0xF1C0#16 = 0xE040#16 then bit (.rImm (fieldOff op))
  else if op &&& 0xF1C8#16 = 0xE100#16 then bit (.mRs (fieldRs op))
  else if op &&& 0xF1C8#16 = 0xE140#16 then bit (.dmRs (fieldRs op))
  else if op &&& 0xF1C0#16 = 0xE180#16 then bit (.mImm (fieldOff op))
  else if op &&& 0xF1C0#16 = 0xE1C0#16 then bit (.dmImm (fieldOff op))
  else if op &&& 0xF188#16 = 0xE108#16 then .ok (.ofShift (decodeShiftFn op) (fieldRd op) (fieldRs op))
  else .error .exxxUnlisted

/-- The words with `op1 = 2` (R290, R291, R292, R294): the one word 0x9A98 is RETI. -/
def decodeStack (op : Word) : Except Reject Instr :=
  if op = 0x9A98#16 then .ok .reti
  else if fieldOp0 op = 0xD#4 ∧ pushLegal (fieldRd op) (fieldOpn op) = true then
    .ok (.push (fieldRd op) (fieldOpn op) (fieldRs op))
  else if fieldOp0 op = 0x9#4 ∧ popLegal (fieldRd op) (fieldOpn op) = true then
    .ok (.pop (fieldRd op) (fieldOpn op) (fieldRs op))
  else .error .stackWord

/-- The indirect mode `mm = op[4:3]` (R92). -/
def decodeIndMode (op : Word) : IndMode :=
  match (fieldNn op).toNat with
  | 0 => .plain
  | 1 => .postDec
  | 2 => .postInc
  | _ => .preInc

/-- The operand form of a word of the remaining group with `op1 = 4` (R99). -/
def decodeForm4 (op imm : Word) : Form :=
  match (fieldOpn op).toNat with
  | 0 => .reg (fieldRs op)
  | 1 => .imm16 (fieldRs op) imm
  | 2 => .a16 (fieldRs op) imm
  | 3 => .toA16 (fieldRs op) imm
  | _ => .asr (fieldNn op) (fieldRs op)

/-- The operand form a word of the remaining group selects by `op1` and `opn` (R99). The slot `op1 = 2` is the stack
instructions' and selects none. -/
def decodeForm (op imm : Word) : Option Form :=
  match (fieldOp1 op).toNat with
  | 0 => some (.bp6 (fieldImm6 op))
  | 1 => some (.imm6 (fieldImm6 op))
  | 2 => none
  | 3 => some (.ind (op.getLsbD 5) (decodeIndMode op) (fieldRs op))
  | 4 => some (decodeForm4 op imm)
  | 5 => some (if op.getLsbD 5 then .lsr (fieldNn op) (fieldRs op) else .lsl (fieldNn op) (fieldRs op))
  | 6 => some (if op.getLsbD 5 then .ror (fieldNn op) (fieldRs op) else .rol (fieldNn op) (fieldRs op))
  | _ => some (.a6 (fieldImm6 op))

/-- The form as STORE takes it, where it names a memory destination (R238). -/
def Form.asStore : Form → Option StoreForm
  | .bp6 off => some (.bp6 off)
  | .ind ds mode rs => some (.ind ds mode rs)
  | .a16 rs addr => some (.a16 rs addr)
  | .toA16 rs addr => some (.toA16 rs addr)
  | .a6 off => some (.a6 off)
  | .imm6 _ | .reg _ | .imm16 _ _ | .asr _ _ | .lsl _ _ | .lsr _ _ | .rol _ _ | .ror _ _ => none

/-- The operation number `op0` of the remaining group (R98): a computing operation, STORE (`some none`), or none. -/
def decodeAluOp (op0 : BitVec 4) : Option (Option AluOp) :=
  match op0.toNat with
  | 0x0 => some (some .add)
  | 0x1 => some (some .adc)
  | 0x2 => some (some .sub)
  | 0x3 => some (some .sbc)
  | 0x4 => some (some .cmp)
  | 0x6 => some (some .neg)
  | 0x8 => some (some .xor)
  | 0x9 => some (some .load)
  | 0xA => some (some .or)
  | 0xB => some (some .and)
  | 0xC => some (some .test)
  | 0xD => some none
  | _ => none

/-- The remaining group, in the order of rule R220: the stack slot, the unnamed operations, then the forms. -/
def decodeRemaining (op imm : Word) : Except Reject Instr :=
  match decodeForm op imm with
  | none => decodeStack op
  | some form =>
    match decodeAluOp (fieldOp0 op) with
    | none => .error .aluUnnamed
    | some (some alu) => .ok (.ofAlu alu (fieldRd op) form)
    | some none =>
      match form.asStore with
      | none => .error .storeForm
      | some f => .ok (.ofStore (fieldRd op) f)

/-! ## The dispatch multiplexer -/

/-- The dispatch of rule R96, its four tests in their order. `imm` is the second word, for the instructions that take
one (R93); the others do not look at it. -/
def decodeOp (op imm : Word) : Except Reject Instr :=
  if fieldOp0 op = 0xF#4 then decodeFxxx op imm
  else if fieldOpa op = 7#3 ∧ fieldOp1 op < 2#3 then .ok (decodeJump op)
  else if fieldOp0 op = 0xE#4 then decodeExxx op
  else decodeRemaining op imm

/-- Whether the opcode word alone says that a second word follows (R90, R104). An illegal word takes none (R310). -/
def takesSecondWord (op : Word) : Bool :=
  match decodeOp op 0#16 with
  | .ok i => i.takesImm16
  | .error _ => false

/-- The decoder: the first instruction of a list of words, with the words after it. -/
def decode : List Word → Except Reject (Instr × List Word)
  | [] => .error .noWord
  | op :: rest =>
    if takesSecondWord op then
      match rest with
      | [] => .error .noSecondWord
      | imm :: rest' => (decodeOp op imm).map (·, rest')
    else (decodeOp op 0#16).map (·, rest)

/-- The decoder on an instruction's bits numbered as spec/opcode_table.json numbers them: bit 0 is the least
significant bit of the first word, the second word is bits 31 to 16; bits from `nbits` up are 0. -/
def decodeTableWord (nbits w : Nat) : Option Instr :=
  let v := BitVec.ofNat 32 (w % 2 ^ nbits)
  match decode [v.extractLsb' 0 16, v.extractLsb' 16 16] with
  | .ok (i, _) => some i
  | .error _ => none

/-! ## The encoder (R92) -/

/-- An opcode word from its five fields. -/
def opWord (op0 : BitVec 4) (opa op1 opn opb : BitVec 3) : Word := op0 ++ opa ++ op1 ++ opn ++ opb

/-- An opcode word whose low six bits are one field. -/
def opWord6 (op0 : BitVec 4) (opa op1 : BitVec 3) (imm6 : BitVec 6) : Word := op0 ++ opa ++ op1 ++ imm6

/-- `op0` of an ALU operation (R98). -/
def AluOp.num : AluOp → BitVec 4
  | .add => 0x0#4
  | .adc => 0x1#4
  | .sub => 0x2#4
  | .sbc => 0x3#4
  | .cmp => 0x4#4
  | .neg => 0x6#4
  | .xor => 0x8#4
  | .load => 0x9#4
  | .or => 0xA#4
  | .and => 0xB#4
  | .test => 0xC#4

/-- `op0` of a jump (R100). -/
def Cond.num : Cond → BitVec 4
  | .jb => 0#4
  | .jae => 1#4
  | .jge => 2#4
  | .jl => 3#4
  | .jne => 4#4
  | .je => 5#4
  | .jpl => 6#4
  | .jmi => 7#4
  | .jbe => 8#4
  | .ja => 9#4
  | .jle => 10#4
  | .jg => 11#4
  | .jvc => 12#4
  | .jvs => 13#4
  | .jmp => 14#4

/-- The field `bb` of a bit operation (R190). -/
def BitFn.num : BitFn → BitVec 2
  | .tstb => 0#2
  | .setb => 1#2
  | .clrb => 2#2
  | .invb => 3#2

/-- The field `lll` of a register-count shift (R190). -/
def ShiftFn.num : ShiftFn → BitVec 3
  | .asr => 0#3
  | .asror => 1#3
  | .lsl => 2#3
  | .lslor => 3#3
  | .lsr => 4#3
  | .lsror => 5#3
  | .rol => 6#3
  | .ror => 7#3

/-- The field `mm` of an indirect mode (R92). -/
def IndMode.num : IndMode → BitVec 2
  | .plain => 0#2
  | .postDec => 1#2
  | .postInc => 2#2
  | .preInc => 3#2

/-- The sixteen bits of a fixed word (R101). -/
def FixedOp.word : FixedOp → Word
  | .intOff => 0xF140#16
  | .intIrq => 0xF141#16
  | .intFiq => 0xF142#16
  | .intFiqIrq => 0xF143#16
  | .irqOff => 0xF148#16
  | .irqOn => 0xF149#16
  | .fiqOff => 0xF14C#16
  | .fiqOn => 0xF14E#16
  | .nop => 0xF165#16

/-- The words of an ALU operation number in an operand form (R92, formats F_ALU_BP6 to F_ALU_A6). -/
def encodeForm (op0 : BitVec 4) (rd : Reg) : Form → List Word
  | .bp6 imm6 => [opWord6 op0 rd.num 0#3 imm6]
  | .imm6 imm6 => [opWord6 op0 rd.num 1#3 imm6]
  | .ind ds mode rs => [opWord op0 rd.num 3#3 (BitVec.ofBool ds ++ mode.num) rs.num]
  | .reg rs => [opWord op0 rd.num 4#3 0#3 rs.num]
  | .imm16 rs imm => [opWord op0 rd.num 4#3 1#3 rs.num, imm]
  | .a16 rs addr => [opWord op0 rd.num 4#3 2#3 rs.num, addr]
  | .toA16 rs addr => [opWord op0 rd.num 4#3 3#3 rs.num, addr]
  | .asr nn rs => [opWord op0 rd.num 4#3 (1#1 ++ nn) rs.num]
  | .lsl nn rs => [opWord op0 rd.num 5#3 (0#1 ++ nn) rs.num]
  | .lsr nn rs => [opWord op0 rd.num 5#3 (1#1 ++ nn) rs.num]
  | .rol nn rs => [opWord op0 rd.num 6#3 (0#1 ++ nn) rs.num]
  | .ror nn rs => [opWord op0 rd.num 6#3 (1#1 ++ nn) rs.num]
  | .a6 imm6 => [opWord6 op0 rd.num 7#3 imm6]

/-- The words of STORE in an operand form: those of operation number 0xD (R272). -/
def encodeStore (rd : Reg) : StoreForm → List Word
  | .bp6 imm6 => encodeForm 0xD#4 rd (.bp6 imm6)
  | .ind ds mode rs => encodeForm 0xD#4 rd (.ind ds mode rs)
  | .a16 rs addr => encodeForm 0xD#4 rd (.a16 rs addr)
  | .toA16 rs addr => encodeForm 0xD#4 rd (.toA16 rs addr)
  | .a6 imm6 => encodeForm 0xD#4 rd (.a6 imm6)

/-- The word of a bit operation in a form (R92, formats F_BIT_R_RS to F_BIT_M_IMM). -/
def encodeBit (fn : BitFn) (rd : Reg) : BitForm → Word
  | .rRs rs => opWord6 0xE#4 rd.num 0#3 (fn.num ++ 0#1 ++ rs.num)
  | .rImm off => opWord6 0xE#4 rd.num 1#3 (fn.num ++ off)
  | .mRs rs => opWord6 0xE#4 rd.num 4#3 (fn.num ++ 0#1 ++ rs.num)
  | .dmRs rs => opWord6 0xE#4 rd.num 5#3 (fn.num ++ 0#1 ++ rs.num)
  | .mImm off => opWord6 0xE#4 rd.num 6#3 (fn.num ++ off)
  | .dmImm off => opWord6 0xE#4 rd.num 7#3 (fn.num ++ off)

/-- The words of a shape. -/
def Shape.encode : Shape → List Word
  | .mul signed rd rs => [opWord 0xF#4 rd.num (BitVec.ofBool signed ++ 0#2) 1#3 rs.num]
  | .call seg addr => [opWord6 0xF#4 0#3 1#3 seg, addr]
  | .goto seg addr => [opWord6 0xF#4 7#3 2#3 seg, addr]
  | .fixed k => [k.word]
  | .jump c back imm6 => [opWord6 c.num 7#3 (0#2 ++ BitVec.ofBool back) imm6]
  | .bit fn rd f => [encodeBit fn rd f]
  | .rshift fn rd rs => [0xE#4 ++ rd.num ++ 1#1 ++ 0#1 ++ fn.num ++ 1#1 ++ rs.num]
  | .push rd n rb => [opWord 0xD#4 rd.num 2#3 n rb.num]
  | .pop rd n rb => [opWord 0x9#4 rd.num 2#3 n rb.num]
  | .reti => [0x9A98#16]
  | .alu op rd f => encodeForm op.num rd f
  | .store rd f => encodeStore rd f

/-- The encoder: the words of a well-formed instruction. -/
def encode (i : Instr) : List Word := i.shape.encode

end Sys2Proof
end

