-- ==== Sys2Proof/Config.lean ====
section
/-! DEFINITION. What the platform fixes and the spec leaves to it. The spec yields no unspecified value inside the
block (93_implementation_defined.md, after U11), so there is no free value here: one choice stands, the contents of
memory that nothing has written. -/

namespace Sys2Proof

/-- What a byte of memory that nothing has written reads as. Rule R62 makes the memory a parameter of the model and
says no access faults, so a value is read. DESIGN CHOICE (log entry 1), unsafe. -/
def Config.unwrittenByte : Byte := 0x00#8

end Sys2Proof
end

