-- ==== Sys2Proof/Machine/Memory.lean ====
section
/-! DEFINITION. The words last written (20_memory.md R70), from which the platform's memory answers a read that it does
not answer otherwise (R62): one space of 16-bit words at 23-bit word addresses, held as byte cells in one canonical
form; and the four address forms of R63. -/

namespace Sys2Proof.Machine

/-- Memory as byte cells, addresses strictly rising, no cell equal to what an unlisted address reads as. -/
abbrev Memory := List Host.Cell

/-- The byte at byte address `k`. -/
def Memory.byte : Memory → Nat → Byte
  | [], _ => Config.unwrittenByte
  | (k', b) :: m, k => if k = k' then b else Memory.byte m k

/-- `m` without the cells of byte address `k`. -/
def Memory.erase (m : Memory) (k : Nat) : Memory := m.filter fun c => decide (c.1 ≠ k)

/-- `m` with a cell put before the first cell of a higher address. -/
def Memory.insert : Memory → Nat → Byte → Memory
  | [], k, b => [(k, b)]
  | c :: m, k, b => if k < c.1 then (k, b) :: c :: m else c :: Memory.insert m k b

/-- `m` with the byte at `k` replaced, in canonical form again. -/
def Memory.setByte (m : Memory) (k : Nat) (b : Byte) : Memory :=
  if b = Config.unwrittenByte then m.erase k else (m.erase k).insert k b

/-- The canonical form holds. -/
def Memory.wf : Memory → Bool
  | [] => true
  | (k, b) :: m => decide (b ≠ Config.unwrittenByte) && m.all (fun c => decide (k < c.1)) && Memory.wf m

/-- The byte address of the low half of the word at `a`; the high half is at the next one. DESIGN CHOICE (log
entry 2): R64 gives words no byte order, and no instruction can observe one. -/
def byteAddr (a : Addr) : Nat := 2 * a.toNat

/-- The word at address `a`: what `MemRead(a, 1)` returns where the platform's memory is plain storage (R61, R70). -/
def Memory.word (m : Memory) (a : Addr) : Word := m.byte (byteAddr a + 1) ++ m.byte (byteAddr a)

/-- `m` with the word at address `a` replaced: `MemWrite(a, 1, v)` (R61). -/
def Memory.setWord (m : Memory) (a : Addr) (v : Word) : Memory :=
  (m.setByte (byteAddr a) (v.extractLsb' 0 8)).setByte (byteAddr a + 1) (v.extractLsb' 8 8)

/-! ## Address formation (R63) -/

/-- The 22-bit number of a segment and an offset. -/
def segOff (seg : BitVec 6) (off : Word) : ProgAddr := seg ++ off

/-- The bus address of a 22-bit address: bit 22 of the bus is 0 (R60). -/
def busAddr (a : ProgAddr) : Addr := a.setWidth 23

/-- A segment-0 address: `zext_23(off)`. -/
def segZero (off : Word) : Addr := off.setWidth 23

/-- The FIQ vector (R67). -/
def fiqVector : Addr := 0x00FFF6#23

/-- The reset vector (R67). -/
def resetVector : Addr := 0x00FFF7#23

/-- The vector of an IRQ line (R67). -/
def irqVector (line : BitVec 3) : Addr := 0x00FFF8#23 + line.setWidth 23

end Sys2Proof.Machine
end

