-- ==== Sys2Proof/Machine/State.lean ====
section
/-! DEFINITION. The architectural state (10_state.md), the reasons a step can stop, and the state after reset
(70_reset_and_hazards.md R360). -/

namespace Sys2Proof.Machine

/-- The fault latch's record: the undefined opcode word and the address it was fetched from (R40). -/
structure FaultRecord where
  op : Word
  addr : ProgAddr
  deriving DecidableEq, Repr

/-- One access of the memory interface, with the word read or written (R61, R65). -/
inductive BusAccess where
  | read (a : Addr) (v : Word)
  | write (a : Addr) (v : Word)
  deriving DecidableEq, Repr

/-- The address of an access. -/
def BusAccess.addr : BusAccess → Addr
  | .read a _ => a
  | .write a _ => a

/-- The state of the block (10_state.md) with the memory the platform supplies (R374). -/
structure State where
  /-- Register 0 (R20). -/
  sp : Word
  /-- Register 1 (R20). -/
  r1 : Word
  /-- Register 2 (R20). -/
  r2 : Word
  /-- Register 3, the low half of MR (R20, R22). -/
  r3 : Word
  /-- Register 4, the high half of MR (R20, R22). -/
  r4 : Word
  /-- Register 5 (R20). -/
  bp : Word
  /-- Register 6: DS 15:10, N 9, Z 8, S 7, C 6, CS 5:0 (R26). -/
  sr : Word
  /-- Register 7, the low half of the program address (R24). -/
  pc : Word
  /-- The shift buffer (R36). -/
  sb : BitVec 4
  /-- SB of the interrupted base context (R37). -/
  savedSb0 : BitVec 4
  /-- SB of the IRQ context while it is not running (R37). -/
  savedSb1 : BitVec 4
  /-- SB of the FIQ context while it is not running (R37). -/
  savedSb2 : BitVec 4
  /-- IRQs may be taken (R34). -/
  enableIrq : Bool
  /-- The FIQ may be taken (R34). -/
  enableFiq : Bool
  /-- An IRQ is in service (R35). -/
  irq : Bool
  /-- The FIQ is in service (R35). -/
  fiq : Bool
  /-- The pending mask: bits 7 to 0 the IRQ lines, bit 8 the FIQ (R38). -/
  sirq : BitVec 9
  /-- The line of the IRQ in service (R39). -/
  curirq : BitVec 3
  /-- The fault latch (R40). -/
  faulted : Option FaultRecord
  /-- Memory: the words last written (R60, R70). -/
  mem : Memory
  /-- The model's own field (log entry 13): what the platform answers to the coming reads, oldest first (R62, D31).
  `some v` is the word `v`, whatever was written there; `none`, like the end of the list, is what `mem` holds. -/
  replies : List (Option Word)
  /-- The model's own field (log entry 3): the accesses of the latest step or reset, oldest first (R65). -/
  bus : List BusAccess
  deriving DecidableEq, Repr

/-- Why a step has no next state. -/
inductive Fault where
  /-- Raised by `step` alone, in a state whose fault latch is set: no step is ever taken while `faulted` is not none
  (R40, R310, R374). Safe: the spec enables no step there. `d` is the latched record. -/
  | halted (d : FaultRecord)
  deriving DecidableEq, Repr

/-- Why an instruction has no meaning. -/
inductive Refusal where
  /-- Raised by an arm of `exec` for an instruction that has no meaning yet, with its mnemonic. Safe. No arm of this
  model raises it. -/
  | notModelled (mnemonic : String)
  deriving DecidableEq, Repr

/-- What a step answers. -/
abbrev Result := Host.Outcome State Fault Refusal

/-- The state after a reset with memory `m` and answers `replies` yet to come: everything zero but PC, which is the word
`v` read at the reset vector; one memory access (R42, R360). -/
def State.resetWith (m : Memory) (replies : List (Option Word)) (v : Word) : State where
  sp := 0
  r1 := 0
  r2 := 0
  r3 := 0
  r4 := 0
  bp := 0
  sr := 0
  pc := v
  sb := 0
  savedSb0 := 0
  savedSb1 := 0
  savedSb2 := 0
  enableIrq := false
  enableFiq := false
  irq := false
  fiq := false
  sirq := 0
  curirq := 0
  faulted := none
  mem := m
  replies := replies
  bus := [.read resetVector v]

/-- The machine right after reset, over a memory in which nothing is listed and which is plain storage (R62 for closed
programs, R70). -/
def State.reset : State := .resetWith [] [] (Memory.word [] resetVector)

end Sys2Proof.Machine
end

