-- ==== Sys2Proof/Machine/Flags.lean ====
section
/-! DEFINITION. The fields of SR (10_state.md R26), the flag helpers (R28, R29), what each ALU operation computes and
which helper it calls (44_remaining_alu_ops.md R260), and the jump conditions (41_jump_group.md R161 to R175). All are
functions of words. -/

namespace Sys2Proof.Machine

/-! ## The fields of SR (R26) -/

/-- DS, bits 15:10. -/
def srDs (sr : Word) : BitVec 6 := sr.extractLsb' 10 6
/-- N, bit 9. -/
def srN (sr : Word) : Bool := sr.getLsbD 9
/-- Z, bit 8. -/
def srZ (sr : Word) : Bool := sr.getLsbD 8
/-- S, bit 7. -/
def srS (sr : Word) : Bool := sr.getLsbD 7
/-- C, bit 6. -/
def srC (sr : Word) : Bool := sr.getLsbD 6
/-- CS, bits 5:0. -/
def srCs (sr : Word) : BitVec 6 := sr.extractLsb' 0 6

/-- SR from its six fields. -/
def packSr (ds : BitVec 6) (n z s c : Bool) (cs : BitVec 6) : Word :=
  ds ++ BitVec.ofBool n ++ BitVec.ofBool z ++ BitVec.ofBool s ++ BitVec.ofBool c ++ cs

/-- `SR.CS <- cs`, the other bits unchanged. -/
def withCs (cs : BitVec 6) (sr : Word) : Word := packSr (srDs sr) (srN sr) (srZ sr) (srS sr) (srC sr) cs

/-- `SR.Z <- z`, the other bits unchanged. -/
def withZ (z : Bool) (sr : Word) : Word := packSr (srDs sr) (srN sr) z (srS sr) (srC sr) (srCs sr)

/-! ## The flag helpers -/

/-- `UpdateNZ(v)`: N and Z from the low 16 bits; S, C, DS and CS unchanged (R28). -/
def updateNZ (v : Word) (sr : Word) : Word :=
  packSr (srDs sr) v.msb (v == 0#16) (srS sr) (srC sr) (srCs sr)

/-- `UpdateNZSC(v, a, b)`: S is `s16(a) < s16(~b)`, N and Z from the low 16 bits of the 17-bit `v`, C its bit 16; DS
and CS unchanged (R29). -/
def updateNZSC (v : BitVec 17) (a b : Word) (sr : Word) : Word :=
  packSr (srDs sr) (v.getLsbD 15) (v.setWidth 16 == 0#16) (decide (a.toInt < (~~~b).toInt)) (v.getLsbD 16) (srCs sr)

/-! ## The ALU (R260) -/

/-- A 16-bit value as a 17-bit one. -/
def wide (v : Word) : BitVec 17 := v.setWidth 17

/-- A flag as a 17-bit number. -/
def wideBit (c : Bool) : BitVec 17 := (BitVec.ofBool c).setWidth 17

/-- The 17-bit intermediate `v` of each operation; `c` is the carry in (R260 to R271). -/
def aluValue (op : AluOp) (r0 r1 : Word) (c : Bool) : BitVec 17 :=
  match op with
  | .add => wide r0 + wide r1
  | .adc => wide r0 + wide r1 + wideBit c
  | .sub => wide r0 + wide (~~~r1) + 1
  | .sbc => wide r0 + wide (~~~r1) + wideBit c
  | .cmp => wide r0 + wide (~~~r1) + 1
  | .neg => wide (0 - r1)
  | .xor => wide (r0 ^^^ r1)
  | .load => wide r1
  | .or => wide (r0 ||| r1)
  | .and => wide (r0 &&& r1)
  | .test => wide (r0 &&& r1)

/-- SR after the operation's flag update: the helper and the arguments of R260. -/
def aluFlags (op : AluOp) (r0 r1 : Word) (v : BitVec 17) (sr : Word) : Word :=
  match op with
  | .add | .adc => updateNZSC v r0 r1 sr
  | .sub | .sbc | .cmp => updateNZSC v r0 (~~~r1) sr
  | .neg | .xor | .load | .or | .and | .test => updateNZ (v.setWidth 16) sr

/-- CMP and TEST write no result (R265, R271). -/
def aluWrites : AluOp → Bool
  | .cmp | .test => false
  | .add | .adc | .sub | .sbc | .neg | .xor | .load | .or | .and => true

/-! ## The jump conditions -/

/-- Whether a condition holds of SR (R161 to R175). -/
def condHolds (c : Cond) (sr : Word) : Bool :=
  match c with
  | .jb => !srC sr
  | .jae => srC sr
  | .jge => !srS sr
  | .jl => srS sr
  | .jne => !srZ sr
  | .je => srZ sr
  | .jpl => !srN sr
  | .jmi => srN sr
  | .jbe => srZ sr || !srC sr
  | .ja => !srZ sr && srC sr
  | .jle => srZ sr || srS sr
  | .jg => !srZ sr && !srS sr
  | .jvc => srN sr == srS sr
  | .jvs => srN sr != srS sr
  | .jmp => true

end Sys2Proof.Machine
end

