-- ==== Sys2Proof/Machine/Ops.lean ====
section
/-! DEFINITION. The named operations over registers and memory (00_scope.md R9), the fault and the interrupt
controller (60_exceptions.md), the return from interrupt, and the platform's events. -/

namespace Sys2Proof.Machine

/-! ## Registers -/

/-- `x[r]` (R20). -/
def State.reg (s : State) (r : Reg) : Word :=
  match r with
  | .sp => s.sp
  | .r1 => s.r1
  | .r2 => s.r2
  | .r3 => s.r3
  | .r4 => s.r4
  | .bp => s.bp
  | .sr => s.sr
  | .pc => s.pc

/-- `x[r] <- v` (R9, R21: no register is hard-wired). -/
def State.setReg (s : State) (r : Reg) (v : Word) : State :=
  match r with
  | .sp => { s with sp := v }
  | .r1 => { s with r1 := v }
  | .r2 => { s with r2 := v }
  | .r3 => { s with r3 := v }
  | .r4 => { s with r4 := v }
  | .bp => { s with bp := v }
  | .sr => { s with sr := v }
  | .pc => { s with pc := v }

/-- The register below in the file; PUSH never goes below SP (R290). -/
def regBelow : Reg → Reg
  | .sp => .sp
  | .r1 => .sp
  | .r2 => .r1
  | .r3 => .r2
  | .r4 => .r3
  | .bp => .r4
  | .sr => .bp
  | .pc => .sr

/-- The register above in the file; POP never goes above PC (R291). -/
def regAbove : Reg → Reg
  | .sp => .r1
  | .r1 => .r2
  | .r2 => .r3
  | .r3 => .r4
  | .r4 => .bp
  | .bp => .sr
  | .sr => .pc
  | .pc => .pc

/-- `MR = {x[4], x[3]}` (R22). -/
def State.mr (s : State) : BitVec 32 := s.r4 ++ s.r3

/-- Writing MR writes both registers (R22). -/
def State.setMr (s : State) (v : BitVec 32) : State :=
  { s with r4 := v.extractLsb' 16 16, r3 := v.extractLsb' 0 16 }

/-! ## The program counter -/

/-- `LPC = {SR.CS, x[7]}` (R24). -/
def State.lpc (s : State) : ProgAddr := segOff (srCs s.sr) s.pc

/-- The program counter set to a 22-bit address: its low half to PC, its high bits to CS (R25). -/
def State.setLpc (s : State) (n : ProgAddr) : State :=
  { s with pc := n.extractLsb' 0 16, sr := withCs (n.extractLsb' 16 6) s.sr }

/-- `AdvPC(k)`: the program counter moves modulo 2^22 (R25). -/
def State.advPc (s : State) (k : Int) : State := s.setLpc (s.lpc + BitVec.ofInt 22 k)

/-! ## Memory accesses -/

/-- What the platform answers to the read of `a` that is `n` reads ahead, with memory as it now is: the word it has
settled on for that read, else what plain storage holds (R62, R70, D31). -/
def State.reply (s : State) (n : Nat) (a : Addr) : Word := (s.replies[n]?.join).getD (s.mem.word a)

/-- `MemRead(a, 1)`: the word the platform answers, and the state with the access recorded and that answer used up
(R61, R62, R65). -/
def State.memRead (s : State) (a : Addr) : Word × State :=
  (s.reply 0 a, { s with bus := s.bus ++ [.read a (s.reply 0 a)], replies := s.replies.drop 1 })

/-- `MemWrite(a, 1, v)`: recorded, and kept for the reads that plain storage answers (R61, R62, R65, R70). -/
def State.memWrite (s : State) (a : Addr) (v : Word) : State :=
  { s with mem := s.mem.setWord a v, bus := s.bus ++ [.write a v] }

/-- `Push(v, r)`: store at segment-0 address `x[r]`, then decrement (R31). -/
def State.push (s : State) (v : Word) (r : Reg) : State :=
  let stored := s.memWrite (segZero (s.reg r)) v
  stored.setReg r (stored.reg r - 1)

/-- `Pop(r)`: increment, then load from segment-0 address `x[r]` (R32). -/
def State.pop (s : State) (r : Reg) : Word × State :=
  let bumped := s.setReg r (s.reg r + 1)
  bumped.memRead (segZero (bumped.reg r))

/-- `x[d] <- Pop(r)`. -/
def State.popTo (s : State) (d r : Reg) : State :=
  let popped := s.pop r
  popped.2.setReg d popped.1

/-! ## The fault (R310) -/

/-- `raise UnimplementedOpcode(op, addr)`: the latch is set; all other state keeps its value. -/
def State.raiseUnimplemented (s : State) (op : Word) (addr : ProgAddr) : State :=
  { s with faulted := some { op := op, addr := addr } }

/-! ## The interrupt controller -/

/-- What both entries do: the outgoing SB to slot 0, the handler's SB in, PC then SR pushed through SP, PC from the
vector, SR zeroed (R327, R328). Slot 0 is the one of R327's selection too: its guard leaves `irq = 0`
(90_conflicts.md C10). -/
def State.enterInterrupt (s : State) (handlerSb : BitVec 4) (vector : Addr) : State :=
  let swapped := { s with savedSb0 := s.sb, sb := handlerSb }
  let pushed := (swapped.push swapped.pc .sp).push swapped.sr .sp
  let fetched := pushed.memRead vector
  { fetched.2 with pc := fetched.1, sr := 0 }

/-- `TriggerFIQ()` (R327). -/
def State.triggerFiq (s : State) : State :=
  if !s.enableFiq || s.fiq || s.irq then s
  else { s with fiq := true }.enterInterrupt s.savedSb2 fiqVector

/-- `TriggerIRQ(line)` (R328). -/
def State.triggerIrq (s : State) (line : BitVec 3) : State :=
  if !s.enableIrq || s.irq || s.fiq then s
  else { { s with irq := true }.enterInterrupt s.savedSb1 (irqVector line) with curirq := line }

/-- The IRQ lines from the highest priority to the lowest (R320). -/
def irqLines : List (BitVec 3) := [0, 1, 2, 3, 4, 5, 6, 7]

/-- The least line whose bit of the mask is set (R325). -/
def pendingLine (sirq : BitVec 9) : Option (BitVec 3) :=
  irqLines.find? fun line => sirq.getLsbD line.toNat

/-- `CheckIrqs()`: the FIQ before every IRQ, the least line first among the IRQs; the trigger of the one selected
source decides (R325, R326). -/
def State.checkIrqs (s : State) : State :=
  if s.sirq.getLsbD 8 then s.triggerFiq
  else
    match pendingLine s.sirq with
    | none => s
    | some line => s.triggerIrq line

/-- The return from interrupt: SR then PC popped through SP; the handler's SB parked in its own slot and slot 0
reloaded, `fiq` before `irq`; `curirq` cleared (R292, R330). -/
def State.returnInterrupt (s : State) : State :=
  let popped := (s.popTo .sr .sp).popTo .pc .sp
  let left :=
    if popped.fiq then { popped with fiq := false, savedSb2 := popped.sb, sb := popped.savedSb0 }
    else if popped.irq then { popped with irq := false, savedSb1 := popped.sb, sb := popped.savedSb0 }
    else popped
  { left with curirq := 0 }

/-! ## The platform's events -/

/-- `SetInput(line, state)`: lines 0 to 8 set or clear their pending bit; line 9 (BRK) and any other are ignored, and
so is every event of a faulted block (R322, R323). -/
def State.setInput (s : State) (line : Nat) (state : Bool) : State :=
  if s.faulted.isSome || 8 < line then s
  else { s with sirq := if state then s.sirq ||| (1#9 <<< line) else s.sirq &&& ~~~(1#9 <<< line) }

/-- `Reset()`, from any state: the vector is read; memory is not touched (R360). -/
def State.deviceReset (s : State) : State :=
  let vector := s.memRead resetVector
  .resetWith vector.2.mem vector.2.replies vector.1

end Sys2Proof.Machine
end

