-- ==== Sys2Proof/Machine/Operands.lean ====
section
/-! DEFINITION. The operand forms of the remaining group (43_remaining_operands.md R220 to R239), the ALU operation on
what a form delivers (44_remaining_alu_ops.md R260), and STORE's use of a form (R272). -/

namespace Sys2Proof.Machine

/-- Where the result goes: the register of the field `opa`, or memory (R220). -/
inductive Dest where
  | reg
  | mem (ea : Addr)
  deriving DecidableEq, Repr

/-- What a form delivers: the two operands, the destination, and the state after the form's side effects (R220). -/
structure Operands where
  r0 : Word
  r1 : Word
  dest : Dest
  st : State
  deriving DecidableEq, Repr

/-! ## Addresses -/

/-- `[BP+imm6]` (R221). -/
def bp6Addr (imm6 : BitVec 6) (s : State) : Addr := segZero (s.bp + imm6.setWidth 16)

/-- `[imm6]` (R237). -/
def a6Addr (imm6 : BitVec 6) : Addr := imm6.setWidth 23

/-- `[Rs]`, or `DS:[Rs]` (R223, R227). -/
def indAddr (ds : Bool) (rs : Reg) (s : State) : Addr :=
  if ds then busAddr (segOff (srDs s.sr) (s.reg rs)) else segZero (s.reg rs)

/-- The base register plus one; a `DS:` base that wraps to 0x0000 carries into DS (R225, R227). -/
def bumpUp (ds : Bool) (rs : Reg) (s : State) : State :=
  let bumped := s.setReg rs (s.reg rs + 1)
  if ds && bumped.reg rs == 0x0000#16 then bumped.setReg .sr (bumped.sr + 0x0400) else bumped

/-- The base register minus one; a `DS:` base that wraps to 0xFFFF borrows from DS (R224, R227). -/
def bumpDown (ds : Bool) (rs : Reg) (s : State) : State :=
  let bumped := s.setReg rs (s.reg rs - 1)
  if ds && bumped.reg rs == 0xFFFF#16 then bumped.setReg .sr (bumped.sr - 0x0400) else bumped

/-- The change of the base before the access: `[++Rs]` (R226). -/
def indBefore (ds : Bool) (mode : IndMode) (rs : Reg) (s : State) : State :=
  match mode with
  | .preInc => bumpUp ds rs s
  | .plain | .postDec | .postInc => s

/-- The change of the base after the access: `[Rs--]`, `[Rs++]` (R224, R225). -/
def indAfter (ds : Bool) (mode : IndMode) (rs : Reg) (s : State) : State :=
  match mode with
  | .postDec => bumpDown ds rs s
  | .postInc => bumpUp ds rs s
  | .plain | .preInc => s

/-! ## Shifted operands -/

/-- The count of a shifted form: 1 to 4 (R94). -/
def shiftCount (nn : BitVec 2) : Nat := nn.toNat + 1

/-- `Rs asr n`: the operand and the new SB (R232). -/
def asrOperand (n : Nat) (x : Word) (sb : BitVec 4) : Word × BitVec 4 :=
  let t := ((x ++ sb).signExtend 24).sshiftRight n
  (t.extractLsb' 4 16, t.extractLsb' 0 4)

/-- `Rs lsl n` (R233). -/
def lslOperand (n : Nat) (x : Word) (sb : BitVec 4) : Word × BitVec 4 :=
  let t := ((sb ++ x).setWidth 24) <<< n
  (t.extractLsb' 0 16, t.extractLsb' 16 4)

/-- `Rs lsr n` (R234). -/
def lsrOperand (n : Nat) (x : Word) (sb : BitVec 4) : Word × BitVec 4 :=
  let t := (x ++ sb) >>> n
  (t.extractLsb' 4 16, t.extractLsb' 0 4)

/-- `Rs rol n` (R235). -/
def rolOperand (n : Nat) (x : Word) (sb : BitVec 4) : Word × BitVec 4 :=
  let t := (sb ++ x ++ sb) <<< n
  (t.extractLsb' 4 16, t.extractLsb' 20 4)

/-- `Rs ror n` (R236). -/
def rorOperand (n : Nat) (x : Word) (sb : BitVec 4) : Word × BitVec 4 :=
  let t := (sb ++ x ++ sb) >>> n
  (t.extractLsb' 4 16, t.extractLsb' 0 4)

/-! ## The forms -/

/-- A form whose second operand is the word at `ea`. -/
def loadedOperands (r0 : Word) (ea : Addr) (s : State) : Operands :=
  let loaded := s.memRead ea
  { r0 := r0, r1 := loaded.1, dest := .reg, st := loaded.2 }

/-- A form whose second operand is a shifted register, with its new SB. -/
def shiftedOperands (r0 : Word) (shifted : Word × BitVec 4) (s : State) : Operands :=
  { r0 := r0, r1 := shifted.1, dest := .reg, st := { s with sb := shifted.2 } }

/-- The evaluation of a form for an operation that computes, in the order of R220: `x[opa]` is read first, then the
form with its side effects. The second word of a two-word form is its argument; passing it is the form's `AdvPC(1)`
(R229 to R231). -/
def evalForm (rd : Reg) (f : Form) (s : State) : Operands :=
  let r0 := s.reg rd
  match f with
  | .bp6 imm6 => loadedOperands r0 (bp6Addr imm6 s) s
  | .imm6 imm6 => { r0 := r0, r1 := imm6.setWidth 16, dest := .reg, st := s }
  | .ind ds mode rs =>
    let before := indBefore ds mode rs s
    let o := loadedOperands r0 (indAddr ds rs before) before
    { o with st := indAfter ds mode rs o.st }
  | .reg rs => { r0 := r0, r1 := s.reg rs, dest := .reg, st := s }
  | .imm16 rs imm => { r0 := s.reg rs, r1 := imm, dest := .reg, st := s.advPc 1 }
  | .a16 rs addr => loadedOperands (s.reg rs) (segZero addr) (s.advPc 1)
  | .toA16 rs addr => { r0 := s.reg rs, r1 := r0, dest := .mem (segZero addr), st := s.advPc 1 }
  | .asr nn rs => shiftedOperands r0 (asrOperand (shiftCount nn) (s.reg rs) s.sb) s
  | .lsl nn rs => shiftedOperands r0 (lslOperand (shiftCount nn) (s.reg rs) s.sb) s
  | .lsr nn rs => shiftedOperands r0 (lsrOperand (shiftCount nn) (s.reg rs) s.sb) s
  | .rol nn rs => shiftedOperands r0 (rolOperand (shiftCount nn) (s.reg rs) s.sb) s
  | .ror nn rs => shiftedOperands r0 (rorOperand (shiftCount nn) (s.reg rs) s.sb) s
  | .a6 imm6 => loadedOperands r0 (a6Addr imm6) s

/-! ## The operation -/

/-- `AluOp` of R260 for the operations that compute: the carry in is read, the flags are updated unless `opa` names
PC, and the result is written last. -/
def applyAlu (op : AluOp) (rd : Reg) (o : Operands) : State :=
  let v := aluValue op o.r0 o.r1 (srC o.st.sr)
  let flagged := if rd = .pc then o.st else { o.st with sr := aluFlags op o.r0 o.r1 v o.st.sr }
  if aluWrites op then
    match o.dest with
    | .reg => flagged.setReg rd (v.setWidth 16)
    | .mem ea => flagged.memWrite ea (v.setWidth 16)
  else flagged

/-- An ALU instruction (R220, R260). -/
def aluInstr (op : AluOp) (rd : Reg) (f : Form) (s : State) : Result :=
  .next (applyAlu op rd (evalForm rd f s))

/-- STORE (R272): the form gives the address and is not read; the value is `x[opa]` as it was before the form's side
effects, and `x[opb]` in the two-word forms (R230, R231). -/
def storeInstr (rd : Reg) (f : StoreForm) (s : State) : Result :=
  let r0 := s.reg rd
  match f with
  | .bp6 imm6 => .next (s.memWrite (bp6Addr imm6 s) r0)
  | .ind ds mode rs =>
    let before := indBefore ds mode rs s
    let ea := indAddr ds rs before
    .next ((indAfter ds mode rs before).memWrite ea r0)
  | .a16 rs addr => .next ((s.advPc 1).memWrite (segZero addr) (s.reg rs))
  | .toA16 rs addr => .next ((s.advPc 1).memWrite (segZero addr) (s.reg rs))
  | .a6 imm6 => .next (s.memWrite (a6Addr imm6) r0)

end Sys2Proof.Machine
end

