-- ==== Sys2Proof/Machine/AluArith.lean ====
section
/-! DEFINITION. The arithmetic operations ADD, ADC, SUB, SBC, CMP and NEG (44_remaining_alu_ops.md R261 to R266), each in its
thirteen operand forms (R221 to R237). -/

namespace Sys2Proof.Machine

/-- ADD (R261) in the form BP6 (R221). -/
def execAddBp6 (rd : Reg) (imm6 : BitVec 6) (s : State) : Result :=
  aluInstr .add rd (.bp6 imm6) s

/-- ADD (R261) in the form IMM6 (R222). -/
def execAddImm6 (rd : Reg) (imm6 : BitVec 6) (s : State) : Result :=
  aluInstr .add rd (.imm6 imm6) s

/-- ADD (R261) in the form IND (R223 to R227). -/
def execAddInd (rd : Reg) (ds : Bool) (mode : IndMode) (rs : Reg) (s : State) : Result :=
  aluInstr .add rd (.ind ds mode rs) s

/-- ADD (R261) in the form REG (R228). -/
def execAddReg (rd rs : Reg) (s : State) : Result :=
  aluInstr .add rd (.reg rs) s

/-- ADD (R261) in the form IMM16 (R229). -/
def execAddImm16 (rd rs : Reg) (imm : Word) (s : State) : Result :=
  aluInstr .add rd (.imm16 rs imm) s

/-- ADD (R261) in the form A16 (R230). -/
def execAddA16 (rd rs : Reg) (addr : Word) (s : State) : Result :=
  aluInstr .add rd (.a16 rs addr) s

/-- ADD (R261) in the form TOA16 (R231). -/
def execAddToA16 (rd rs : Reg) (addr : Word) (s : State) : Result :=
  aluInstr .add rd (.toA16 rs addr) s

/-- ADD (R261) in the form ASR (R232). -/
def execAddAsr (rd : Reg) (nn : BitVec 2) (rs : Reg) (s : State) : Result :=
  aluInstr .add rd (.asr nn rs) s

/-- ADD (R261) in the form LSL (R233). -/
def execAddLsl (rd : Reg) (nn : BitVec 2) (rs : Reg) (s : State) : Result :=
  aluInstr .add rd (.lsl nn rs) s

/-- ADD (R261) in the form LSR (R234). -/
def execAddLsr (rd : Reg) (nn : BitVec 2) (rs : Reg) (s : State) : Result :=
  aluInstr .add rd (.lsr nn rs) s

/-- ADD (R261) in the form ROL (R235). -/
def execAddRol (rd : Reg) (nn : BitVec 2) (rs : Reg) (s : State) : Result :=
  aluInstr .add rd (.rol nn rs) s

/-- ADD (R261) in the form ROR (R236). -/
def execAddRor (rd : Reg) (nn : BitVec 2) (rs : Reg) (s : State) : Result :=
  aluInstr .add rd (.ror nn rs) s

/-- ADD (R261) in the form A6 (R237). -/
def execAddA6 (rd : Reg) (imm6 : BitVec 6) (s : State) : Result :=
  aluInstr .add rd (.a6 imm6) s

/-- ADC (R262) in the form BP6 (R221). -/
def execAdcBp6 (rd : Reg) (imm6 : BitVec 6) (s : State) : Result :=
  aluInstr .adc rd (.bp6 imm6) s

/-- ADC (R262) in the form IMM6 (R222). -/
def execAdcImm6 (rd : Reg) (imm6 : BitVec 6) (s : State) : Result :=
  aluInstr .adc rd (.imm6 imm6) s

/-- ADC (R262) in the form IND (R223 to R227). -/
def execAdcInd (rd : Reg) (ds : Bool) (mode : IndMode) (rs : Reg) (s : State) : Result :=
  aluInstr .adc rd (.ind ds mode rs) s

/-- ADC (R262) in the form REG (R228). -/
def execAdcReg (rd rs : Reg) (s : State) : Result :=
  aluInstr .adc rd (.reg rs) s

/-- ADC (R262) in the form IMM16 (R229). -/
def execAdcImm16 (rd rs : Reg) (imm : Word) (s : State) : Result :=
  aluInstr .adc rd (.imm16 rs imm) s

/-- ADC (R262) in the form A16 (R230). -/
def execAdcA16 (rd rs : Reg) (addr : Word) (s : State) : Result :=
  aluInstr .adc rd (.a16 rs addr) s

/-- ADC (R262) in the form TOA16 (R231). -/
def execAdcToA16 (rd rs : Reg) (addr : Word) (s : State) : Result :=
  aluInstr .adc rd (.toA16 rs addr) s

/-- ADC (R262) in the form ASR (R232). -/
def execAdcAsr (rd : Reg) (nn : BitVec 2) (rs : Reg) (s : State) : Result :=
  aluInstr .adc rd (.asr nn rs) s

/-- ADC (R262) in the form LSL (R233). -/
def execAdcLsl (rd : Reg) (nn : BitVec 2) (rs : Reg) (s : State) : Result :=
  aluInstr .adc rd (.lsl nn rs) s

/-- ADC (R262) in the form LSR (R234). -/
def execAdcLsr (rd : Reg) (nn : BitVec 2) (rs : Reg) (s : State) : Result :=
  aluInstr .adc rd (.lsr nn rs) s

/-- ADC (R262) in the form ROL (R235). -/
def execAdcRol (rd : Reg) (nn : BitVec 2) (rs : Reg) (s : State) : Result :=
  aluInstr .adc rd (.rol nn rs) s

/-- ADC (R262) in the form ROR (R236). -/
def execAdcRor (rd : Reg) (nn : BitVec 2) (rs : Reg) (s : State) : Result :=
  aluInstr .adc rd (.ror nn rs) s

/-- ADC (R262) in the form A6 (R237). -/
def execAdcA6 (rd : Reg) (imm6 : BitVec 6) (s : State) : Result :=
  aluInstr .adc rd (.a6 imm6) s

/-- SUB (R263) in the form BP6 (R221). -/
def execSubBp6 (rd : Reg) (imm6 : BitVec 6) (s : State) : Result :=
  aluInstr .sub rd (.bp6 imm6) s

/-- SUB (R263) in the form IMM6 (R222). -/
def execSubImm6 (rd : Reg) (imm6 : BitVec 6) (s : State) : Result :=
  aluInstr .sub rd (.imm6 imm6) s

/-- SUB (R263) in the form IND (R223 to R227). -/
def execSubInd (rd : Reg) (ds : Bool) (mode : IndMode) (rs : Reg) (s : State) : Result :=
  aluInstr .sub rd (.ind ds mode rs) s

/-- SUB (R263) in the form REG (R228). -/
def execSubReg (rd rs : Reg) (s : State) : Result :=
  aluInstr .sub rd (.reg rs) s

/-- SUB (R263) in the form IMM16 (R229). -/
def execSubImm16 (rd rs : Reg) (imm : Word) (s : State) : Result :=
  aluInstr .sub rd (.imm16 rs imm) s

/-- SUB (R263) in the form A16 (R230). -/
def execSubA16 (rd rs : Reg) (addr : Word) (s : State) : Result :=
  aluInstr .sub rd (.a16 rs addr) s

/-- SUB (R263) in the form TOA16 (R231). -/
def execSubToA16 (rd rs : Reg) (addr : Word) (s : State) : Result :=
  aluInstr .sub rd (.toA16 rs addr) s

/-- SUB (R263) in the form ASR (R232). -/
def execSubAsr (rd : Reg) (nn : BitVec 2) (rs : Reg) (s : State) : Result :=
  aluInstr .sub rd (.asr nn rs) s

/-- SUB (R263) in the form LSL (R233). -/
def execSubLsl (rd : Reg) (nn : BitVec 2) (rs : Reg) (s : State) : Result :=
  aluInstr .sub rd (.lsl nn rs) s

/-- SUB (R263) in the form LSR (R234). -/
def execSubLsr (rd : Reg) (nn : BitVec 2) (rs : Reg) (s : State) : Result :=
  aluInstr .sub rd (.lsr nn rs) s

/-- SUB (R263) in the form ROL (R235). -/
def execSubRol (rd : Reg) (nn : BitVec 2) (rs : Reg) (s : State) : Result :=
  aluInstr .sub rd (.rol nn rs) s

/-- SUB (R263) in the form ROR (R236). -/
def execSubRor (rd : Reg) (nn : BitVec 2) (rs : Reg) (s : State) : Result :=
  aluInstr .sub rd (.ror nn rs) s

/-- SUB (R263) in the form A6 (R237). -/
def execSubA6 (rd : Reg) (imm6 : BitVec 6) (s : State) : Result :=
  aluInstr .sub rd (.a6 imm6) s

/-- SBC (R264) in the form BP6 (R221). -/
def execSbcBp6 (rd : Reg) (imm6 : BitVec 6) (s : State) : Result :=
  aluInstr .sbc rd (.bp6 imm6) s

/-- SBC (R264) in the form IMM6 (R222). -/
def execSbcImm6 (rd : Reg) (imm6 : BitVec 6) (s : State) : Result :=
  aluInstr .sbc rd (.imm6 imm6) s

/-- SBC (R264) in the form IND (R223 to R227). -/
def execSbcInd (rd : Reg) (ds : Bool) (mode : IndMode) (rs : Reg) (s : State) : Result :=
  aluInstr .sbc rd (.ind ds mode rs) s

/-- SBC (R264) in the form REG (R228). -/
def execSbcReg (rd rs : Reg) (s : State) : Result :=
  aluInstr .sbc rd (.reg rs) s

/-- SBC (R264) in the form IMM16 (R229). -/
def execSbcImm16 (rd rs : Reg) (imm : Word) (s : State) : Result :=
  aluInstr .sbc rd (.imm16 rs imm) s

/-- SBC (R264) in the form A16 (R230). -/
def execSbcA16 (rd rs : Reg) (addr : Word) (s : State) : Result :=
  aluInstr .sbc rd (.a16 rs addr) s

/-- SBC (R264) in the form TOA16 (R231). -/
def execSbcToA16 (rd rs : Reg) (addr : Word) (s : State) : Result :=
  aluInstr .sbc rd (.toA16 rs addr) s

/-- SBC (R264) in the form ASR (R232). -/
def execSbcAsr (rd : Reg) (nn : BitVec 2) (rs : Reg) (s : State) : Result :=
  aluInstr .sbc rd (.asr nn rs) s

/-- SBC (R264) in the form LSL (R233). -/
def execSbcLsl (rd : Reg) (nn : BitVec 2) (rs : Reg) (s : State) : Result :=
  aluInstr .sbc rd (.lsl nn rs) s

/-- SBC (R264) in the form LSR (R234). -/
def execSbcLsr (rd : Reg) (nn : BitVec 2) (rs : Reg) (s : State) : Result :=
  aluInstr .sbc rd (.lsr nn rs) s

/-- SBC (R264) in the form ROL (R235). -/
def execSbcRol (rd : Reg) (nn : BitVec 2) (rs : Reg) (s : State) : Result :=
  aluInstr .sbc rd (.rol nn rs) s

/-- SBC (R264) in the form ROR (R236). -/
def execSbcRor (rd : Reg) (nn : BitVec 2) (rs : Reg) (s : State) : Result :=
  aluInstr .sbc rd (.ror nn rs) s

/-- SBC (R264) in the form A6 (R237). -/
def execSbcA6 (rd : Reg) (imm6 : BitVec 6) (s : State) : Result :=
  aluInstr .sbc rd (.a6 imm6) s

/-- CMP (R265) in the form BP6 (R221). -/
def execCmpBp6 (rd : Reg) (imm6 : BitVec 6) (s : State) : Result :=
  aluInstr .cmp rd (.bp6 imm6) s

/-- CMP (R265) in the form IMM6 (R222). -/
def execCmpImm6 (rd : Reg) (imm6 : BitVec 6) (s : State) : Result :=
  aluInstr .cmp rd (.imm6 imm6) s

/-- CMP (R265) in the form IND (R223 to R227). -/
def execCmpInd (rd : Reg) (ds : Bool) (mode : IndMode) (rs : Reg) (s : State) : Result :=
  aluInstr .cmp rd (.ind ds mode rs) s

/-- CMP (R265) in the form REG (R228). -/
def execCmpReg (rd rs : Reg) (s : State) : Result :=
  aluInstr .cmp rd (.reg rs) s

/-- CMP (R265) in the form IMM16 (R229). -/
def execCmpImm16 (rd rs : Reg) (imm : Word) (s : State) : Result :=
  aluInstr .cmp rd (.imm16 rs imm) s

/-- CMP (R265) in the form A16 (R230). -/
def execCmpA16 (rd rs : Reg) (addr : Word) (s : State) : Result :=
  aluInstr .cmp rd (.a16 rs addr) s

/-- CMP (R265) in the form TOA16 (R231). -/
def execCmpToA16 (rd rs : Reg) (addr : Word) (s : State) : Result :=
  aluInstr .cmp rd (.toA16 rs addr) s

/-- CMP (R265) in the form ASR (R232). -/
def execCmpAsr (rd : Reg) (nn : BitVec 2) (rs : Reg) (s : State) : Result :=
  aluInstr .cmp rd (.asr nn rs) s

/-- CMP (R265) in the form LSL (R233). -/
def execCmpLsl (rd : Reg) (nn : BitVec 2) (rs : Reg) (s : State) : Result :=
  aluInstr .cmp rd (.lsl nn rs) s

/-- CMP (R265) in the form LSR (R234). -/
def execCmpLsr (rd : Reg) (nn : BitVec 2) (rs : Reg) (s : State) : Result :=
  aluInstr .cmp rd (.lsr nn rs) s

/-- CMP (R265) in the form ROL (R235). -/
def execCmpRol (rd : Reg) (nn : BitVec 2) (rs : Reg) (s : State) : Result :=
  aluInstr .cmp rd (.rol nn rs) s

/-- CMP (R265) in the form ROR (R236). -/
def execCmpRor (rd : Reg) (nn : BitVec 2) (rs : Reg) (s : State) : Result :=
  aluInstr .cmp rd (.ror nn rs) s

/-- CMP (R265) in the form A6 (R237). -/
def execCmpA6 (rd : Reg) (imm6 : BitVec 6) (s : State) : Result :=
  aluInstr .cmp rd (.a6 imm6) s

/-- NEG (R266) in the form BP6 (R221). -/
def execNegBp6 (rd : Reg) (imm6 : BitVec 6) (s : State) : Result :=
  aluInstr .neg rd (.bp6 imm6) s

/-- NEG (R266) in the form IMM6 (R222). -/
def execNegImm6 (rd : Reg) (imm6 : BitVec 6) (s : State) : Result :=
  aluInstr .neg rd (.imm6 imm6) s

/-- NEG (R266) in the form IND (R223 to R227). -/
def execNegInd (rd : Reg) (ds : Bool) (mode : IndMode) (rs : Reg) (s : State) : Result :=
  aluInstr .neg rd (.ind ds mode rs) s

/-- NEG (R266) in the form REG (R228). -/
def execNegReg (rd rs : Reg) (s : State) : Result :=
  aluInstr .neg rd (.reg rs) s

/-- NEG (R266) in the form IMM16 (R229). -/
def execNegImm16 (rd rs : Reg) (imm : Word) (s : State) : Result :=
  aluInstr .neg rd (.imm16 rs imm) s

/-- NEG (R266) in the form A16 (R230). -/
def execNegA16 (rd rs : Reg) (addr : Word) (s : State) : Result :=
  aluInstr .neg rd (.a16 rs addr) s

/-- NEG (R266) in the form TOA16 (R231). -/
def execNegToA16 (rd rs : Reg) (addr : Word) (s : State) : Result :=
  aluInstr .neg rd (.toA16 rs addr) s

/-- NEG (R266) in the form ASR (R232). -/
def execNegAsr (rd : Reg) (nn : BitVec 2) (rs : Reg) (s : State) : Result :=
  aluInstr .neg rd (.asr nn rs) s

/-- NEG (R266) in the form LSL (R233). -/
def execNegLsl (rd : Reg) (nn : BitVec 2) (rs : Reg) (s : State) : Result :=
  aluInstr .neg rd (.lsl nn rs) s

/-- NEG (R266) in the form LSR (R234). -/
def execNegLsr (rd : Reg) (nn : BitVec 2) (rs : Reg) (s : State) : Result :=
  aluInstr .neg rd (.lsr nn rs) s

/-- NEG (R266) in the form ROL (R235). -/
def execNegRol (rd : Reg) (nn : BitVec 2) (rs : Reg) (s : State) : Result :=
  aluInstr .neg rd (.rol nn rs) s

/-- NEG (R266) in the form ROR (R236). -/
def execNegRor (rd : Reg) (nn : BitVec 2) (rs : Reg) (s : State) : Result :=
  aluInstr .neg rd (.ror nn rs) s

/-- NEG (R266) in the form A6 (R237). -/
def execNegA6 (rd : Reg) (imm6 : BitVec 6) (s : State) : Result :=
  aluInstr .neg rd (.a6 imm6) s

end Sys2Proof.Machine
end

