-- ==== Sys2Proof/Machine/AluLogic.lean ====
section
/-! DEFINITION. The operations XOR, OR, AND and TEST (44_remaining_alu_ops.md R267, R269 to R271), each in its thirteen operand
forms (R221 to R237). -/

namespace Sys2Proof.Machine

/-- XOR (R267) in the form BP6 (R221). -/
def execXorBp6 (rd : Reg) (imm6 : BitVec 6) (s : State) : Result :=
  aluInstr .xor rd (.bp6 imm6) s

/-- XOR (R267) in the form IMM6 (R222). -/
def execXorImm6 (rd : Reg) (imm6 : BitVec 6) (s : State) : Result :=
  aluInstr .xor rd (.imm6 imm6) s

/-- XOR (R267) in the form IND (R223 to R227). -/
def execXorInd (rd : Reg) (ds : Bool) (mode : IndMode) (rs : Reg) (s : State) : Result :=
  aluInstr .xor rd (.ind ds mode rs) s

/-- XOR (R267) in the form REG (R228). -/
def execXorReg (rd rs : Reg) (s : State) : Result :=
  aluInstr .xor rd (.reg rs) s

/-- XOR (R267) in the form IMM16 (R229). -/
def execXorImm16 (rd rs : Reg) (imm : Word) (s : State) : Result :=
  aluInstr .xor rd (.imm16 rs imm) s

/-- XOR (R267) in the form A16 (R230). -/
def execXorA16 (rd rs : Reg) (addr : Word) (s : State) : Result :=
  aluInstr .xor rd (.a16 rs addr) s

/-- XOR (R267) in the form TOA16 (R231). -/
def execXorToA16 (rd rs : Reg) (addr : Word) (s : State) : Result :=
  aluInstr .xor rd (.toA16 rs addr) s

/-- XOR (R267) in the form ASR (R232). -/
def execXorAsr (rd : Reg) (nn : BitVec 2) (rs : Reg) (s : State) : Result :=
  aluInstr .xor rd (.asr nn rs) s

/-- XOR (R267) in the form LSL (R233). -/
def execXorLsl (rd : Reg) (nn : BitVec 2) (rs : Reg) (s : State) : Result :=
  aluInstr .xor rd (.lsl nn rs) s

/-- XOR (R267) in the form LSR (R234). -/
def execXorLsr (rd : Reg) (nn : BitVec 2) (rs : Reg) (s : State) : Result :=
  aluInstr .xor rd (.lsr nn rs) s

/-- XOR (R267) in the form ROL (R235). -/
def execXorRol (rd : Reg) (nn : BitVec 2) (rs : Reg) (s : State) : Result :=
  aluInstr .xor rd (.rol nn rs) s

/-- XOR (R267) in the form ROR (R236). -/
def execXorRor (rd : Reg) (nn : BitVec 2) (rs : Reg) (s : State) : Result :=
  aluInstr .xor rd (.ror nn rs) s

/-- XOR (R267) in the form A6 (R237). -/
def execXorA6 (rd : Reg) (imm6 : BitVec 6) (s : State) : Result :=
  aluInstr .xor rd (.a6 imm6) s

/-- OR (R269) in the form BP6 (R221). -/
def execOrBp6 (rd : Reg) (imm6 : BitVec 6) (s : State) : Result :=
  aluInstr .or rd (.bp6 imm6) s

/-- OR (R269) in the form IMM6 (R222). -/
def execOrImm6 (rd : Reg) (imm6 : BitVec 6) (s : State) : Result :=
  aluInstr .or rd (.imm6 imm6) s

/-- OR (R269) in the form IND (R223 to R227). -/
def execOrInd (rd : Reg) (ds : Bool) (mode : IndMode) (rs : Reg) (s : State) : Result :=
  aluInstr .or rd (.ind ds mode rs) s

/-- OR (R269) in the form REG (R228). -/
def execOrReg (rd rs : Reg) (s : State) : Result :=
  aluInstr .or rd (.reg rs) s

/-- OR (R269) in the form IMM16 (R229). -/
def execOrImm16 (rd rs : Reg) (imm : Word) (s : State) : Result :=
  aluInstr .or rd (.imm16 rs imm) s

/-- OR (R269) in the form A16 (R230). -/
def execOrA16 (rd rs : Reg) (addr : Word) (s : State) : Result :=
  aluInstr .or rd (.a16 rs addr) s

/-- OR (R269) in the form TOA16 (R231). -/
def execOrToA16 (rd rs : Reg) (addr : Word) (s : State) : Result :=
  aluInstr .or rd (.toA16 rs addr) s

/-- OR (R269) in the form ASR (R232). -/
def execOrAsr (rd : Reg) (nn : BitVec 2) (rs : Reg) (s : State) : Result :=
  aluInstr .or rd (.asr nn rs) s

/-- OR (R269) in the form LSL (R233). -/
def execOrLsl (rd : Reg) (nn : BitVec 2) (rs : Reg) (s : State) : Result :=
  aluInstr .or rd (.lsl nn rs) s

/-- OR (R269) in the form LSR (R234). -/
def execOrLsr (rd : Reg) (nn : BitVec 2) (rs : Reg) (s : State) : Result :=
  aluInstr .or rd (.lsr nn rs) s

/-- OR (R269) in the form ROL (R235). -/
def execOrRol (rd : Reg) (nn : BitVec 2) (rs : Reg) (s : State) : Result :=
  aluInstr .or rd (.rol nn rs) s

/-- OR (R269) in the form ROR (R236). -/
def execOrRor (rd : Reg) (nn : BitVec 2) (rs : Reg) (s : State) : Result :=
  aluInstr .or rd (.ror nn rs) s

/-- OR (R269) in the form A6 (R237). -/
def execOrA6 (rd : Reg) (imm6 : BitVec 6) (s : State) : Result :=
  aluInstr .or rd (.a6 imm6) s

/-- AND (R270) in the form BP6 (R221). -/
def execAndBp6 (rd : Reg) (imm6 : BitVec 6) (s : State) : Result :=
  aluInstr .and rd (.bp6 imm6) s

/-- AND (R270) in the form IMM6 (R222). -/
def execAndImm6 (rd : Reg) (imm6 : BitVec 6) (s : State) : Result :=
  aluInstr .and rd (.imm6 imm6) s

/-- AND (R270) in the form IND (R223 to R227). -/
def execAndInd (rd : Reg) (ds : Bool) (mode : IndMode) (rs : Reg) (s : State) : Result :=
  aluInstr .and rd (.ind ds mode rs) s

/-- AND (R270) in the form REG (R228). -/
def execAndReg (rd rs : Reg) (s : State) : Result :=
  aluInstr .and rd (.reg rs) s

/-- AND (R270) in the form IMM16 (R229). -/
def execAndImm16 (rd rs : Reg) (imm : Word) (s : State) : Result :=
  aluInstr .and rd (.imm16 rs imm) s

/-- AND (R270) in the form A16 (R230). -/
def execAndA16 (rd rs : Reg) (addr : Word) (s : State) : Result :=
  aluInstr .and rd (.a16 rs addr) s

/-- AND (R270) in the form TOA16 (R231). -/
def execAndToA16 (rd rs : Reg) (addr : Word) (s : State) : Result :=
  aluInstr .and rd (.toA16 rs addr) s

/-- AND (R270) in the form ASR (R232). -/
def execAndAsr (rd : Reg) (nn : BitVec 2) (rs : Reg) (s : State) : Result :=
  aluInstr .and rd (.asr nn rs) s

/-- AND (R270) in the form LSL (R233). -/
def execAndLsl (rd : Reg) (nn : BitVec 2) (rs : Reg) (s : State) : Result :=
  aluInstr .and rd (.lsl nn rs) s

/-- AND (R270) in the form LSR (R234). -/
def execAndLsr (rd : Reg) (nn : BitVec 2) (rs : Reg) (s : State) : Result :=
  aluInstr .and rd (.lsr nn rs) s

/-- AND (R270) in the form ROL (R235). -/
def execAndRol (rd : Reg) (nn : BitVec 2) (rs : Reg) (s : State) : Result :=
  aluInstr .and rd (.rol nn rs) s

/-- AND (R270) in the form ROR (R236). -/
def execAndRor (rd : Reg) (nn : BitVec 2) (rs : Reg) (s : State) : Result :=
  aluInstr .and rd (.ror nn rs) s

/-- AND (R270) in the form A6 (R237). -/
def execAndA6 (rd : Reg) (imm6 : BitVec 6) (s : State) : Result :=
  aluInstr .and rd (.a6 imm6) s

/-- TEST (R271) in the form BP6 (R221). -/
def execTestBp6 (rd : Reg) (imm6 : BitVec 6) (s : State) : Result :=
  aluInstr .test rd (.bp6 imm6) s

/-- TEST (R271) in the form IMM6 (R222). -/
def execTestImm6 (rd : Reg) (imm6 : BitVec 6) (s : State) : Result :=
  aluInstr .test rd (.imm6 imm6) s

/-- TEST (R271) in the form IND (R223 to R227). -/
def execTestInd (rd : Reg) (ds : Bool) (mode : IndMode) (rs : Reg) (s : State) : Result :=
  aluInstr .test rd (.ind ds mode rs) s

/-- TEST (R271) in the form REG (R228). -/
def execTestReg (rd rs : Reg) (s : State) : Result :=
  aluInstr .test rd (.reg rs) s

/-- TEST (R271) in the form IMM16 (R229). -/
def execTestImm16 (rd rs : Reg) (imm : Word) (s : State) : Result :=
  aluInstr .test rd (.imm16 rs imm) s

/-- TEST (R271) in the form A16 (R230). -/
def execTestA16 (rd rs : Reg) (addr : Word) (s : State) : Result :=
  aluInstr .test rd (.a16 rs addr) s

/-- TEST (R271) in the form TOA16 (R231). -/
def execTestToA16 (rd rs : Reg) (addr : Word) (s : State) : Result :=
  aluInstr .test rd (.toA16 rs addr) s

/-- TEST (R271) in the form ASR (R232). -/
def execTestAsr (rd : Reg) (nn : BitVec 2) (rs : Reg) (s : State) : Result :=
  aluInstr .test rd (.asr nn rs) s

/-- TEST (R271) in the form LSL (R233). -/
def execTestLsl (rd : Reg) (nn : BitVec 2) (rs : Reg) (s : State) : Result :=
  aluInstr .test rd (.lsl nn rs) s

/-- TEST (R271) in the form LSR (R234). -/
def execTestLsr (rd : Reg) (nn : BitVec 2) (rs : Reg) (s : State) : Result :=
  aluInstr .test rd (.lsr nn rs) s

/-- TEST (R271) in the form ROL (R235). -/
def execTestRol (rd : Reg) (nn : BitVec 2) (rs : Reg) (s : State) : Result :=
  aluInstr .test rd (.rol nn rs) s

/-- TEST (R271) in the form ROR (R236). -/
def execTestRor (rd : Reg) (nn : BitVec 2) (rs : Reg) (s : State) : Result :=
  aluInstr .test rd (.ror nn rs) s

/-- TEST (R271) in the form A6 (R237). -/
def execTestA6 (rd : Reg) (imm6 : BitVec 6) (s : State) : Result :=
  aluInstr .test rd (.a6 imm6) s

end Sys2Proof.Machine
end

