-- ==== Sys2Proof/Machine/AluMove.lean ====
section
/-! DEFINITION. LOAD (44_remaining_alu_ops.md R268) in its thirteen operand forms and STORE (R272) in its five. -/

namespace Sys2Proof.Machine

/-- LOAD (R268) in the form BP6 (R221). -/
def execLoadBp6 (rd : Reg) (imm6 : BitVec 6) (s : State) : Result :=
  aluInstr .load rd (.bp6 imm6) s

/-- LOAD (R268) in the form IMM6 (R222). -/
def execLoadImm6 (rd : Reg) (imm6 : BitVec 6) (s : State) : Result :=
  aluInstr .load rd (.imm6 imm6) s

/-- LOAD (R268) in the form IND (R223 to R227). -/
def execLoadInd (rd : Reg) (ds : Bool) (mode : IndMode) (rs : Reg) (s : State) : Result :=
  aluInstr .load rd (.ind ds mode rs) s

/-- LOAD (R268) in the form REG (R228). -/
def execLoadReg (rd rs : Reg) (s : State) : Result :=
  aluInstr .load rd (.reg rs) s

/-- LOAD (R268) in the form IMM16 (R229). -/
def execLoadImm16 (rd rs : Reg) (imm : Word) (s : State) : Result :=
  aluInstr .load rd (.imm16 rs imm) s

/-- LOAD (R268) in the form A16 (R230). -/
def execLoadA16 (rd rs : Reg) (addr : Word) (s : State) : Result :=
  aluInstr .load rd (.a16 rs addr) s

/-- LOAD (R268) in the form TOA16 (R231). -/
def execLoadToA16 (rd rs : Reg) (addr : Word) (s : State) : Result :=
  aluInstr .load rd (.toA16 rs addr) s

/-- LOAD (R268) in the form ASR (R232). -/
def execLoadAsr (rd : Reg) (nn : BitVec 2) (rs : Reg) (s : State) : Result :=
  aluInstr .load rd (.asr nn rs) s

/-- LOAD (R268) in the form LSL (R233). -/
def execLoadLsl (rd : Reg) (nn : BitVec 2) (rs : Reg) (s : State) : Result :=
  aluInstr .load rd (.lsl nn rs) s

/-- LOAD (R268) in the form LSR (R234). -/
def execLoadLsr (rd : Reg) (nn : BitVec 2) (rs : Reg) (s : State) : Result :=
  aluInstr .load rd (.lsr nn rs) s

/-- LOAD (R268) in the form ROL (R235). -/
def execLoadRol (rd : Reg) (nn : BitVec 2) (rs : Reg) (s : State) : Result :=
  aluInstr .load rd (.rol nn rs) s

/-- LOAD (R268) in the form ROR (R236). -/
def execLoadRor (rd : Reg) (nn : BitVec 2) (rs : Reg) (s : State) : Result :=
  aluInstr .load rd (.ror nn rs) s

/-- LOAD (R268) in the form A6 (R237). -/
def execLoadA6 (rd : Reg) (imm6 : BitVec 6) (s : State) : Result :=
  aluInstr .load rd (.a6 imm6) s

/-- STORE (R272) to the form BP6 (R221). -/
def execStoreBp6 (rd : Reg) (imm6 : BitVec 6) (s : State) : Result :=
  storeInstr rd (.bp6 imm6) s

/-- STORE (R272) to the form IND (R223 to R227). -/
def execStoreInd (rd : Reg) (ds : Bool) (mode : IndMode) (rs : Reg) (s : State) : Result :=
  storeInstr rd (.ind ds mode rs) s

/-- STORE (R272) to the form A16 (R230). -/
def execStoreA16 (rd rs : Reg) (addr : Word) (s : State) : Result :=
  storeInstr rd (.a16 rs addr) s

/-- STORE (R272) to the form TOA16 (R231). -/
def execStoreToA16 (rd rs : Reg) (addr : Word) (s : State) : Result :=
  storeInstr rd (.toA16 rs addr) s

/-- STORE (R272) to the form A6 (R237). -/
def execStoreA6 (rd : Reg) (imm6 : BitVec 6) (s : State) : Result :=
  storeInstr rd (.a6 imm6) s

end Sys2Proof.Machine
end

