-- ==== Sys2Proof/Machine/BitOps.lean ====
section
/-! DEFINITION. The bit operations of the Exxx group (42_exxx_group.md R191 to R195). -/

namespace Sys2Proof.Machine

/-- `1 << off`. -/
def bitMask (off : BitVec 4) : Word := 1#16 <<< off.toNat

/-- The word with the bit tested, set, cleared or inverted; TSTB leaves it (R192 to R195). -/
def bitResult (fn : BitFn) (off : BitVec 4) (v : Word) : Word :=
  match fn with
  | .tstb => v
  | .setb => v ||| bitMask off
  | .clrb => v &&& ~~~(bitMask off)
  | .invb => v ^^^ bitMask off

/-- `SR.Z` becomes the complement of the bit of `v` as it was (R191). -/
def bitFlag (off : BitVec 4) (v : Word) (s : State) : State :=
  { s with sr := withZ (!v.getLsbD off.toNat) s.sr }

/-- The bit number in a register: its low four bits (R191). -/
def bitNumber (rs : Reg) (s : State) : BitVec 4 := (s.reg rs).extractLsb' 0 4

/-- A bit operation on a register: Z first, then the bit of the register as it now stands (R193). -/
def bitOnReg (fn : BitFn) (rd : Reg) (off : BitVec 4) (s : State) : Result :=
  let flagged := bitFlag off (s.reg rd) s
  match fn with
  | .tstb => .next flagged
  | .setb | .clrb | .invb => .next (flagged.setReg rd (bitResult fn off (flagged.reg rd)))

/-- A bit operation on the memory word at `a`: one read, and one write but for TSTB (R191 to R195). -/
def bitOnMem (fn : BitFn) (a : Addr) (off : BitVec 4) (s : State) : Result :=
  let loaded := s.memRead a
  let flagged := bitFlag off loaded.1 loaded.2
  match fn with
  | .tstb => .next flagged
  | .setb | .clrb | .invb => .next (flagged.memWrite a (bitResult fn off loaded.1))

/-- The target `[Rd]`, in segment 0 (R191). -/
def bitAddr (rd : Reg) (s : State) : Addr := segZero (s.reg rd)

/-- The target `DS:[Rd]` (R191). -/
def bitDsAddr (rd : Reg) (s : State) : Addr := busAddr (segOff (srDs s.sr) (s.reg rd))

/-- TSTB `Rd`, bit `Rs` (R192). -/
def execTstbRRs (rd rs : Reg) (s : State) : Result := bitOnReg .tstb rd (bitNumber rs s) s

/-- TSTB `Rd`, bit from the opcode (R192). -/
def execTstbRImm (rd : Reg) (off : BitVec 4) (s : State) : Result := bitOnReg .tstb rd off s

/-- TSTB `[Rd]`, bit `Rs` (R192). -/
def execTstbMRs (rd rs : Reg) (s : State) : Result := bitOnMem .tstb (bitAddr rd s) (bitNumber rs s) s

/-- TSTB `DS:[Rd]`, bit `Rs` (R192). -/
def execTstbDmRs (rd rs : Reg) (s : State) : Result := bitOnMem .tstb (bitDsAddr rd s) (bitNumber rs s) s

/-- TSTB `[Rd]`, bit from the opcode (R192). -/
def execTstbMImm (rd : Reg) (off : BitVec 4) (s : State) : Result := bitOnMem .tstb (bitAddr rd s) off s

/-- TSTB `DS:[Rd]`, bit from the opcode (R192). -/
def execTstbDmImm (rd : Reg) (off : BitVec 4) (s : State) : Result := bitOnMem .tstb (bitDsAddr rd s) off s

/-- SETB `Rd`, bit `Rs` (R193). -/
def execSetbRRs (rd rs : Reg) (s : State) : Result := bitOnReg .setb rd (bitNumber rs s) s

/-- SETB `Rd`, bit from the opcode (R193). -/
def execSetbRImm (rd : Reg) (off : BitVec 4) (s : State) : Result := bitOnReg .setb rd off s

/-- SETB `[Rd]`, bit `Rs` (R193). -/
def execSetbMRs (rd rs : Reg) (s : State) : Result := bitOnMem .setb (bitAddr rd s) (bitNumber rs s) s

/-- SETB `DS:[Rd]`, bit `Rs` (R193). -/
def execSetbDmRs (rd rs : Reg) (s : State) : Result := bitOnMem .setb (bitDsAddr rd s) (bitNumber rs s) s

/-- SETB `[Rd]`, bit from the opcode (R193). -/
def execSetbMImm (rd : Reg) (off : BitVec 4) (s : State) : Result := bitOnMem .setb (bitAddr rd s) off s

/-- SETB `DS:[Rd]`, bit from the opcode (R193). -/
def execSetbDmImm (rd : Reg) (off : BitVec 4) (s : State) : Result := bitOnMem .setb (bitDsAddr rd s) off s

/-- CLRB `Rd`, bit `Rs` (R194). -/
def execClrbRRs (rd rs : Reg) (s : State) : Result := bitOnReg .clrb rd (bitNumber rs s) s

/-- CLRB `Rd`, bit from the opcode (R194). -/
def execClrbRImm (rd : Reg) (off : BitVec 4) (s : State) : Result := bitOnReg .clrb rd off s

/-- CLRB `[Rd]`, bit `Rs` (R194). -/
def execClrbMRs (rd rs : Reg) (s : State) : Result := bitOnMem .clrb (bitAddr rd s) (bitNumber rs s) s

/-- CLRB `DS:[Rd]`, bit `Rs` (R194). -/
def execClrbDmRs (rd rs : Reg) (s : State) : Result := bitOnMem .clrb (bitDsAddr rd s) (bitNumber rs s) s

/-- CLRB `[Rd]`, bit from the opcode (R194). -/
def execClrbMImm (rd : Reg) (off : BitVec 4) (s : State) : Result := bitOnMem .clrb (bitAddr rd s) off s

/-- CLRB `DS:[Rd]`, bit from the opcode (R194). -/
def execClrbDmImm (rd : Reg) (off : BitVec 4) (s : State) : Result := bitOnMem .clrb (bitDsAddr rd s) off s

/-- INVB `Rd`, bit `Rs` (R195). -/
def execInvbRRs (rd rs : Reg) (s : State) : Result := bitOnReg .invb rd (bitNumber rs s) s

/-- INVB `Rd`, bit from the opcode (R195). -/
def execInvbRImm (rd : Reg) (off : BitVec 4) (s : State) : Result := bitOnReg .invb rd off s

/-- INVB `[Rd]`, bit `Rs` (R195). -/
def execInvbMRs (rd rs : Reg) (s : State) : Result := bitOnMem .invb (bitAddr rd s) (bitNumber rs s) s

/-- INVB `DS:[Rd]`, bit `Rs` (R195). -/
def execInvbDmRs (rd rs : Reg) (s : State) : Result := bitOnMem .invb (bitDsAddr rd s) (bitNumber rs s) s

/-- INVB `[Rd]`, bit from the opcode (R195). -/
def execInvbMImm (rd : Reg) (off : BitVec 4) (s : State) : Result := bitOnMem .invb (bitAddr rd s) off s

/-- INVB `DS:[Rd]`, bit from the opcode (R195). -/
def execInvbDmImm (rd : Reg) (off : BitVec 4) (s : State) : Result := bitOnMem .invb (bitDsAddr rd s) off s

end Sys2Proof.Machine
end

