-- ==== Sys2Proof/Machine/Fxxx.lean ====
section
/-! DEFINITION. The Fxxx group (40_fxxx_group.md): multiplies, far call and jump, interrupt enables, NOP. In every meaning the
program counter already addresses the word after the opcode word (R10); the second word of CALL and GOTO is their
argument. -/

namespace Sys2Proof.Machine

/-- MUL_US: `x[opa]` unsigned times `x[opb]` signed, modulo 2^32, to MR; no flag (R131). -/
def execMulUs (rd rs : Reg) (s : State) : Result :=
  .next (s.setMr (BitVec.ofInt 32 (((s.reg rd).toNat : Int) * (s.reg rs).toInt)))

/-- MUL_SS: both operands signed (R132). -/
def execMulSs (rd rs : Reg) (s : State) : Result :=
  .next (s.setMr (BitVec.ofInt 32 ((s.reg rd).toInt * (s.reg rs).toInt)))

/-- CALL: past the second word, PC then SR pushed through SP, PC from the second word, CS from the opcode (R133). -/
def execCall (seg : BitVec 6) (addr : Word) (s : State) : Result :=
  let returning := s.advPc 1
  let pushed := (returning.push returning.pc .sp).push returning.sr .sp
  .next { pushed with pc := addr, sr := withCs seg pushed.sr }

/-- GOTO: PC from the second word, CS from the opcode (R134). -/
def execGoto (seg : BitVec 6) (addr : Word) (s : State) : Result :=
  .next { s with pc := addr, sr := withCs seg s.sr }

/-- INT OFF (R135). -/
def execIntOff (s : State) : Result := .next { s with enableIrq := false, enableFiq := false }

/-- INT IRQ (R136). -/
def execIntIrq (s : State) : Result := .next { s with enableIrq := true, enableFiq := false }

/-- INT FIQ (R137). -/
def execIntFiq (s : State) : Result := .next { s with enableIrq := false, enableFiq := true }

/-- INT FIQ,IRQ (R138). -/
def execIntFiqIrq (s : State) : Result := .next { s with enableIrq := true, enableFiq := true }

/-- IRQ OFF (R139). -/
def execIrqOff (s : State) : Result := .next { s with enableIrq := false }

/-- IRQ ON (R140). -/
def execIrqOn (s : State) : Result := .next { s with enableIrq := true }

/-- FIQ OFF (R141). -/
def execFiqOff (s : State) : Result := .next { s with enableFiq := false }

/-- FIQ ON (R142). -/
def execFiqOn (s : State) : Result := .next { s with enableFiq := true }

/-- NOP: changes nothing (R143). -/
def execNop (s : State) : Result := .next s

end Sys2Proof.Machine
end

