-- ==== Sys2Proof/Machine/Jump.lean ====
section
/-! DEFINITION. The jump group (41_jump_group.md R160 to R176): PC-relative jumps on the flags. -/

namespace Sys2Proof.Machine

/-- The common operation (R160): a taken jump moves the program counter by `imm6` words, backward if the direction
bit is set; nothing else changes. -/
def jumpIf (taken : Bool) (back : Bool) (imm6 : BitVec 6) (s : State) : Result :=
  if taken then .next (s.advPc (if back then -(imm6.toNat : Int) else (imm6.toNat : Int))) else .next s

/-- JB (R161). -/
def execJb (back : Bool) (imm6 : BitVec 6) (s : State) : Result := jumpIf (condHolds .jb s.sr) back imm6 s

/-- JAE (R162). -/
def execJae (back : Bool) (imm6 : BitVec 6) (s : State) : Result := jumpIf (condHolds .jae s.sr) back imm6 s

/-- JGE (R163). -/
def execJge (back : Bool) (imm6 : BitVec 6) (s : State) : Result := jumpIf (condHolds .jge s.sr) back imm6 s

/-- JL (R164). -/
def execJl (back : Bool) (imm6 : BitVec 6) (s : State) : Result := jumpIf (condHolds .jl s.sr) back imm6 s

/-- JNE (R165). -/
def execJne (back : Bool) (imm6 : BitVec 6) (s : State) : Result := jumpIf (condHolds .jne s.sr) back imm6 s

/-- JE (R166). -/
def execJe (back : Bool) (imm6 : BitVec 6) (s : State) : Result := jumpIf (condHolds .je s.sr) back imm6 s

/-- JPL (R167). -/
def execJpl (back : Bool) (imm6 : BitVec 6) (s : State) : Result := jumpIf (condHolds .jpl s.sr) back imm6 s

/-- JMI (R168). -/
def execJmi (back : Bool) (imm6 : BitVec 6) (s : State) : Result := jumpIf (condHolds .jmi s.sr) back imm6 s

/-- JBE (R169). -/
def execJbe (back : Bool) (imm6 : BitVec 6) (s : State) : Result := jumpIf (condHolds .jbe s.sr) back imm6 s

/-- JA (R170). -/
def execJa (back : Bool) (imm6 : BitVec 6) (s : State) : Result := jumpIf (condHolds .ja s.sr) back imm6 s

/-- JLE (R171). -/
def execJle (back : Bool) (imm6 : BitVec 6) (s : State) : Result := jumpIf (condHolds .jle s.sr) back imm6 s

/-- JG (R172). -/
def execJg (back : Bool) (imm6 : BitVec 6) (s : State) : Result := jumpIf (condHolds .jg s.sr) back imm6 s

/-- JVC (R173). -/
def execJvc (back : Bool) (imm6 : BitVec 6) (s : State) : Result := jumpIf (condHolds .jvc s.sr) back imm6 s

/-- JVS (R174). -/
def execJvs (back : Bool) (imm6 : BitVec 6) (s : State) : Result := jumpIf (condHolds .jvs s.sr) back imm6 s

/-- JMP (R175). -/
def execJmp (back : Bool) (imm6 : BitVec 6) (s : State) : Result := jumpIf (condHolds .jmp s.sr) back imm6 s

end Sys2Proof.Machine
end

