-- ==== Sys2Proof/Machine/RegShift.lean ====
section
/-! DEFINITION. The register-count shifts of the Exxx group (42_exxx_group.md R196 to R204). No flag changes, SB is not used. -/

namespace Sys2Proof.Machine

/-- The count: the low five bits of `x[rs]` (R196). -/
def regShiftCount (rs : Reg) (s : State) : Nat := ((s.reg rs).extractLsb' 0 5).toNat

/-- `V` of ASR and ASROR: the datum in the high half, the sign replicated in (R196). -/
def asrWide (d : Word) (n : Nat) : BitVec 32 := (d ++ 0#16).sshiftRight n

/-- `V` of LSL and LSLOR: the datum in the low half (R196). -/
def lslWide (d : Word) (n : Nat) : BitVec 32 := (0#16 ++ d) <<< n

/-- `V` of LSR and LSROR: the datum in the high half (R196). -/
def lsrWide (d : Word) (n : Nat) : BitVec 32 := (d ++ 0#16) >>> n

/-- The high half of `V`. -/
def highHalf (v : BitVec 32) : Word := v.extractLsb' 16 16

/-- The low half of `V`. -/
def lowHalf (v : BitVec 32) : Word := v.extractLsb' 0 16

/-- The "or" variants: the whole of `V` into MR, `x[rd]` not written (R196). -/
def orIntoMr (v : BitVec 32) (s : State) : Result := .next (s.setMr (s.mr ||| v))

/-- The 16-bit rotate left by `n mod 16` (R203). -/
def rolWord (d : Word) (n : Nat) : Word := (d <<< (n % 16)) ||| (d >>> (16 - n % 16))

/-- The 16-bit rotate right by `n mod 16` (R204). -/
def rorWord (d : Word) (n : Nat) : Word := (d >>> (n % 16)) ||| (d <<< (16 - n % 16))

/-- ASR: the high half of `V` to `x[rd]` (R197). -/
def execRasr (rd rs : Reg) (s : State) : Result :=
  .next (s.setReg rd (highHalf (asrWide (s.reg rd) (regShiftCount rs s))))

/-- ASROR (R198). -/
def execRasror (rd rs : Reg) (s : State) : Result := orIntoMr (asrWide (s.reg rd) (regShiftCount rs s)) s

/-- LSL: the low half of `V` to `x[rd]` (R199). -/
def execRlsl (rd rs : Reg) (s : State) : Result :=
  .next (s.setReg rd (lowHalf (lslWide (s.reg rd) (regShiftCount rs s))))

/-- LSLOR (R200). -/
def execRlslor (rd rs : Reg) (s : State) : Result := orIntoMr (lslWide (s.reg rd) (regShiftCount rs s)) s

/-- LSR: the high half of `V` to `x[rd]` (R201). -/
def execRlsr (rd rs : Reg) (s : State) : Result :=
  .next (s.setReg rd (highHalf (lsrWide (s.reg rd) (regShiftCount rs s))))

/-- LSROR (R202). -/
def execRlsror (rd rs : Reg) (s : State) : Result := orIntoMr (lsrWide (s.reg rd) (regShiftCount rs s)) s

/-- ROL (R203). -/
def execRrol (rd rs : Reg) (s : State) : Result := .next (s.setReg rd (rolWord (s.reg rd) (regShiftCount rs s)))

/-- ROR (R204). -/
def execRror (rd rs : Reg) (s : State) : Result := .next (s.setReg rd (rorWord (s.reg rd) (regShiftCount rs s)))

end Sys2Proof.Machine
end

