-- ==== Sys2Proof/Machine/Stack.lean ====
section
/-! DEFINITION. PUSH, POP and RETI (45_remaining_stack.md R290 to R294). -/

namespace Sys2Proof.Machine

/-- `n` registers pushed from `r` downwards, each read at its turn (R290). -/
def pushRegs : Nat → Reg → Reg → State → State
  | 0, _, _, s => s
  | n + 1, r, rb, s => pushRegs n (regBelow r) rb (s.push (s.reg r) rb)

/-- `n` registers popped from above `r` upwards (R291). -/
def popRegs : Nat → Reg → Reg → State → State
  | 0, _, _, s => s
  | n + 1, r, rb, s => popRegs n (regAbove r) rb (s.popTo (regAbove r) rb)

/-- PUSH (R290). -/
def execPush (rd : Reg) (n : BitVec 3) (rb : Reg) (s : State) : Result := .next (pushRegs n.toNat rd rb s)

/-- POP (R291); `retf` is the word with `rd` = BP, `n` = 2, `rb` = SP (R293). -/
def execPop (rd : Reg) (n : BitVec 3) (rb : Reg) (s : State) : Result := .next (popRegs n.toNat rd rb s)

/-- RETI (R292). -/
def execReti (s : State) : Result := .next s.returnInterrupt

end Sys2Proof.Machine
end

