-- ==== Sys2Proof/Machine/Dispatch.lean ====
section
/-! DEFINITION. The meaning of each instruction: one arm for each constructor of `Instr`. -/

namespace Sys2Proof.Machine

def exec (i : Instr) (s : State) : Host.Outcome State Fault Refusal :=
  match i with
  | .mulUs rd rs => Sys2Proof.Machine.execMulUs rd rs s
  | .mulSs rd rs => Sys2Proof.Machine.execMulSs rd rs s
  | .call seg addr => Sys2Proof.Machine.execCall seg addr s
  | .goto seg addr => Sys2Proof.Machine.execGoto seg addr s
  | .intOff => Sys2Proof.Machine.execIntOff s
  | .intIrq => Sys2Proof.Machine.execIntIrq s
  | .intFiq => Sys2Proof.Machine.execIntFiq s
  | .intFiqIrq => Sys2Proof.Machine.execIntFiqIrq s
  | .irqOff => Sys2Proof.Machine.execIrqOff s
  | .irqOn => Sys2Proof.Machine.execIrqOn s
  | .fiqOff => Sys2Proof.Machine.execFiqOff s
  | .fiqOn => Sys2Proof.Machine.execFiqOn s
  | .nop => Sys2Proof.Machine.execNop s
  | .jb back imm6 => Sys2Proof.Machine.execJb back imm6 s
  | .jae back imm6 => Sys2Proof.Machine.execJae back imm6 s
  | .jge back imm6 => Sys2Proof.Machine.execJge back imm6 s
  | .jl back imm6 => Sys2Proof.Machine.execJl back imm6 s
  | .jne back imm6 => Sys2Proof.Machine.execJne back imm6 s
  | .je back imm6 => Sys2Proof.Machine.execJe back imm6 s
  | .jpl back imm6 => Sys2Proof.Machine.execJpl back imm6 s
  | .jmi back imm6 => Sys2Proof.Machine.execJmi back imm6 s
  | .jbe back imm6 => Sys2Proof.Machine.execJbe back imm6 s
  | .ja back imm6 => Sys2Proof.Machine.execJa back imm6 s
  | .jle back imm6 => Sys2Proof.Machine.execJle back imm6 s
  | .jg back imm6 => Sys2Proof.Machine.execJg back imm6 s
  | .jvc back imm6 => Sys2Proof.Machine.execJvc back imm6 s
  | .jvs back imm6 => Sys2Proof.Machine.execJvs back imm6 s
  | .jmp back imm6 => Sys2Proof.Machine.execJmp back imm6 s
  | .tstbRRs rd rs => Sys2Proof.Machine.execTstbRRs rd rs s
  | .tstbRImm rd off => Sys2Proof.Machine.execTstbRImm rd off s
  | .tstbMRs rd rs => Sys2Proof.Machine.execTstbMRs rd rs s
  | .tstbDmRs rd rs => Sys2Proof.Machine.execTstbDmRs rd rs s
  | .tstbMImm rd off => Sys2Proof.Machine.execTstbMImm rd off s
  | .tstbDmImm rd off => Sys2Proof.Machine.execTstbDmImm rd off s
  | .setbRRs rd rs => Sys2Proof.Machine.execSetbRRs rd rs s
  | .setbRImm rd off => Sys2Proof.Machine.execSetbRImm rd off s
  | .setbMRs rd rs => Sys2Proof.Machine.execSetbMRs rd rs s
  | .setbDmRs rd rs => Sys2Proof.Machine.execSetbDmRs rd rs s
  | .setbMImm rd off => Sys2Proof.Machine.execSetbMImm rd off s
  | .setbDmImm rd off => Sys2Proof.Machine.execSetbDmImm rd off s
  | .clrbRRs rd rs => Sys2Proof.Machine.execClrbRRs rd rs s
  | .clrbRImm rd off => Sys2Proof.Machine.execClrbRImm rd off s
  | .clrbMRs rd rs => Sys2Proof.Machine.execClrbMRs rd rs s
  | .clrbDmRs rd rs => Sys2Proof.Machine.execClrbDmRs rd rs s
  | .clrbMImm rd off => Sys2Proof.Machine.execClrbMImm rd off s
  | .clrbDmImm rd off => Sys2Proof.Machine.execClrbDmImm rd off s
  | .invbRRs rd rs => Sys2Proof.Machine.execInvbRRs rd rs s
  | .invbRImm rd off => Sys2Proof.Machine.execInvbRImm rd off s
  | .invbMRs rd rs => Sys2Proof.Machine.execInvbMRs rd rs s
  | .invbDmRs rd rs => Sys2Proof.Machine.execInvbDmRs rd rs s
  | .invbMImm rd off => Sys2Proof.Machine.execInvbMImm rd off s
  | .invbDmImm rd off => Sys2Proof.Machine.execInvbDmImm rd off s
  | .rasr rd rs => Sys2Proof.Machine.execRasr rd rs s
  | .rasror rd rs => Sys2Proof.Machine.execRasror rd rs s
  | .rlsl rd rs => Sys2Proof.Machine.execRlsl rd rs s
  | .rlslor rd rs => Sys2Proof.Machine.execRlslor rd rs s
  | .rlsr rd rs => Sys2Proof.Machine.execRlsr rd rs s
  | .rlsror rd rs => Sys2Proof.Machine.execRlsror rd rs s
  | .rrol rd rs => Sys2Proof.Machine.execRrol rd rs s
  | .rror rd rs => Sys2Proof.Machine.execRror rd rs s
  | .push rd n rb => Sys2Proof.Machine.execPush rd n rb s
  | .pop rd n rb => Sys2Proof.Machine.execPop rd n rb s
  | .reti => Sys2Proof.Machine.execReti s
  | .addBp6 rd imm6 => Sys2Proof.Machine.execAddBp6 rd imm6 s
  | .addImm6 rd imm6 => Sys2Proof.Machine.execAddImm6 rd imm6 s
  | .addInd rd ds mode rs => Sys2Proof.Machine.execAddInd rd ds mode rs s
  | .addReg rd rs => Sys2Proof.Machine.execAddReg rd rs s
  | .addImm16 rd rs imm => Sys2Proof.Machine.execAddImm16 rd rs imm s
  | .addA16 rd rs addr => Sys2Proof.Machine.execAddA16 rd rs addr s
  | .addToA16 rd rs addr => Sys2Proof.Machine.execAddToA16 rd rs addr s
  | .addAsr rd nn rs => Sys2Proof.Machine.execAddAsr rd nn rs s
  | .addLsl rd nn rs => Sys2Proof.Machine.execAddLsl rd nn rs s
  | .addLsr rd nn rs => Sys2Proof.Machine.execAddLsr rd nn rs s
  | .addRol rd nn rs => Sys2Proof.Machine.execAddRol rd nn rs s
  | .addRor rd nn rs => Sys2Proof.Machine.execAddRor rd nn rs s
  | .addA6 rd imm6 => Sys2Proof.Machine.execAddA6 rd imm6 s
  | .adcBp6 rd imm6 => Sys2Proof.Machine.execAdcBp6 rd imm6 s
  | .adcImm6 rd imm6 => Sys2Proof.Machine.execAdcImm6 rd imm6 s
  | .adcInd rd ds mode rs => Sys2Proof.Machine.execAdcInd rd ds mode rs s
  | .adcReg rd rs => Sys2Proof.Machine.execAdcReg rd rs s
  | .adcImm16 rd rs imm => Sys2Proof.Machine.execAdcImm16 rd rs imm s
  | .adcA16 rd rs addr => Sys2Proof.Machine.execAdcA16 rd rs addr s
  | .adcToA16 rd rs addr => Sys2Proof.Machine.execAdcToA16 rd rs addr s
  | .adcAsr rd nn rs => Sys2Proof.Machine.execAdcAsr rd nn rs s
  | .adcLsl rd nn rs => Sys2Proof.Machine.execAdcLsl rd nn rs s
  | .adcLsr rd nn rs => Sys2Proof.Machine.execAdcLsr rd nn rs s
  | .adcRol rd nn rs => Sys2Proof.Machine.execAdcRol rd nn rs s
  | .adcRor rd nn rs => Sys2Proof.Machine.execAdcRor rd nn rs s
  | .adcA6 rd imm6 => Sys2Proof.Machine.execAdcA6 rd imm6 s
  | .subBp6 rd imm6 => Sys2Proof.Machine.execSubBp6 rd imm6 s
  | .subImm6 rd imm6 => Sys2Proof.Machine.execSubImm6 rd imm6 s
  | .subInd rd ds mode rs => Sys2Proof.Machine.execSubInd rd ds mode rs s
  | .subReg rd rs => Sys2Proof.Machine.execSubReg rd rs s
  | .subImm16 rd rs imm => Sys2Proof.Machine.execSubImm16 rd rs imm s
  | .subA16 rd rs addr => Sys2Proof.Machine.execSubA16 rd rs addr s
  | .subToA16 rd rs addr => Sys2Proof.Machine.execSubToA16 rd rs addr s
  | .subAsr rd nn rs => Sys2Proof.Machine.execSubAsr rd nn rs s
  | .subLsl rd nn rs => Sys2Proof.Machine.execSubLsl rd nn rs s
  | .subLsr rd nn rs => Sys2Proof.Machine.execSubLsr rd nn rs s
  | .subRol rd nn rs => Sys2Proof.Machine.execSubRol rd nn rs s
  | .subRor rd nn rs => Sys2Proof.Machine.execSubRor rd nn rs s
  | .subA6 rd imm6 => Sys2Proof.Machine.execSubA6 rd imm6 s
  | .sbcBp6 rd imm6 => Sys2Proof.Machine.execSbcBp6 rd imm6 s
  | .sbcImm6 rd imm6 => Sys2Proof.Machine.execSbcImm6 rd imm6 s
  | .sbcInd rd ds mode rs => Sys2Proof.Machine.execSbcInd rd ds mode rs s
  | .sbcReg rd rs => Sys2Proof.Machine.execSbcReg rd rs s
  | .sbcImm16 rd rs imm => Sys2Proof.Machine.execSbcImm16 rd rs imm s
  | .sbcA16 rd rs addr => Sys2Proof.Machine.execSbcA16 rd rs addr s
  | .sbcToA16 rd rs addr => Sys2Proof.Machine.execSbcToA16 rd rs addr s
  | .sbcAsr rd nn rs => Sys2Proof.Machine.execSbcAsr rd nn rs s
  | .sbcLsl rd nn rs => Sys2Proof.Machine.execSbcLsl rd nn rs s
  | .sbcLsr rd nn rs => Sys2Proof.Machine.execSbcLsr rd nn rs s
  | .sbcRol rd nn rs => Sys2Proof.Machine.execSbcRol rd nn rs s
  | .sbcRor rd nn rs => Sys2Proof.Machine.execSbcRor rd nn rs s
  | .sbcA6 rd imm6 => Sys2Proof.Machine.execSbcA6 rd imm6 s
  | .cmpBp6 rd imm6 => Sys2Proof.Machine.execCmpBp6 rd imm6 s
  | .cmpImm6 rd imm6 => Sys2Proof.Machine.execCmpImm6 rd imm6 s
  | .cmpInd rd ds mode rs => Sys2Proof.Machine.execCmpInd rd ds mode rs s
  | .cmpReg rd rs => Sys2Proof.Machine.execCmpReg rd rs s
  | .cmpImm16 rd rs imm => Sys2Proof.Machine.execCmpImm16 rd rs imm s
  | .cmpA16 rd rs addr => Sys2Proof.Machine.execCmpA16 rd rs addr s
  | .cmpToA16 rd rs addr => Sys2Proof.Machine.execCmpToA16 rd rs addr s
  | .cmpAsr rd nn rs => Sys2Proof.Machine.execCmpAsr rd nn rs s
  | .cmpLsl rd nn rs => Sys2Proof.Machine.execCmpLsl rd nn rs s
  | .cmpLsr rd nn rs => Sys2Proof.Machine.execCmpLsr rd nn rs s
  | .cmpRol rd nn rs => Sys2Proof.Machine.execCmpRol rd nn rs s
  | .cmpRor rd nn rs => Sys2Proof.Machine.execCmpRor rd nn rs s
  | .cmpA6 rd imm6 => Sys2Proof.Machine.execCmpA6 rd imm6 s
  | .negBp6 rd imm6 => Sys2Proof.Machine.execNegBp6 rd imm6 s
  | .negImm6 rd imm6 => Sys2Proof.Machine.execNegImm6 rd imm6 s
  | .negInd rd ds mode rs => Sys2Proof.Machine.execNegInd rd ds mode rs s
  | .negReg rd rs => Sys2Proof.Machine.execNegReg rd rs s
  | .negImm16 rd rs imm => Sys2Proof.Machine.execNegImm16 rd rs imm s
  | .negA16 rd rs addr => Sys2Proof.Machine.execNegA16 rd rs addr s
  | .negToA16 rd rs addr => Sys2Proof.Machine.execNegToA16 rd rs addr s
  | .negAsr rd nn rs => Sys2Proof.Machine.execNegAsr rd nn rs s
  | .negLsl rd nn rs => Sys2Proof.Machine.execNegLsl rd nn rs s
  | .negLsr rd nn rs => Sys2Proof.Machine.execNegLsr rd nn rs s
  | .negRol rd nn rs => Sys2Proof.Machine.execNegRol rd nn rs s
  | .negRor rd nn rs => Sys2Proof.Machine.execNegRor rd nn rs s
  | .negA6 rd imm6 => Sys2Proof.Machine.execNegA6 rd imm6 s
  | .xorBp6 rd imm6 => Sys2Proof.Machine.execXorBp6 rd imm6 s
  | .xorImm6 rd imm6 => Sys2Proof.Machine.execXorImm6 rd imm6 s
  | .xorInd rd ds mode rs => Sys2Proof.Machine.execXorInd rd ds mode rs s
  | .xorReg rd rs => Sys2Proof.Machine.execXorReg rd rs s
  | .xorImm16 rd rs imm => Sys2Proof.Machine.execXorImm16 rd rs imm s
  | .xorA16 rd rs addr => Sys2Proof.Machine.execXorA16 rd rs addr s
  | .xorToA16 rd rs addr => Sys2Proof.Machine.execXorToA16 rd rs addr s
  | .xorAsr rd nn rs => Sys2Proof.Machine.execXorAsr rd nn rs s
  | .xorLsl rd nn rs => Sys2Proof.Machine.execXorLsl rd nn rs s
  | .xorLsr rd nn rs => Sys2Proof.Machine.execXorLsr rd nn rs s
  | .xorRol rd nn rs => Sys2Proof.Machine.execXorRol rd nn rs s
  | .xorRor rd nn rs => Sys2Proof.Machine.execXorRor rd nn rs s
  | .xorA6 rd imm6 => Sys2Proof.Machine.execXorA6 rd imm6 s
  | .loadBp6 rd imm6 => Sys2Proof.Machine.execLoadBp6 rd imm6 s
  | .loadImm6 rd imm6 => Sys2Proof.Machine.execLoadImm6 rd imm6 s
  | .loadInd rd ds mode rs => Sys2Proof.Machine.execLoadInd rd ds mode rs s
  | .loadReg rd rs => Sys2Proof.Machine.execLoadReg rd rs s
  | .loadImm16 rd rs imm => Sys2Proof.Machine.execLoadImm16 rd rs imm s
  | .loadA16 rd rs addr => Sys2Proof.Machine.execLoadA16 rd rs addr s
  | .loadToA16 rd rs addr => Sys2Proof.Machine.execLoadToA16 rd rs addr s
  | .loadAsr rd nn rs => Sys2Proof.Machine.execLoadAsr rd nn rs s
  | .loadLsl rd nn rs => Sys2Proof.Machine.execLoadLsl rd nn rs s
  | .loadLsr rd nn rs => Sys2Proof.Machine.execLoadLsr rd nn rs s
  | .loadRol rd nn rs => Sys2Proof.Machine.execLoadRol rd nn rs s
  | .loadRor rd nn rs => Sys2Proof.Machine.execLoadRor rd nn rs s
  | .loadA6 rd imm6 => Sys2Proof.Machine.execLoadA6 rd imm6 s
  | .orBp6 rd imm6 => Sys2Proof.Machine.execOrBp6 rd imm6 s
  | .orImm6 rd imm6 => Sys2Proof.Machine.execOrImm6 rd imm6 s
  | .orInd rd ds mode rs => Sys2Proof.Machine.execOrInd rd ds mode rs s
  | .orReg rd rs => Sys2Proof.Machine.execOrReg rd rs s
  | .orImm16 rd rs imm => Sys2Proof.Machine.execOrImm16 rd rs imm s
  | .orA16 rd rs addr => Sys2Proof.Machine.execOrA16 rd rs addr s
  | .orToA16 rd rs addr => Sys2Proof.Machine.execOrToA16 rd rs addr s
  | .orAsr rd nn rs => Sys2Proof.Machine.execOrAsr rd nn rs s
  | .orLsl rd nn rs => Sys2Proof.Machine.execOrLsl rd nn rs s
  | .orLsr rd nn rs => Sys2Proof.Machine.execOrLsr rd nn rs s
  | .orRol rd nn rs => Sys2Proof.Machine.execOrRol rd nn rs s
  | .orRor rd nn rs => Sys2Proof.Machine.execOrRor rd nn rs s
  | .orA6 rd imm6 => Sys2Proof.Machine.execOrA6 rd imm6 s
  | .andBp6 rd imm6 => Sys2Proof.Machine.execAndBp6 rd imm6 s
  | .andImm6 rd imm6 => Sys2Proof.Machine.execAndImm6 rd imm6 s
  | .andInd rd ds mode rs => Sys2Proof.Machine.execAndInd rd ds mode rs s
  | .andReg rd rs => Sys2Proof.Machine.execAndReg rd rs s
  | .andImm16 rd rs imm => Sys2Proof.Machine.execAndImm16 rd rs imm s
  | .andA16 rd rs addr => Sys2Proof.Machine.execAndA16 rd rs addr s
  | .andToA16 rd rs addr => Sys2Proof.Machine.execAndToA16 rd rs addr s
  | .andAsr rd nn rs => Sys2Proof.Machine.execAndAsr rd nn rs s
  | .andLsl rd nn rs => Sys2Proof.Machine.execAndLsl rd nn rs s
  | .andLsr rd nn rs => Sys2Proof.Machine.execAndLsr rd nn rs s
  | .andRol rd nn rs => Sys2Proof.Machine.execAndRol rd nn rs s
  | .andRor rd nn rs => Sys2Proof.Machine.execAndRor rd nn rs s
  | .andA6 rd imm6 => Sys2Proof.Machine.execAndA6 rd imm6 s
  | .testBp6 rd imm6 => Sys2Proof.Machine.execTestBp6 rd imm6 s
  | .testImm6 rd imm6 => Sys2Proof.Machine.execTestImm6 rd imm6 s
  | .testInd rd ds mode rs => Sys2Proof.Machine.execTestInd rd ds mode rs s
  | .testReg rd rs => Sys2Proof.Machine.execTestReg rd rs s
  | .testImm16 rd rs imm => Sys2Proof.Machine.execTestImm16 rd rs imm s
  | .testA16 rd rs addr => Sys2Proof.Machine.execTestA16 rd rs addr s
  | .testToA16 rd rs addr => Sys2Proof.Machine.execTestToA16 rd rs addr s
  | .testAsr rd nn rs => Sys2Proof.Machine.execTestAsr rd nn rs s
  | .testLsl rd nn rs => Sys2Proof.Machine.execTestLsl rd nn rs s
  | .testLsr rd nn rs => Sys2Proof.Machine.execTestLsr rd nn rs s
  | .testRol rd nn rs => Sys2Proof.Machine.execTestRol rd nn rs s
  | .testRor rd nn rs => Sys2Proof.Machine.execTestRor rd nn rs s
  | .testA6 rd imm6 => Sys2Proof.Machine.execTestA6 rd imm6 s
  | .storeBp6 rd imm6 => Sys2Proof.Machine.execStoreBp6 rd imm6 s
  | .storeInd rd ds mode rs => Sys2Proof.Machine.execStoreInd rd ds mode rs s
  | .storeA16 rd rs addr => Sys2Proof.Machine.execStoreA16 rd rs addr s
  | .storeToA16 rd rs addr => Sys2Proof.Machine.execStoreToA16 rd rs addr s
  | .storeA6 rd imm6 => Sys2Proof.Machine.execStoreA6 rd imm6 s

end Sys2Proof.Machine
end

