-- ==== Sys2Proof/Machine/Fetch.lean ====
section
/-! DEFINITION. Fetching an instruction (00_scope.md R10, 30_encoding.md R93) and what a step does with it. -/

namespace Sys2Proof.Machine

/-- What the fetch of a step yields: the opcode word, the words of the instruction, and the state after it. -/
structure Fetched where
  op : Word
  words : List Word
  st : State
  deriving DecidableEq, Repr

/-- The fetch: the opcode word is read at LPC and the program counter advanced past it; if the opcode word says that a
second word follows, it is read there (R10, R93). The record of accesses starts anew (log entry 3). -/
def State.fetch (s : State) : Fetched :=
  let opRead := { s with bus := [] }.memRead (busAddr s.lpc)
  let past := opRead.2.advPc 1
  if takesSecondWord opRead.1 then
    let immRead := past.memRead (busAddr past.lpc)
    { op := opRead.1, words := [opRead.1, immRead.1], st := immRead.2 }
  else { op := opRead.1, words := [opRead.1], st := past }

/-- The end of a step after the instruction: one interrupt check (R10, R324). -/
def Result.thenCheckIrqs : Result → Result
  | .next s => .next s.checkIrqs
  | .fault r => .fault r
  | .refused r => .refused r

/-- `Step()` of a block that is not faulted (R10): an illegal word raises the fault and ends the step without the
interrupt check (R310). -/
def State.runStep (s : State) : Result :=
  let fetched := s.fetch
  match decode fetched.words with
  | .ok (i, _) => Result.thenCheckIrqs (exec i fetched.st)
  | .error _ => .next (fetched.st.raiseUnimplemented fetched.op s.lpc)

/-- The words of an instruction, given as bits numbered as spec/opcode_table.json numbers them, stored where the next
step fetches: the first at LPC, the second (bits 31 to 16) at the next address. Bits from `nbits` up are 0. The platform
answers as plain storage (log entry 8). -/
def State.storeFetchWords (s : State) (nbits w : Nat) : State :=
  let v := BitVec.ofNat 32 (w % 2 ^ nbits)
  let first := s.mem.setWord (busAddr s.lpc) (v.extractLsb' 0 16)
  { s with mem := first.setWord (busAddr (s.lpc + 1)) (v.extractLsb' 16 16), replies := [] }

end Sys2Proof.Machine
end

