-- ==== Sys2Proof/Machine/Step.lean ====
section
/-! DEFINITION. The step of the machine, its transitions (70_reset_and_hazards.md R374) and its runs. -/

namespace Sys2Proof.Machine

/-- `Step()`, enabled if and only if nothing is latched (R10, R374): in a faulted state no step is taken (R310). -/
def step (s : State) : Host.Outcome State Fault Refusal :=
  match s.faulted with
  | some d => .fault (.halted d)
  | none => s.runStep

/-- `s` with an instruction's bits stored where `step` fetches its next instruction. -/
def State.withFetchWord (s : State) (nbits w : Nat) : State := s.storeFetchWords nbits w

/-- A transition of the whole machine (R374). A step and a reset read memory: each comes with what the platform answers
to its reads, in order (R62). -/
inductive Transition where
  | step (replies : List (Option Word))
  | setInput (line : Nat) (state : Bool)
  | reset (replies : List (Option Word))
  deriving DecidableEq, Repr

/-- One transition. -/
def transition (t : Transition) (s : State) : Host.Outcome State Fault Refusal :=
  match t with
  | .step replies => step { s with replies := replies }
  | .setInput line state => .next (s.setInput line state)
  | .reset replies => .next ({ s with replies := replies } : State).deviceReset

/-- The transitions of a list, in order, as the platform chooses them; it stops where one has no next state. -/
def run : List Transition → State → Host.Outcome State Fault Refusal
  | [], s => .next s
  | t :: ts, s =>
    match transition t s with
    | .next s' => run ts s'
    | .fault r => .fault r
    | .refused r => .refused r

end Sys2Proof.Machine
end

