-- ==== Sys2Proof/Safety.lean ====
section
/-! DEFINITION. The terms in which statements speak: what a state must satisfy, what an instruction may touch, and what
is the same between two states. -/

namespace Sys2Proof.Machine

/-! ## The invariant -/

/-- What holds in every state a run reaches: memory is in canonical form and lies below word address 2^22 (R60); at
most one of `irq` and `fiq` is set (R35, R332); `curirq` is 0 outside an IRQ (R39); every recorded access has bus
address bit 22 equal to 0 (R60); a latched word is illegal (R310). -/
structure Inv (s : State) : Prop where
  memWf : s.mem.wf = true
  memLow : ∀ c ∈ s.mem, c.1 < 2 ^ 23
  exclusive : ¬(s.irq = true ∧ s.fiq = true)
  curirqIdle : s.irq = false → s.curirq = 0#3
  busLow : ∀ a ∈ s.bus, a.addr.getLsbD 22 = false
  latchIllegal : ∀ d, s.faulted = some d → ∃ e, decodeOp d.op 0#16 = .error e

/-- A run that is not stopped: nothing is latched. -/
def State.running (s : State) : Prop := s.faulted = none

/-! ## What is the same between two states -/

/-- The interrupt and control state (10_state.md, section 5) but SB is the same. -/
structure SameControl (s t : State) : Prop where
  savedSb0 : t.savedSb0 = s.savedSb0
  savedSb1 : t.savedSb1 = s.savedSb1
  savedSb2 : t.savedSb2 = s.savedSb2
  enableIrq : t.enableIrq = s.enableIrq
  enableFiq : t.enableFiq = s.enableFiq
  irq : t.irq = s.irq
  fiq : t.fiq = s.fiq
  sirq : t.sirq = s.sirq
  curirq : t.curirq = s.curirq
  faulted : t.faulted = s.faulted

/-- Every register but those of the list is the same. -/
def SameRegsBut (rs : List Reg) (s t : State) : Prop := ∀ r, r ∉ rs → t.reg r = s.reg r

/-- Every byte of memory outside the words at the addresses of the list reads the same. -/
def SameMemBut (as : List Addr) (s t : State) : Prop :=
  ∀ k, (∀ a ∈ as, k ≠ byteAddr a ∧ k ≠ byteAddr a + 1) → t.mem.byte k = s.mem.byte k

/-- The flags N, Z, S and C are the same. -/
structure SameFlags (s t : State) : Prop where
  flagN : srN t.sr = srN s.sr
  flagZ : srZ t.sr = srZ s.sr
  flagS : srS t.sr = srS s.sr
  flagC : srC t.sr = srC s.sr

/-! ## Memory accesses -/

/-- The access is a read. -/
def BusAccess.isRead : BusAccess → Bool
  | .read _ _ => true
  | .write _ _ => false

/-- From `s` to `t` exactly these accesses are made, in this order (R65): they are recorded, and each read has used up
one of the platform's answers. -/
structure Performs (as : List BusAccess) (s t : State) : Prop where
  bus : t.bus = s.bus ++ as
  replies : t.replies = s.replies.drop (as.countP BusAccess.isRead)

/-- `s` after one read, of address `a`. -/
def State.afterRead (s : State) (a : Addr) : State :=
  { s with bus := s.bus ++ [.read a (s.reply 0 a)], replies := s.replies.drop 1 }

/-- Plain storage answers the next `n` reads (R70, log entry 4). -/
def PlainReads (n : Nat) (s : State) : Prop := ∀ k < n, s.replies[k]?.join = none

/-! ## What an operation makes of a state -/

/-- The effect of an ALU operation whose destination is the register `rd`, on a state `b` in which the operand form's
side effects have happened (R260): every register, memory, and the rest. -/
structure AluToRegister (op : AluOp) (rd : Reg) (r0 r1 : Word) (b t : State) : Prop where
  regs : ∀ r, t.reg r =
    if aluWrites op = true ∧ r = rd then (aluValue op r0 r1 (srC b.sr)).setWidth 16
    else if r = .sr ∧ rd ≠ .pc then aluFlags op r0 r1 (aluValue op r0 r1 (srC b.sr)) b.sr
    else b.reg r
  mem : SameMemBut [] b t
  accesses : Performs [] b t
  sb : t.sb = b.sb
  control : SameControl b t

/-! ## What an instruction may touch -/

/-- The operand forms that read and write SB (R36). -/
def Form.shifts : Form → Bool
  | .asr _ _ | .lsl _ _ | .lsr _ _ | .rol _ _ | .ror _ _ => true
  | .bp6 _ | .imm6 _ | .ind _ _ _ | .reg _ | .imm16 _ _ | .a16 _ _ | .toA16 _ _ | .a6 _ => false

/-- The instructions that write SB: the shifted operand forms and RETI (R36). -/
def writesSb (i : Instr) : Bool :=
  match i.shape with
  | .alu _ _ f => Form.shifts f
  | .reti => true
  | .mul _ _ _ | .call _ _ | .goto _ _ | .fixed _ | .jump _ _ _ | .bit _ _ _ | .rshift _ _ _ => false
  | .push _ _ _ | .pop _ _ _ | .store _ _ => false

/-- The eight interrupt-enable instructions (R135 to R142). -/
def enableInstrs : List Instr := [.intOff, .intIrq, .intFiq, .intFiqIrq, .irqOff, .irqOn, .fiqOff, .fiqOn]

/-- The instructions that store to memory (R65, R75): STORE, an ALU operation that writes `[A16]`, the bit operations
but TSTB on a memory target, PUSH and CALL. -/
def storesMemory (i : Instr) : Bool :=
  match i.shape with
  | .store _ _ | .push _ _ _ | .call _ _ => true
  | .alu op _ (.toA16 _ _) => aluWrites op
  | .bit fn _ (.mRs _) | .bit fn _ (.dmRs _) | .bit fn _ (.mImm _) | .bit fn _ (.dmImm _) => fn != .tstb
  | .bit _ _ (.rRs _) | .bit _ _ (.rImm _) => false
  | .alu _ _ (.bp6 _) | .alu _ _ (.imm6 _) | .alu _ _ (.ind _ _ _) | .alu _ _ (.reg _) => false
  | .alu _ _ (.imm16 _ _) | .alu _ _ (.a16 _ _) | .alu _ _ (.asr _ _) | .alu _ _ (.lsl _ _) => false
  | .alu _ _ (.lsr _ _) | .alu _ _ (.rol _ _) | .alu _ _ (.ror _ _) | .alu _ _ (.a6 _) => false
  | .mul _ _ _ | .goto _ _ | .fixed _ | .jump _ _ _ | .rshift _ _ _ | .pop _ _ _ | .reti => false

/-- The register `k` places below `r` in the file (R290); beyond SP it has no meaning. -/
def regDown (r : Reg) (k : Nat) : Reg := .ofNum (r.num - BitVec.ofNat 3 k)

/-- The accesses of a fetch: the opcode word at LPC and, if there is one, the second word after it (R75). -/
def fetchReads (i : Instr) (s : State) : List BusAccess :=
  .read (busAddr s.lpc) (s.reply 0 (busAddr s.lpc)) ::
    if i.takesImm16 then [.read (busAddr (s.lpc + 1)) (s.reply 1 (busAddr (s.lpc + 1)))] else []

/-- The words the fetch of an instruction finds. -/
def fetchWords (i : Instr) (s : State) : List Word :=
  s.reply 0 (busAddr s.lpc) :: if i.takesImm16 then [s.reply 1 (busAddr (s.lpc + 1))] else []

/-- `s` when the instruction begins: its words fetched and the program counter past the opcode word (R10). The record of
accesses `bus`, the model's field, starts anew with the fetch (log entry 3). -/
def State.fetched (i : Instr) (s : State) : State :=
  ({ s with
    bus := fetchReads i s
    replies := s.replies.drop ((fetchReads i s).countP BusAccess.isRead) } : State).advPc 1

/-- The bit number of a bit operation's form (R191). -/
def bitFormOff (f : BitForm) (s : State) : BitVec 4 :=
  match f with
  | .rRs rs | .mRs rs | .dmRs rs => (s.reg rs).extractLsb' 0 4
  | .rImm off | .mImm off | .dmImm off => off

/-- The memory target of a bit operation's form, if it has one (R191). -/
def bitFormAddr (rd : Reg) (f : BitForm) (s : State) : Option Addr :=
  match f with
  | .rRs _ | .rImm _ => none
  | .mRs _ | .mImm _ => some (segZero (s.reg rd))
  | .dmRs _ | .dmImm _ => some (busAddr (segOff (srDs s.sr) (s.reg rd)))

/-- What a bit operation makes of the old bit (R192 to R195). -/
def bitAfter (fn : BitFn) (old : Bool) : Bool :=
  match fn with
  | .tstb => old
  | .setb => true
  | .clrb => false
  | .invb => !old

/-- The 5-bit count of a register-count shift (R196). -/
def shiftBy (rs : Reg) (s : State) : Nat := (s.reg rs).toNat % 32

/-- The target of a relative jump (R160). -/
def jumpTarget (back : Bool) (imm6 : BitVec 6) (s : State) : ProgAddr :=
  if back then s.lpc - imm6.setWidth 22 else s.lpc + imm6.setWidth 22

/-- The effect of an interrupt entry on the registers, the stack and SB (R327, R328): PC then SR pushed through SP,
PC from the vector, read after the pushes, SR zero; the outgoing SB in slot 0, the handler's SB in. -/
structure EntersHandler (handlerSb : BitVec 4) (vector : Addr) (s t : State) : Prop where
  sp : t.sp = s.sp - 2
  pc : t.pc = (s.replies[0]?.join).getD (t.mem.word vector)
  sr : t.sr = 0#16
  others : SameRegsBut [.sp, .pc, .sr] s t
  stackedPc : t.mem.word (segZero s.sp) = s.pc
  stackedSr : t.mem.word (segZero (s.sp - 1)) = s.sr
  memory : SameMemBut [segZero s.sp, segZero (s.sp - 1)] s t
  accesses : Performs [.write (segZero s.sp) s.pc, .write (segZero (s.sp - 1)) s.sr, .read vector t.pc] s t
  sb : t.sb = handlerSb
  savedSb0 : t.savedSb0 = s.sb
  savedSb1 : t.savedSb1 = s.savedSb1
  savedSb2 : t.savedSb2 = s.savedSb2
  enableIrq : t.enableIrq = s.enableIrq
  enableFiq : t.enableFiq = s.enableFiq
  sirq : t.sirq = s.sirq
  faulted : t.faulted = s.faulted

end Sys2Proof.Machine
end

