-- ==== Sys2Proof/Certificates/Slice0/Obligations.lean ====
section
/-! DEFINITION. The statements for the provers, each with the rules of spec/ it formalises. -/

open Sys2Proof Sys2Proof.Machine

/-! ## Decoding and encoding -/

/-- Decoding the words of a well-formed instruction gives it back, with the words after it left over. -/
def Obligations.DecodeOfEncodeIsTheInstruction : Prop :=
  ∀ (i : Instr) (rest : List Word), i.wf = true → decode (encode i ++ rest) = .ok (i, rest)

/-- The other direction (R97, R103): a decoded instruction is well formed and the words it was read from are its one
encoding, so the decoder ignores no bit and accepts no second spelling. -/
def Obligations.DecodedWordsAreTheEncoding : Prop :=
  ∀ (ws rest : List Word) (i : Instr), decode ws = .ok (i, rest) → i.wf = true ∧ ws = encode i ++ rest

/-- The jump group (R100): `op0` is the condition, bit 6 the direction, bits 5:0 the displacement, and every word of
the group is legal. -/
def Obligations.JumpGroupDecodes : Prop :=
  ∀ (op imm : Word), fieldOp0 op ≠ 0xF#4 → fieldOpa op = 7#3 → fieldOp1 op < 2#3 →
    ∃ c : Cond, c.num = fieldOp0 op ∧ decodeOp op imm = .ok (.ofJump c (op.getLsbD 6) (op.extractLsb' 0 6))

/-- The Fxxx group (R130, R144): each listed pattern is its instruction and every other word is rejected. -/
def Obligations.FxxxGroupDecodes : Prop :=
  ∀ (op imm : Word), fieldOp0 op = 0xF#4 →
    (op &&& 0xF1F8#16 = 0xF008#16 → decodeOp op imm = .ok (.mulUs (fieldRd op) (fieldRs op))) ∧
    (op &&& 0xF1F8#16 = 0xF108#16 → decodeOp op imm = .ok (.mulSs (fieldRd op) (fieldRs op))) ∧
    (op &&& 0xFFC0#16 = 0xF040#16 → decodeOp op imm = .ok (.call (op.extractLsb' 0 6) imm)) ∧
    (op &&& 0xFFC0#16 = 0xFE80#16 → decodeOp op imm = .ok (.goto (op.extractLsb' 0 6) imm)) ∧
    (op = 0xF140#16 → decodeOp op imm = .ok .intOff) ∧
    (op = 0xF141#16 → decodeOp op imm = .ok .intIrq) ∧
    (op = 0xF142#16 → decodeOp op imm = .ok .intFiq) ∧
    (op = 0xF143#16 → decodeOp op imm = .ok .intFiqIrq) ∧
    (op = 0xF148#16 → decodeOp op imm = .ok .irqOff) ∧
    (op = 0xF149#16 → decodeOp op imm = .ok .irqOn) ∧
    (op = 0xF14C#16 → decodeOp op imm = .ok .fiqOff) ∧
    (op = 0xF14E#16 → decodeOp op imm = .ok .fiqOn) ∧
    (op = 0xF165#16 → decodeOp op imm = .ok .nop) ∧
    (¬(op &&& 0xF1F8#16 = 0xF008#16 ∨ op &&& 0xF1F8#16 = 0xF108#16 ∨ op &&& 0xFFC0#16 = 0xF040#16 ∨
        op &&& 0xFFC0#16 = 0xFE80#16 ∨ op = 0xF140#16 ∨ op = 0xF141#16 ∨ op = 0xF142#16 ∨ op = 0xF143#16 ∨
        op = 0xF148#16 ∨ op = 0xF149#16 ∨ op = 0xF14C#16 ∨ op = 0xF14E#16 ∨ op = 0xF165#16) →
      decodeOp op imm = .error .fxxxUnlisted)

/-- The Exxx group (R190, R205): the six bit-operation patterns with `bb = op[5:4]`, the shift pattern with
`lll = op[6:4]`, and every other word rejected. -/
def Obligations.ExxxGroupDecodes : Prop :=
  ∀ (op imm : Word), fieldOp0 op = 0xE#4 → ¬(fieldOpa op = 7#3 ∧ fieldOp1 op < 2#3) →
    ∃ (fn : BitFn) (sh : ShiftFn), fn.num = op.extractLsb' 4 2 ∧ sh.num = op.extractLsb' 4 3 ∧
      decodeOp op imm =
        if op &&& 0xF1C8#16 = 0xE000#16 then .ok (.ofBit fn (fieldRd op) (.rRs (fieldRs op)))
        else if op &&& 0xF1C0#16 = 0xE040#16 then .ok (.ofBit fn (fieldRd op) (.rImm (op.extractLsb' 0 4)))
        else if op &&& 0xF1C8#16 = 0xE100#16 then .ok (.ofBit fn (fieldRd op) (.mRs (fieldRs op)))
        else if op &&& 0xF1C8#16 = 0xE140#16 then .ok (.ofBit fn (fieldRd op) (.dmRs (fieldRs op)))
        else if op &&& 0xF1C0#16 = 0xE180#16 then .ok (.ofBit fn (fieldRd op) (.mImm (op.extractLsb' 0 4)))
        else if op &&& 0xF1C0#16 = 0xE1C0#16 then .ok (.ofBit fn (fieldRd op) (.dmImm (op.extractLsb' 0 4)))
        else if op &&& 0xF188#16 = 0xE108#16 then .ok (.ofShift sh (fieldRd op) (fieldRs op))
        else .error .exxxUnlisted

/-- Which words of the remaining group are legal (R103, R220, R238, R273, R294). -/
def Obligations.RemainingGroupLegality : Prop :=
  ∀ (op imm : Word), fieldOp0 op ≠ 0xF#4 → fieldOp0 op ≠ 0xE#4 → ¬(fieldOpa op = 7#3 ∧ fieldOp1 op < 2#3) →
    ((∃ i, decodeOp op imm = .ok i) ↔
      if fieldOp1 op = 2#3 then
        op = 0x9A98#16 ∨
        (fieldOp0 op = 0xD#4 ∧ 1 ≤ (fieldOpn op).toNat ∧ (fieldOpn op).toNat ≤ (fieldOpa op).toNat + 1) ∨
        (fieldOp0 op = 0x9#4 ∧ 1 ≤ (fieldOpn op).toNat ∧ (fieldOpn op).toNat ≤ 7 - (fieldOpa op).toNat)
      else
        fieldOp0 op ≠ 0x5#4 ∧ fieldOp0 op ≠ 0x7#4 ∧
        (fieldOp0 op = 0xD#4 → fieldOp1 op = 0#3 ∨ fieldOp1 op = 3#3 ∨ fieldOp1 op = 7#3 ∨
          (fieldOp1 op = 4#3 ∧ (fieldOpn op = 2#3 ∨ fieldOpn op = 3#3))))

/-- The opcode word alone says whether a second word follows (R90, R104): exactly for the legal words of the ALU
operations and STORE with `op1 = 4` and `opn` 1, 2 or 3, for CALL and for GOTO. -/
def Obligations.TwoWordInstructions : Prop :=
  ∀ (op imm : Word) (i : Instr), decodeOp op imm = .ok i →
    takesSecondWord op = i.takesImm16 ∧
    (i.takesImm16 = true ↔
      (fieldOp0 op ≠ 0xE#4 ∧ fieldOp0 op ≠ 0xF#4 ∧ fieldOp1 op = 4#3 ∧
        (fieldOpn op = 1#3 ∨ fieldOpn op = 2#3 ∨ fieldOpn op = 3#3)) ∨
      op &&& 0xFFC0#16 = 0xF040#16 ∨ op &&& 0xFFC0#16 = 0xFE80#16)

/-- Words of the spec's own examples decode to the instructions they stand for. -/
def Obligations.ExampleWordsDecode : Prop :=
  decode [0x0245#16] = .ok (.addImm6 .r1 5#6, []) ∧
  decode [0x94CB#16] = .ok (.loadInd .r2 false .postDec .r3, []) ∧
  decode [0x030A#16, 0x1234#16] = .ok (.addImm16 .r1 .r2 0x1234#16, []) ∧
  decode [0xD698#16] = .ok (.push .r3 3#3 .sp, []) ∧
  decode [0x9A98#16] = .ok (.reti, []) ∧
  decode [0xE3EF#16] = .ok (.clrbDmImm .r1 15#4, []) ∧
  decode [0xF045#16, 0x2000#16] = .ok (.call 5#6 0x2000#16, []) ∧
  decode [0xEE41#16] = .ok (.jmp true 1#6, []) ∧
  decode [0xF160#16] = .error .fxxxUnlisted

/-! ## The step -/

/-- A step fetches, moves the program counter past the opcode word, executes the decoded instruction and then checks
interrupts once (R10). The words fetched are those the platform answers (R62). The record of accesses `bus`, the model's
field, starts anew with those of the fetch (log entry 3). -/
def Obligations.StepRunsDecodedInstruction : Prop :=
  ∀ (s : State) (i : Instr), s.faulted = none → i.wf = true → fetchWords i s = encode i →
    ∃ t, exec i (s.fetched i) = .next t ∧ step s = .next t.checkIrqs

/-- An illegal word (R310): the latch records the word and its address, the program counter has been advanced, nothing
else changes, no second word is fetched and the interrupt check is not run. The record of accesses `bus` is the
model's field (log entry 3). -/
def Obligations.IllegalWordSetsTheLatch : Prop :=
  ∀ (s : State) (e : Reject), s.faulted = none →
    let op := s.reply 0 (busAddr s.lpc)
    decodeOp op 0#16 = .error e →
    step s = .next { (({ s with
      bus := [.read (busAddr s.lpc) op]
      replies := s.replies.drop 1 } : State).advPc 1) with
      faulted := some { op := op, addr := s.lpc } }

/-- A faulted block (R40, R310, R322): it takes no step, whatever memory would answer, ignores line events in any number
and order, and only reset leaves the state. -/
def Obligations.LatchedBlockIsStuckUntilReset : Prop :=
  ∀ (s : State) (d : FaultRecord), s.faulted = some d →
    step s = .fault (.halted d) ∧
    (∀ ts : List Transition, (∀ replies, .reset replies ∉ ts) →
      run ts s = .next s ∨ run ts s = .fault (.halted d)) ∧
    s.deviceReset.faulted = none

/-- Which transitions are enabled (R374), whatever the platform answers to their reads (R62): a step if and only if
nothing is latched, line events and reset always, and a line event has no effect while something is latched. -/
def Obligations.TransitionsEnabled : Prop :=
  ∀ s : State, (∀ replies, (∃ t, transition (.step replies) s = .next t) ↔ s.faulted = none) ∧
    (∀ (line : Nat) (b : Bool), ∃ t, transition (.setInput line b) s = .next t ∧ (s.faulted ≠ none → t = s)) ∧
    ∀ replies, ∃ t, transition (.reset replies) s = .next t

/-- No instruction stops and none sets the fault latch (R310, R311): each answers a next state in every state, with
every operand, and the latch is the decoder's alone. -/
def Obligations.EveryInstructionCompletes : Prop :=
  ∀ (i : Instr) (s : State), ∃ t, exec i s = .next t ∧ t.faulted = s.faulted

/-- The program counter moves as one 22-bit number: CS takes the carry, the other bits of SR, every other register and
memory stay (R25). -/
def Obligations.ProgramCounterAdvances : Prop :=
  ∀ (s : State) (k : Int),
    (s.advPc k).lpc.toNat = ((s.lpc.toNat + k) % 2 ^ 22).toNat ∧
    srDs (s.advPc k).sr = srDs s.sr ∧ SameFlags s (s.advPc k) ∧ SameRegsBut [.sr, .pc] s (s.advPc k) ∧
    SameMemBut [] s (s.advPc k) ∧ Performs [] s (s.advPc k) ∧ (s.advPc k).sb = s.sb ∧ SameControl s (s.advPc k)

/-- A store into the instruction stream is seen by the very next fetch (R73), where memory is plain storage (R70, log
entry 4: a read that the platform has not settled on otherwise). `MemWrite` is the one operation that stores, whatever
the instruction: after it has written `v` at any address `a`, a state with that memory fetches `v` as its opcode word if
its program counter is at `a`, and as its second word if the address after its program counter is `a`. -/
def Obligations.StoreIsSeenByTheNextFetch : Prop :=
  ∀ (s u : State) (a : Addr) (v : Word), u.mem = (s.memWrite a v).mem →
    (PlainReads 1 u → busAddr u.lpc = a → u.fetch.op = v) ∧
    (PlainReads 2 u → busAddr (u.lpc + 1) = a → takesSecondWord u.fetch.op = true → u.fetch.words = [u.fetch.op, v])

/-! ## Invariants and rules of the whole machine -/

/-- Every step keeps the invariant. Its clauses on memory's canonical form and on the record `bus` are about the model's
own representation (log entries 1 to 3). -/
def Obligations.StepKeepsInvariant : Prop :=
  ∀ s t : State, Inv s → step s = .next t → Inv t

/-- The invariant holds at reset, and a reset makes one access, the read of its vector (R360). That memory is empty
there and that an unwritten byte reads 0x00 are the model's choices (log entry 1), as is the record of accesses `bus`
(log entry 3). -/
def Obligations.ResetSatisfiesInvariant : Prop :=
  Inv State.reset ∧ ∀ s : State, s.deviceReset.bus = [.read 0x00FFF7#23 (s.reply 0 0x00FFF7#23)] ∧
    s.deviceReset.replies = s.replies.drop 1

/-- Every transition, in any interleaving of steps, line events and resets and whatever the platform answers to their
reads, keeps the invariant (R374), with the same clauses on the model's own representation (log entries 1 to 3). -/
def Obligations.TransitionsKeepInvariant : Prop :=
  ∀ (ts : List Transition) (s t : State), Inv s → run ts s = .next t → Inv t

/-- The enables are written by the eight interrupt-enable instructions and by reset alone (R34): no other instruction,
no interrupt check and no line event changes them. -/
def Obligations.EnablesWrittenOnlyByTheEight : Prop :=
  (∀ (i : Instr) (s t : State), i ∉ enableInstrs → exec i s = .next t →
    t.enableIrq = s.enableIrq ∧ t.enableFiq = s.enableFiq) ∧
  (∀ s : State, s.checkIrqs.enableIrq = s.enableIrq ∧ s.checkIrqs.enableFiq = s.enableFiq) ∧
  (∀ (s : State) (line : Nat) (b : Bool),
    (s.setInput line b).enableIrq = s.enableIrq ∧ (s.setInput line b).enableFiq = s.enableFiq) ∧
  (∀ s : State, s.deviceReset.enableIrq = false ∧ s.deviceReset.enableFiq = false)

/-- No step changes the pending mask: taking an interrupt does not clear its bit, nor does RETI (R38, R322). -/
def Obligations.StepKeepsPendingMask : Prop :=
  ∀ s t : State, step s = .next t → t.sirq = s.sirq

/-- No instruction but RETI writes `irq`, `fiq`, `curirq` or a saved SB (R35, R37, R39, R331). -/
def Obligations.InServiceStateWrittenOnlyByReturn : Prop :=
  ∀ (i : Instr) (s t : State), i ≠ .reti → exec i s = .next t →
    t.irq = s.irq ∧ t.fiq = s.fiq ∧ t.curirq = s.curirq ∧ t.savedSb0 = s.savedSb0 ∧ t.savedSb1 = s.savedSb1 ∧
      t.savedSb2 = s.savedSb2

/-- No instruction but the shifted operand forms and RETI writes SB (R36). -/
def Obligations.ShiftBufferWriters : Prop :=
  ∀ (i : Instr) (s t : State), writesSb i = false → exec i s = .next t → t.sb = s.sb

/-- An instruction that stores nothing leaves every byte of memory (R65, R75). -/
def Obligations.MemoryWrittenOnlyByStoringInstructions : Prop :=
  ∀ (i : Instr) (s t : State), storesMemory i = false → exec i s = .next t → SameMemBut [] s t

/-! ## The Fxxx group -/

/-- MUL_US and MUL_SS (R131, R132): their words; the exact product, the first operand unsigned or signed, in
MR = R4:R3; no flag and no other register changes. -/
def Obligations.MultipliesGiveTheExactProduct : Prop :=
  ∀ (rd rs : Reg) (s : State),
    encode (.mulUs rd rs) = [0xF#4 ++ rd.num ++ 0b000001#6 ++ rs.num] ∧
    encode (.mulSs rd rs) = [0xF#4 ++ rd.num ++ 0b100001#6 ++ rs.num] ∧
    (∃ t, exec (.mulUs rd rs) s = .next t ∧ (t.r4 ++ t.r3).toInt = ((s.reg rd).toNat : Int) * (s.reg rs).toInt ∧
      SameRegsBut [.r3, .r4] s t ∧ SameMemBut [] s t ∧ Performs [] s t ∧ t.sb = s.sb ∧ SameControl s t) ∧
    (∃ t, exec (.mulSs rd rs) s = .next t ∧ (t.r4 ++ t.r3).toInt = (s.reg rd).toInt * (s.reg rs).toInt ∧
      SameRegsBut [.r3, .r4] s t ∧ SameMemBut [] s t ∧ Performs [] s t ∧ t.sb = s.sb ∧ SameControl s t)

/-- CALL (R133): with `r` the program counter past the second word, `r`'s offset at [SP] and SR with `r`'s segment
below it, SP two lower, the target in CS and PC, DS and the flags kept. -/
def Obligations.CallPushesReturnAndJumps : Prop :=
  ∀ (seg : BitVec 6) (addr : Word) (s : State), ∃ t, exec (.call seg addr) s = .next t ∧
    t.pc = addr ∧ srCs t.sr = seg ∧ srDs t.sr = srDs s.sr ∧ SameFlags s t ∧ t.sp = s.sp - 2 ∧
    t.mem.word (segZero s.sp) = (s.lpc + 1).extractLsb' 0 16 ∧
    t.mem.word (segZero (s.sp - 1)) = withCs ((s.lpc + 1).extractLsb' 16 6) s.sr ∧
    SameMemBut [segZero s.sp, segZero (s.sp - 1)] s t ∧ SameRegsBut [.sp, .sr, .pc] s t ∧
    Performs [.write (segZero s.sp) ((s.lpc + 1).extractLsb' 0 16),
      .write (segZero (s.sp - 1)) (withCs ((s.lpc + 1).extractLsb' 16 6) s.sr)] s t ∧
    t.sb = s.sb ∧ SameControl s t

/-- GOTO (R134): the target in CS and PC; nothing is pushed and nothing else changes. -/
def Obligations.GotoJumpsFar : Prop :=
  ∀ (seg : BitVec 6) (addr : Word) (s : State), ∃ t, exec (.goto seg addr) s = .next t ∧
    t.lpc = segOff seg addr ∧ srDs t.sr = srDs s.sr ∧ SameFlags s t ∧ SameRegsBut [.sr, .pc] s t ∧
    SameMemBut [] s t ∧ Performs [] s t ∧ t.sb = s.sb ∧ SameControl s t

/-- CALL and `retf`, the POP word 0x9A90 (R133, R293): popping SR and PC right after a CALL goes on at the word after
the CALL with the caller's SR, SP and registers, where the stack is plain storage (R70, log entry 4). -/
def Obligations.ReturnFromCallRestoresTheCaller : Prop :=
  ∀ (seg : BitVec 6) (addr : Word) (s t : State), PlainReads 2 s → exec (.call seg addr) s = .next t →
    decode [0x9A90#16] = .ok (.pop .bp 2#3 .sp, []) ∧
    ∃ u, exec (.pop .bp 2#3 .sp) t = .next u ∧ u.lpc = s.lpc + 1 ∧ srDs u.sr = srDs s.sr ∧ SameFlags s u ∧
      SameRegsBut [.sr, .pc] s u ∧ u.mem = t.mem ∧ u.sb = s.sb ∧ SameControl s u

/-- The eight interrupt-enable instructions and NOP (R135 to R143): their words, the two enables as each says, nothing
else. -/
def Obligations.InterruptEnableInstructions : Prop :=
  ∀ s : State,
    let does (word : Word) (i : Instr) (t : State) : Prop := decode [word] = .ok (i, []) ∧ exec i s = .next t
    does 0xF140#16 .intOff { s with enableIrq := false, enableFiq := false } ∧
    does 0xF141#16 .intIrq { s with enableIrq := true, enableFiq := false } ∧
    does 0xF142#16 .intFiq { s with enableIrq := false, enableFiq := true } ∧
    does 0xF143#16 .intFiqIrq { s with enableIrq := true, enableFiq := true } ∧
    does 0xF148#16 .irqOff { s with enableIrq := false } ∧
    does 0xF149#16 .irqOn { s with enableIrq := true } ∧
    does 0xF14C#16 .fiqOff { s with enableFiq := false } ∧
    does 0xF14E#16 .fiqOn { s with enableFiq := true } ∧
    does 0xF165#16 .nop s

/-! ## The jump group -/

/-- The fifteen jumps (R160 to R175): the condition of each on the flags, the target on the 22-bit program counter, and
nothing else changed. -/
def Obligations.JumpsGoWhereTheirConditionSays : Prop :=
  ∀ (back : Bool) (imm6 : BitVec 6) (s : State),
    let goes (i : Instr) (taken : Bool) : Prop := ∃ t, exec i s = .next t ∧
      t.lpc = (if taken then jumpTarget back imm6 s else s.lpc) ∧ srDs t.sr = srDs s.sr ∧ SameFlags s t ∧
      SameRegsBut [.sr, .pc] s t ∧ SameMemBut [] s t ∧ Performs [] s t ∧ t.sb = s.sb ∧ SameControl s t
    let n := s.sr.getLsbD 9
    let z := s.sr.getLsbD 8
    let sg := s.sr.getLsbD 7
    let c := s.sr.getLsbD 6
    goes (.jb back imm6) (!c) ∧ goes (.jae back imm6) c ∧ goes (.jge back imm6) (!sg) ∧ goes (.jl back imm6) sg ∧
    goes (.jne back imm6) (!z) ∧ goes (.je back imm6) z ∧ goes (.jpl back imm6) (!n) ∧ goes (.jmi back imm6) n ∧
    goes (.jbe back imm6) (z || !c) ∧ goes (.ja back imm6) (!z && c) ∧ goes (.jle back imm6) (z || sg) ∧
    goes (.jg back imm6) (!z && !sg) ∧ goes (.jvc back imm6) (n == sg) ∧ goes (.jvs back imm6) (n != sg) ∧
    goes (.jmp back imm6) true

/-- What the conditions mean after `cmp Rd, Rs` (R160, R265): unsigned and signed order, equality, the sign of the
16-bit difference, and JVS exactly on signed overflow of the subtraction. -/
def Obligations.JumpConditionsAfterCompare : Prop :=
  ∀ (rd rs : Reg) (s : State), rd ≠ .pc → ∃ t, exec (.cmpReg rd rs) s = .next t ∧
    let a := s.reg rd
    let b := s.reg rs
    (condHolds .jb t.sr = true ↔ a.toNat < b.toNat) ∧ (condHolds .jae t.sr = true ↔ b.toNat ≤ a.toNat) ∧
    (condHolds .jge t.sr = true ↔ b.toInt ≤ a.toInt) ∧ (condHolds .jl t.sr = true ↔ a.toInt < b.toInt) ∧
    (condHolds .jne t.sr = true ↔ a ≠ b) ∧ (condHolds .je t.sr = true ↔ a = b) ∧
    (condHolds .jpl t.sr = true ↔ 0 ≤ (a - b).toInt) ∧ (condHolds .jmi t.sr = true ↔ (a - b).toInt < 0) ∧
    (condHolds .jbe t.sr = true ↔ a.toNat ≤ b.toNat) ∧ (condHolds .ja t.sr = true ↔ b.toNat < a.toNat) ∧
    (condHolds .jle t.sr = true ↔ a.toInt ≤ b.toInt) ∧ (condHolds .jg t.sr = true ↔ b.toInt < a.toInt) ∧
    (condHolds .jvs t.sr = true ↔ (a - b).toInt ≠ a.toInt - b.toInt) ∧
    (condHolds .jvc t.sr = true ↔ (a - b).toInt = a.toInt - b.toInt)

/-! ## The Exxx group -/

/-- The bit operations on a register (R191 to R195, the forms R_RS and R_IMM): Z is the complement of the old bit; the
bit changes as the operation says, in SR after the update of Z; no other bit, register or flag changes. -/
def Obligations.BitOperationsOnRegisters : Prop :=
  ∀ (fn : BitFn) (rd : Reg) (f : BitForm) (s : State), bitFormAddr rd f s = none →
    let off := (bitFormOff f s).toNat
    let z := withZ (!(s.reg rd).getLsbD off) s.sr
    let old := if rd = .sr then z else s.reg rd
    ∃ t, exec (.ofBit fn rd f) s = .next t ∧
      (∀ k, (t.reg rd).getLsbD k = if k = off then bitAfter fn (old.getLsbD k) else old.getLsbD k) ∧
      (rd ≠ .sr → t.sr = z) ∧ SameRegsBut [rd, .sr] s t ∧ SameMemBut [] s t ∧ Performs [] s t ∧ t.sb = s.sb ∧
      SameControl s t

/-- The bit operations on memory (R191 to R195, the forms M_RS, DM_RS, M_IMM, DM_IMM): one read, of whatever word the
platform answers; Z is the complement of the old bit; TSTB writes nothing, the others write that word with the bit
changed, even if it was so already. -/
def Obligations.BitOperationsOnMemory : Prop :=
  ∀ (fn : BitFn) (rd : Reg) (f : BitForm) (s : State) (a : Addr), bitFormAddr rd f s = some a →
    let off := (bitFormOff f s).toNat
    let old := s.reply 0 a
    ∃ t v, exec (.ofBit fn rd f) s = .next t ∧
      (∀ k, v.getLsbD k = if k = off then bitAfter fn (old.getLsbD k) else old.getLsbD k) ∧
      (fn ≠ .tstb → t.mem.word a = v) ∧
      t.sr = withZ (!old.getLsbD off) s.sr ∧ SameRegsBut [.sr] s t ∧
      SameMemBut (if fn = .tstb then [] else [a]) s t ∧
      Performs (.read a old :: if fn = .tstb then [] else [.write a v]) s t ∧ t.sb = s.sb ∧
      SameControl s t

/-- The plain register-count shifts (R197, R199, R201, R203, R204): their words; ASR divides the signed value by 2^n
rounding down, LSR the unsigned value, LSL multiplies modulo 2^16, ROL and ROR rotate; n is the low five bits of Rs;
only `Rd` is written. -/
def Obligations.RegisterShifts : Prop :=
  ∀ (rd rs : Reg) (s : State),
    let only (i : Instr) (lll : BitVec 3) (p : Word → Prop) : Prop :=
      encode i = [0xE#4 ++ rd.num ++ 1#1 ++ 0#1 ++ lll ++ 1#1 ++ rs.num] ∧ ∃ t, exec i s = .next t ∧ p (t.reg rd) ∧
      SameRegsBut [rd] s t ∧ SameMemBut [] s t ∧ Performs [] s t ∧ t.sb = s.sb ∧ SameControl s t
    let n := shiftBy rs s
    only (.rasr rd rs) 0#3 (fun v => v.toInt = (s.reg rd).toInt / 2 ^ n) ∧
    only (.rlsr rd rs) 4#3 (fun v => v.toNat = (s.reg rd).toNat / 2 ^ n) ∧
    only (.rlsl rd rs) 2#3 (fun v => v.toNat = (s.reg rd).toNat * 2 ^ n % 2 ^ 16) ∧
    only (.rrol rd rs) 6#3 (fun v => ∀ k < 16, v.getLsbD ((k + n) % 16) = (s.reg rd).getLsbD k) ∧
    only (.rror rd rs) 7#3 (fun v => ∀ k < 16, v.getLsbD k = (s.reg rd).getLsbD ((k + n) % 16))

/-- The "or" shifts (R198, R200, R202): their words; MR receives the OR of itself and the 32-bit shift `V` of R196,
which keeps the bits shifted out; `Rd` is written only if it is R3 or R4, no flag changes. -/
def Obligations.OrShiftsAccumulateIntoMr : Prop :=
  ∀ (rd rs : Reg) (s : State),
    let into (i : Instr) (lll : BitVec 3) (p : BitVec 32 → Prop) : Prop :=
      encode i = [0xE#4 ++ rd.num ++ 1#1 ++ 0#1 ++ lll ++ 1#1 ++ rs.num] ∧ ∃ t v, exec i s = .next t ∧ p v ∧
      t.r4 = s.r4 ||| v.extractLsb' 16 16 ∧ t.r3 = s.r3 ||| v.extractLsb' 0 16 ∧
      SameRegsBut [.r3, .r4] s t ∧ SameMemBut [] s t ∧ Performs [] s t ∧ t.sb = s.sb ∧ SameControl s t
    let n := shiftBy rs s
    into (.rasror rd rs) 1#3 (fun v => v.toInt = (s.reg rd).toInt * 2 ^ 16 / 2 ^ n) ∧
    into (.rlsror rd rs) 5#3 (fun v => v.toNat = (s.reg rd).toNat * 2 ^ 16 / 2 ^ n) ∧
    into (.rlslor rd rs) 3#3 (fun v => v.toNat = (s.reg rd).toNat * 2 ^ n % 2 ^ 32)

/-! ## The ALU -/

/-- The flags after ADD, ADC, SUB, SBC and CMP as numbers (R29, R274), and DS and CS kept. -/
def Obligations.ArithmeticFlagTruth : Prop :=
  ∀ (op : AluOp) (a b : Word) (c : Bool) (sr : Word),
    let v := aluValue op a b c
    let after := aluFlags op a b v sr
    ((op = .add ∨ op = .adc ∨ op = .sub ∨ op = .sbc ∨ op = .cmp) →
      srN after = v.getLsbD 15 ∧ (srZ after = true ↔ v.toNat % 2 ^ 16 = 0) ∧ (srC after = true ↔ 2 ^ 16 ≤ v.toNat) ∧
      srDs after = srDs sr ∧ srCs after = srCs sr) ∧
    ((op = .add ∨ op = .adc) → (srS after = true ↔ a.toInt + b.toInt < -1)) ∧
    ((op = .sub ∨ op = .sbc ∨ op = .cmp) → (srS after = true ↔ a.toInt < b.toInt)) ∧
    ((op = .sub ∨ op = .cmp) → (srC after = true ↔ b.toNat ≤ a.toNat))

/-- The arithmetic operations between registers (R261 to R265), with a destination that is neither SR nor PC: the
result, the four flags as numbers, and nothing else changed. CMP writes no result. -/
def Obligations.RegisterArithmetic : Prop :=
  ∀ (rd rs : Reg) (s : State), rd ≠ .sr → rd ≠ .pc →
    let a := s.reg rd
    let b := s.reg rs
    let cin : Nat := if srC s.sr then 1 else 0
    let gives (i : Instr) (result : Word) (value : Word) (carry less : Prop) : Prop := ∃ t, exec i s = .next t ∧
      t.reg rd = result ∧ srN t.sr = value.msb ∧ (srZ t.sr = true ↔ value = 0#16) ∧ (srS t.sr = true ↔ less) ∧
      (srC t.sr = true ↔ carry) ∧ srDs t.sr = srDs s.sr ∧ srCs t.sr = srCs s.sr ∧ SameRegsBut [rd, .sr] s t ∧
      SameMemBut [] s t ∧ Performs [] s t ∧ t.sb = s.sb ∧ SameControl s t
    let sum := a + b
    let sumC := a + b + BitVec.ofNat 16 cin
    let dif := a - b
    let difC := a - b - BitVec.ofNat 16 (1 - cin)
    gives (.addReg rd rs) sum sum (2 ^ 16 ≤ a.toNat + b.toNat) (a.toInt + b.toInt < -1) ∧
    gives (.adcReg rd rs) sumC sumC (2 ^ 16 ≤ a.toNat + b.toNat + cin) (a.toInt + b.toInt < -1) ∧
    gives (.subReg rd rs) dif dif (b.toNat ≤ a.toNat) (a.toInt < b.toInt) ∧
    gives (.sbcReg rd rs) difC difC (b.toNat + (1 - cin) ≤ a.toNat) (a.toInt < b.toInt) ∧
    gives (.cmpReg rd rs) a dif (b.toNat ≤ a.toNat) (a.toInt < b.toInt)

/-- The logical operations, NEG and LOAD between registers (R266 to R271), with a destination that is neither SR nor
PC: the result, N and Z from it, S and C kept, and nothing else changed. TEST writes no result. -/
def Obligations.RegisterLogic : Prop :=
  ∀ (rd rs : Reg) (s : State), rd ≠ .sr → rd ≠ .pc →
    let a := s.reg rd
    let b := s.reg rs
    let gives (i : Instr) (result value : Word) : Prop := ∃ t, exec i s = .next t ∧
      t.reg rd = result ∧ srN t.sr = value.msb ∧ (srZ t.sr = true ↔ value = 0#16) ∧ srS t.sr = srS s.sr ∧
      srC t.sr = srC s.sr ∧ srDs t.sr = srDs s.sr ∧ srCs t.sr = srCs s.sr ∧ SameRegsBut [rd, .sr] s t ∧
      SameMemBut [] s t ∧ Performs [] s t ∧ t.sb = s.sb ∧ SameControl s t
    gives (.negReg rd rs) (-b) (-b) ∧ gives (.xorReg rd rs) (a ^^^ b) (a ^^^ b) ∧ gives (.loadReg rd rs) b b ∧
    gives (.orReg rd rs) (a ||| b) (a ||| b) ∧ gives (.andReg rd rs) (a &&& b) (a &&& b) ∧
    gives (.testReg rd rs) a (a &&& b)

/-- An ALU operation whose destination is SR or PC (R30, R260), register form: a result written to SR replaces the
flags just computed; with PC no flag changes and the result is the new offset. CMP and TEST of SR set the flags. -/
def Obligations.AluDestinationStatusOrProgramCounter : Prop :=
  ∀ (op : AluOp) (rs : Reg) (s : State),
    (∃ t, exec (.ofAlu op .sr (.reg rs)) s = .next t ∧
      t.sr = (if aluWrites op then (aluValue op s.sr (s.reg rs) (srC s.sr)).setWidth 16
        else aluFlags op s.sr (s.reg rs) (aluValue op s.sr (s.reg rs) (srC s.sr)) s.sr) ∧
      SameRegsBut [.sr] s t ∧ SameMemBut [] s t ∧ Performs [] s t ∧ t.sb = s.sb ∧ SameControl s t) ∧
    (∃ t, exec (.ofAlu op .pc (.reg rs)) s = .next t ∧ t.sr = s.sr ∧
      t.pc = (if aluWrites op then (aluValue op s.pc (s.reg rs) (srC s.sr)).setWidth 16 else s.pc) ∧
      SameRegsBut [.pc] s t ∧ SameMemBut [] s t ∧ Performs [] s t ∧ t.sb = s.sb ∧ SameControl s t)

/-- The eleven computing operations in the forms BP6, IMM6, REG and A6 (R221, R222, R228, R237): the second operand of
each form, the one read of the memory forms, and the effect of R260 on the state before. -/
def Obligations.AluOneWordForms : Prop :=
  ∀ (op : AluOp) (rd : Reg) (s : State),
    (∀ imm6 : BitVec 6, let a : Addr := segZero (s.bp + imm6.setWidth 16)
      ∃ t, exec (.ofAlu op rd (.bp6 imm6)) s = .next t ∧
        AluToRegister op rd (s.reg rd) (s.reply 0 a) (s.afterRead a) t) ∧
    (∀ imm6 : BitVec 6, ∃ t, exec (.ofAlu op rd (.imm6 imm6)) s = .next t ∧
      AluToRegister op rd (s.reg rd) (imm6.setWidth 16) s t) ∧
    (∀ rs : Reg, ∃ t, exec (.ofAlu op rd (.reg rs)) s = .next t ∧
      AluToRegister op rd (s.reg rd) (s.reg rs) s t) ∧
    (∀ imm6 : BitVec 6, let a : Addr := imm6.setWidth 23
      ∃ t, exec (.ofAlu op rd (.a6 imm6)) s = .next t ∧
        AluToRegister op rd (s.reg rd) (s.reply 0 a) (s.afterRead a) t)

/-- The plain indirect forms of the eleven computing operations (R223 to R226, R239): the address is `x[Rs]` in segment
0, before the decrement or increment or after the pre-increment; the first operand is `x[Rd]` as it was before; the
base is changed before the result is written. -/
def Obligations.AluIndirectForms : Prop :=
  ∀ (op : AluOp) (rd rs : Reg) (s : State),
    let x := s.reg rs
    let runs (mode : IndMode) (off base : Word) : Prop :=
      ∃ t, exec (.ofAlu op rd (.ind false mode rs)) s = .next t ∧
        AluToRegister op rd (s.reg rd) (s.reply 0 (segZero off)) ((s.afterRead (segZero off)).setReg rs base) t
    runs .plain x x ∧ runs .postDec x (x - 1) ∧ runs .postInc x (x + 1) ∧ runs .preInc (x + 1) (x + 1)

/-- The `DS:` indirect forms of the eleven computing operations with a base other than SR (R227): `(DS, Rs)` is one
22-bit pointer `p`; the access is at `p`, or at `p + 1` with pre-increment, and the pair then holds `p`, `p - 1` or
`p + 1`, the flags and CS kept by the change of the pair. -/
def Obligations.AluDataSegmentForms : Prop :=
  ∀ (op : AluOp) (rd rs : Reg) (s : State), rs ≠ .sr →
    let p := segOff (srDs s.sr) (s.reg rs)
    let runs (mode : IndMode) (a q : ProgAddr) : Prop :=
      ∃ b t, exec (.ofAlu op rd (.ind true mode rs)) s = .next t ∧
        segOff (srDs b.sr) (b.reg rs) = q ∧ srCs b.sr = srCs s.sr ∧ SameFlags s b ∧ SameRegsBut [rs, .sr] s b ∧
        SameMemBut [] s b ∧ Performs [.read (busAddr a) (s.reply 0 (busAddr a))] s b ∧ b.sb = s.sb ∧
        SameControl s b ∧ AluToRegister op rd (s.reg rd) (s.reply 0 (busAddr a)) b t
    runs .plain p p ∧ runs .postDec p (p - 1) ∧ runs .postInc p (p + 1) ∧ runs .preInc (p + 1) (p + 1)

/-- The `DS:` indirect forms with SR itself as the base (R227): the statements of the rule in the order written. SR is
both the offset and the holder of DS. -/
def Obligations.AluDataSegmentBaseStatus : Prop :=
  ∀ (op : AluOp) (rd : Reg) (s : State),
    let up := if s.sr + 1 = 0#16 then s.sr + 1 + 0x0400#16 else s.sr + 1
    let down := if s.sr - 1 = 0xFFFF#16 then s.sr - 1 - 0x0400#16 else s.sr - 1
    let runs (mode : IndMode) (off base : Word) : Prop :=
      let a := busAddr (segOff (srDs off) off)
      ∃ t, exec (.ofAlu op rd (.ind true mode .sr)) s = .next t ∧
        AluToRegister op rd (s.reg rd) (s.reply 0 a) { s.afterRead a with sr := base } t
    runs .plain s.sr s.sr ∧ runs .postDec s.sr down ∧ runs .postInc s.sr up ∧ runs .preInc up up

/-- The two-word forms of the eleven computing operations to a register (R229, R230): the first operand is `x[Rs]`,
read before the program counter passes the second word; the second is that word, or the word at its address in
segment 0. -/
def Obligations.AluTwoWordForms : Prop :=
  ∀ (op : AluOp) (rd rs : Reg) (w : Word) (s : State),
    (∃ t, exec (.ofAlu op rd (.imm16 rs w)) s = .next t ∧ AluToRegister op rd (s.reg rs) w (s.advPc 1) t) ∧
    (∃ t, exec (.ofAlu op rd (.a16 rs w)) s = .next t ∧
      AluToRegister op rd (s.reg rs) (s.reply 0 (segZero w)) ((s.afterRead (segZero w)).advPc 1) t)

/-- The form TOA16 of the eleven computing operations (R231): operands `x[Rs]` and `x[Rd]`; the result goes to the
second word's address in segment 0, which is not read; CMP and TEST write nothing; no register but PC and SR changes,
and with `Rd` = PC no flag. -/
def Obligations.AluToMemoryForm : Prop :=
  ∀ (op : AluOp) (rd rs : Reg) (w : Word) (s : State), ∃ t, exec (.ofAlu op rd (.toA16 rs w)) s = .next t ∧
    let v := aluValue op (s.reg rs) (s.reg rd) (srC s.sr)
    (aluWrites op = true → t.mem.word (segZero w) = v.setWidth 16) ∧
    SameMemBut (if aluWrites op then [segZero w] else []) s t ∧
    Performs (if aluWrites op then [.write (segZero w) (v.setWidth 16)] else []) s t ∧
    t.sr = (if rd = .pc then (s.advPc 1).sr else aluFlags op (s.reg rs) (s.reg rd) v (s.advPc 1).sr) ∧
    t.lpc = s.lpc + 1 ∧ SameRegsBut [.sr, .pc] s t ∧ t.sb = s.sb ∧ SameControl s t

/-- The shifted forms of the eleven computing operations (R232 to R236): with count n = nn + 1, the 20 bits of Rs and
SB together shift or rotate by n; the second operand and the new SB are their two parts, and the effect of R260
follows. -/
def Obligations.AluShiftedForms : Prop :=
  ∀ (op : AluOp) (rd rs : Reg) (nn : BitVec 2) (s : State),
    let n := nn.toNat + 1
    let x := s.reg rs
    let high := x ++ s.sb
    let low := s.sb ++ x
    let runs (f : Form) (p : Word → BitVec 4 → Prop) : Prop :=
      ∃ r1 sb t, p r1 sb ∧ exec (.ofAlu op rd f) s = .next t ∧ AluToRegister op rd (s.reg rd) r1 { s with sb := sb } t
    runs (.asr nn rs) (fun r1 sb => (r1 ++ sb).toInt = high.toInt / 2 ^ n) ∧
    runs (.lsr nn rs) (fun r1 sb => (r1 ++ sb).toNat = high.toNat / 2 ^ n) ∧
    runs (.lsl nn rs) (fun r1 sb => (sb ++ r1).toNat = low.toNat * 2 ^ n % 2 ^ 20) ∧
    runs (.rol nn rs) (fun r1 sb => sb ++ r1 = low.rotateLeft n) ∧
    runs (.ror nn rs) (fun r1 sb => r1 ++ sb = high.rotateRight n)

/-- STORE to BP6, A6, A16 and TOA16 (R272): one write and no read; the value is `x[Rd]`, and `x[Rs]` in the two-word
forms, which also move the program counter; no flag, no other register. -/
def Obligations.StoreForms : Prop :=
  ∀ (rd : Reg) (s : State),
    let stores (i : Instr) (a : Addr) (v : Word) (b : State) : Prop := ∃ t, exec i s = .next t ∧
      t.mem.word a = v ∧ SameMemBut [a] s t ∧ Performs [.write a v] s t ∧ SameRegsBut [] b t ∧ t.sb = s.sb ∧
      SameControl s t
    (∀ imm6 : BitVec 6, stores (.storeBp6 rd imm6) (segZero (s.bp + imm6.setWidth 16)) (s.reg rd) s) ∧
    (∀ imm6 : BitVec 6, stores (.storeA6 rd imm6) (imm6.setWidth 23) (s.reg rd) s) ∧
    (∀ (rs : Reg) (w : Word), stores (.storeA16 rd rs w) (segZero w) (s.reg rs) (s.advPc 1)) ∧
    (∀ (rs : Reg) (w : Word), stores (.storeToA16 rd rs w) (segZero w) (s.reg rs) (s.advPc 1))

/-- STORE to the indirect forms (R223 to R227, R239, R272): the value is `x[Rd]` as it was before the base changed; with
`DS:` and a base other than SR the pair `(DS, Rs)` is one 22-bit pointer; with SR as the base the statements of R227 in
their order. One write, no read; the flags and CS stay but for what a base of SR changes of itself. -/
def Obligations.StoreIndirectForms : Prop :=
  ∀ (rd rs : Reg) (s : State),
    let x := s.reg rs
    let p := segOff (srDs s.sr) x
    let up := if s.sr + 1 = 0#16 then s.sr + 1 + 0x0400#16 else s.sr + 1
    let down := if s.sr - 1 = 0xFFFF#16 then s.sr - 1 - 0x0400#16 else s.sr - 1
    let stores (ds : Bool) (mode : IndMode) (a : Addr) (q : State → Prop) : Prop :=
      ∃ t, exec (.storeInd rd ds mode rs) s = .next t ∧ t.mem.word a = s.reg rd ∧ SameMemBut [a] s t ∧
        Performs [.write a (s.reg rd)] s t ∧ q t ∧ t.sb = s.sb ∧ SameControl s t
    let base (v : Word) (t : State) : Prop := t.reg rs = v ∧ SameRegsBut [rs] s t
    let pair (q : ProgAddr) (t : State) : Prop := segOff (srDs t.sr) (t.reg rs) = q ∧ srCs t.sr = srCs s.sr ∧
      SameFlags s t ∧ SameRegsBut [rs, .sr] s t
    stores false .plain (segZero x) (base x) ∧ stores false .postDec (segZero x) (base (x - 1)) ∧
    stores false .postInc (segZero x) (base (x + 1)) ∧ stores false .preInc (segZero (x + 1)) (base (x + 1)) ∧
    (rs ≠ .sr →
      stores true .plain (busAddr p) (pair p) ∧ stores true .postDec (busAddr p) (pair (p - 1)) ∧
      stores true .postInc (busAddr p) (pair (p + 1)) ∧ stores true .preInc (busAddr (p + 1)) (pair (p + 1))) ∧
    (rs = .sr →
      stores true .plain (busAddr p) (base x) ∧ stores true .postDec (busAddr p) (base down) ∧
      stores true .postInc (busAddr p) (base up) ∧ stores true .preInc (busAddr (segOff (srDs up) up)) (base up))

/-! ## The stack -/

/-- `Push` then `Pop` through the same register (R33): the register comes back, across its wrap as well, and so does the
value, provided that memory returns at the pop the word written at the push, as plain storage does (R70, log entry 4:
a read that the platform has not settled on otherwise). -/
def Obligations.PushThenPopIsTheIdentity : Prop :=
  ∀ (s : State) (v : Word) (r : Reg),
    (PlainReads 1 s → ((s.push v r).pop r).1 = v) ∧ ((s.push v r).pop r).2.reg r = s.reg r ∧
    SameRegsBut [] s ((s.push v r).pop r).2 ∧ SameMemBut [segZero (s.reg r)] s ((s.push v r).pop r).2

/-- PUSH (R290): the k-th register of the list, counted down from `Rd`, goes to offset `x[Rb] - k` of segment 0; where
the list holds the stack register itself its already decremented value is stored; the stack register ends n lower; no
other register and no other byte changes. -/
def Obligations.PushStoresTheRegisters : Prop :=
  ∀ (rd rb : Reg) (n : BitVec 3) (s : State), pushLegal rd n = true →
    let top := s.reg rb
    let at_ (k : Nat) : Addr := segZero (top - BitVec.ofNat 16 k)
    let value (k : Nat) : Word := if regDown rd k = rb then top - BitVec.ofNat 16 k else s.reg (regDown rd k)
    ∃ t, exec (.push rd n rb) s = .next t ∧ t.reg rb = top - n.setWidth 16 ∧ SameRegsBut [rb] s t ∧
      (∀ k < n.toNat, t.mem.word (at_ k) = value k) ∧ SameMemBut ((List.range n.toNat).map at_) s t ∧
      Performs ((List.range n.toNat).map fun k => .write (at_ k) (value k)) s t ∧ t.sb = s.sb ∧ SameControl s t

/-- POP of one register (R291): the register above `Rd` receives the word above the stack register, which moves up by
one, unless it is itself the register popped. -/
def Obligations.PopOneRegister : Prop :=
  ∀ (rd rb : Reg) (s : State), rd ≠ .pc →
    let a : Addr := segZero (s.reg rb + 1)
    ∃ t, exec (.pop rd 1#3 rb) s = .next t ∧ t.reg (.ofNum (rd.num + 1)) = s.reply 0 a ∧
      (rb ≠ .ofNum (rd.num + 1) → t.reg rb = s.reg rb + 1) ∧ SameRegsBut [.ofNum (rd.num + 1), rb] s t ∧
      SameMemBut [] s t ∧ Performs [.read a (s.reply 0 a)] s t ∧ t.sb = s.sb ∧ SameControl s t

/-- POP of several registers (R291) is POP of the first and then of the rest, each from where the stack register then
points. -/
def Obligations.PopGoesUpOneRegisterAtATime : Prop :=
  ∀ (rd rb : Reg) (n : BitVec 3) (s : State), popLegal rd n = true → 2 ≤ n.toNat →
    ∃ t u, exec (.pop rd 1#3 rb) s = .next t ∧ exec (.pop (.ofNum (rd.num + 1)) (n - 1) rb) t = .next u ∧
      exec (.pop rd n rb) s = .next u

/-- POP undoes the PUSH whose lowest register is the one above `Rd` (R291, R33): where the stack register is not in the
list, PUSH and then the inverse POP restore every register, where the stack is plain storage (R70, log entry 4). -/
def Obligations.PopUndoesPush : Prop :=
  ∀ (hi rb : Reg) (n : BitVec 3) (s t : State), 1 ≤ n.toNat → n.toNat ≤ hi.num.toNat →
    (∀ k < n.toNat, regDown hi k ≠ rb) → PlainReads n.toNat s → exec (.push hi n rb) s = .next t →
    ∃ u, exec (.pop (regDown hi n.toNat) n rb) t = .next u ∧ SameRegsBut [] s u ∧ u.mem = t.mem

/-! ## Interrupts, events and reset -/

/-- RETI (R292): SR then PC from the two words above SP; `fiq` first, else `irq`, is cleared, the handler's SB parked
in its own slot and SB reloaded from slot 0; outside a handler SB and the slots stay; `curirq` is cleared. -/
def Obligations.ReturnFromInterrupt : Prop :=
  ∀ s : State, ∃ t, exec .reti s = .next t ∧
    t.sr = s.reply 0 (segZero (s.sp + 1)) ∧ t.pc = s.reply 1 (segZero (s.sp + 2)) ∧ t.sp = s.sp + 2 ∧
    SameRegsBut [.sr, .pc, .sp] s t ∧ SameMemBut [] s t ∧
    Performs [.read (segZero (s.sp + 1)) t.sr, .read (segZero (s.sp + 2)) t.pc] s t ∧
    t.curirq = 0#3 ∧ t.enableIrq = s.enableIrq ∧ t.enableFiq = s.enableFiq ∧ t.sirq = s.sirq ∧
    t.faulted = s.faulted ∧ t.savedSb0 = s.savedSb0 ∧
    (s.fiq = true → t.fiq = false ∧ t.irq = s.irq ∧ t.savedSb2 = s.sb ∧ t.savedSb1 = s.savedSb1 ∧
      t.sb = s.savedSb0) ∧
    (s.fiq = false → s.irq = true → t.irq = false ∧ t.fiq = false ∧ t.savedSb1 = s.sb ∧
      t.savedSb2 = s.savedSb2 ∧ t.sb = s.savedSb0) ∧
    (s.fiq = false → s.irq = false → t.irq = false ∧ t.fiq = false ∧ t.savedSb1 = s.savedSb1 ∧
      t.savedSb2 = s.savedSb2 ∧ t.sb = s.sb)

/-- The check enters the FIQ (R325, R327): with the FIQ pending and enabled and nothing in service, whatever IRQ is
pending too. -/
def Obligations.CheckTakesTheFiq : Prop :=
  ∀ s : State, s.sirq.getLsbD 8 = true → s.enableFiq = true → s.fiq = false → s.irq = false →
    EntersHandler s.savedSb2 0x00FFF6#23 s s.checkIrqs ∧ s.checkIrqs.fiq = true ∧ s.checkIrqs.irq = false ∧
      s.checkIrqs.curirq = s.curirq

/-- The check enters the least pending IRQ (R325, R328): with no FIQ pending, IRQs enabled and nothing in service. -/
def Obligations.CheckTakesTheLeastIrq : Prop :=
  ∀ (s : State) (line : BitVec 3), s.sirq.getLsbD 8 = false → s.sirq.getLsbD line.toNat = true →
    (∀ k < line.toNat, s.sirq.getLsbD k = false) → s.enableIrq = true → s.irq = false → s.fiq = false →
    EntersHandler s.savedSb1 (BitVec.ofNat 23 (0x00FFF8 + line.toNat)) s s.checkIrqs ∧ s.checkIrqs.irq = true ∧
      s.checkIrqs.fiq = false ∧ s.checkIrqs.curirq = line

/-- When the check changes nothing (R325, R326, R332): nothing pending; anything in service, so no nesting; a pending
FIQ that is disabled, which shadows every IRQ; only IRQs pending and IRQs disabled. -/
def Obligations.CheckRefusesAndShadows : Prop :=
  ∀ s : State,
    (s.sirq = 0#9 → s.checkIrqs = s) ∧
    (s.irq = true ∨ s.fiq = true → s.checkIrqs = s) ∧
    (s.sirq.getLsbD 8 = true → s.enableFiq = false → s.checkIrqs = s) ∧
    (s.sirq.getLsbD 8 = false → s.enableIrq = false → s.checkIrqs = s)

/-- Entry and RETI (R292, R327, R328): after an interrupt has been taken, a handler that leaves SP, the two stacked
words, slot 0 and the in-service bits as it found them returns by RETI to the interrupted PC, SR, SP and SB, with
nothing in service, where the stack is plain storage (R70, log entry 4). -/
def Obligations.ReturnUndoesEntry : Prop :=
  ∀ s h : State, s.irq = false → s.fiq = false → s.checkIrqs ≠ s →
    h.sp = s.checkIrqs.sp → h.mem.word (segZero s.sp) = s.checkIrqs.mem.word (segZero s.sp) →
    h.mem.word (segZero (s.sp - 1)) = s.checkIrqs.mem.word (segZero (s.sp - 1)) →
    h.savedSb0 = s.checkIrqs.savedSb0 → h.irq = s.checkIrqs.irq → h.fiq = s.checkIrqs.fiq → PlainReads 2 h →
    ∃ t, exec .reti h = .next t ∧ t.pc = s.pc ∧ t.sr = s.sr ∧ t.sp = s.sp ∧ t.sb = s.sb ∧ t.irq = false ∧
      t.fiq = false ∧ t.curirq = 0#3

/-- The line input (R322, R323): lines 0 to 8 of a block that is not faulted set or clear their own bit of the pending
mask; any other line, and any event of a faulted block, changes nothing; no interrupt is entered by the event. -/
def Obligations.LineInput : Prop :=
  ∀ (s : State) (line : Nat) (b : Bool),
    (s.faulted = none → line ≤ 8 →
      s.setInput line b = { s with sirq := (s.setInput line b).sirq } ∧
      ∀ k < 9, (s.setInput line b).sirq.getLsbD k = if k = line then b else s.sirq.getLsbD k) ∧
    (8 < line → s.setInput line b = s) ∧ (s.faulted ≠ none → s.setInput line b = s)

/-- Reset, from any state (R42): every register but PC zero, PC the word read at 0x00FFF7, the interrupt state and SB
cleared, nothing latched, memory not touched. -/
def Obligations.DeviceReset : Prop :=
  ∀ s : State, let t := s.deviceReset
    SameMemBut [] s t ∧ t.pc = s.reply 0 0x00FFF7#23 ∧ (∀ r, r ≠ .pc → t.reg r = 0#16) ∧
    t.enableIrq = false ∧ t.enableFiq = false ∧ t.irq = false ∧ t.fiq = false ∧ t.sirq = 0#9 ∧ t.curirq = 0#3 ∧
    t.sb = 0#4 ∧ t.savedSb0 = 0#4 ∧ t.savedSb1 = 0#4 ∧ t.savedSb2 = 0#4 ∧ t.faulted = none

/-- One instruction of latency (R373), for every line, the FIQ line 8 and the IRQ lines 0 to 7: a line raised between two
steps, with no other pending, is taken at the end of the very next step, after exactly that step's instruction `i`,
provided its trigger accepts it there: the source enabled and nothing in service after `i`. -/
def Obligations.InterruptTakenAfterTheNextInstruction : Prop :=
  ∀ (s u t : State) (line : Nat) (i : Instr), s.faulted = none → s.sirq = 0#9 → line ≤ 8 →
    s.setInput line true = u → i.wf = true → fetchWords i u = encode i → exec i (u.fetched i) = .next t →
    (if line = 8 then t.enableFiq else t.enableIrq) = true → t.irq = false → t.fiq = false →
    ∃ v, step u = .next v ∧
      (line = 8 → EntersHandler t.savedSb2 0x00FFF6#23 t v ∧ v.fiq = true ∧ v.irq = false ∧ v.curirq = t.curirq) ∧
      (line < 8 → EntersHandler t.savedSb1 (BitVec.ofNat 23 (0x00FFF8 + line)) t v ∧ v.irq = true ∧
        v.fiq = false ∧ v.curirq.toNat = line)
end

