-- ==== Sys2Proof/Laws/Decode.lean ====
section
/-! SUPPORT. The fields of an opcode word built by the encoder, and the small tables of the decoder against those of
the encoder. -/

namespace Sys2Proof

/-! ## The fields of a built word (R91) -/

theorem extract_append_right {m n : Nat} (a : BitVec m) (b : BitVec n) : (a ++ b).extractLsb' 0 n = b := by
  apply BitVec.eq_of_getLsbD_eq
  intro i hi
  simp [BitVec.getLsbD_append, hi]

theorem extract_append_left {m n k w : Nat} (a : BitVec m) (b : BitVec n) (h : n ≤ k) :
    (a ++ b).extractLsb' k w = a.extractLsb' (k - n) w := by
  apply BitVec.eq_of_getLsbD_eq
  intro i hi
  have hlt : ¬k + i < n := by omega
  have : k + i - n = k - n + i := by omega
  simp [BitVec.getLsbD_append, hi, hlt, this]

theorem extract_self {n : Nat} (a : BitVec n) : a.extractLsb' 0 n = a := by
  apply BitVec.eq_of_getLsbD_eq
  intro i hi
  simp [hi]

variable (op0 : BitVec 4) (opa op1 opn opb : BitVec 3) (imm6 : BitVec 6)

@[simp] theorem fieldOp0_opWord : fieldOp0 (opWord op0 opa op1 opn opb) = op0 := by
  unfold fieldOp0 opWord
  rw [extract_append_left _ _ (by omega), extract_append_left _ _ (by omega), extract_append_left _ _ (by omega),
    extract_append_left _ _ (by omega)]
  exact extract_self _

@[simp] theorem fieldOpa_opWord : fieldOpa (opWord op0 opa op1 opn opb) = opa := by
  unfold fieldOpa opWord
  rw [extract_append_left _ _ (by omega), extract_append_left _ _ (by omega), extract_append_left _ _ (by omega)]
  exact extract_append_right _ _

@[simp] theorem fieldOp1_opWord : fieldOp1 (opWord op0 opa op1 opn opb) = op1 := by
  unfold fieldOp1 opWord
  rw [extract_append_left _ _ (by omega), extract_append_left _ _ (by omega)]
  exact extract_append_right _ _

@[simp] theorem fieldOpn_opWord : fieldOpn (opWord op0 opa op1 opn opb) = opn := by
  unfold fieldOpn opWord
  rw [extract_append_left _ _ (by omega)]
  exact extract_append_right _ _

@[simp] theorem fieldOpb_opWord : fieldOpb (opWord op0 opa op1 opn opb) = opb := extract_append_right _ _

@[simp] theorem fieldOp0_opWord6 : fieldOp0 (opWord6 op0 opa op1 imm6) = op0 := by
  unfold fieldOp0 opWord6
  rw [extract_append_left _ _ (by omega), extract_append_left _ _ (by omega), extract_append_left _ _ (by omega)]
  exact extract_self _

@[simp] theorem fieldOpa_opWord6 : fieldOpa (opWord6 op0 opa op1 imm6) = opa := by
  unfold fieldOpa opWord6
  rw [extract_append_left _ _ (by omega), extract_append_left _ _ (by omega)]
  exact extract_append_right _ _

@[simp] theorem fieldOp1_opWord6 : fieldOp1 (opWord6 op0 opa op1 imm6) = op1 := by
  unfold fieldOp1 opWord6
  rw [extract_append_left _ _ (by omega)]
  exact extract_append_right _ _

@[simp] theorem fieldImm6_opWord6 : fieldImm6 (opWord6 op0 opa op1 imm6) = imm6 := extract_append_right _ _

/-- A word is its five fields (R91). -/
theorem opWord_fields (op : Word) :
    opWord (fieldOp0 op) (fieldOpa op) (fieldOp1 op) (fieldOpn op) (fieldOpb op) = op := by
  unfold opWord fieldOp0 fieldOpa fieldOp1 fieldOpn fieldOpb
  apply BitVec.eq_of_getLsbD_eq
  intro i hi
  simp only [BitVec.getLsbD_append, BitVec.getLsbD_extractLsb']
  interval_cases i <;> simp

/-- A word is its three high fields and the low six bits. -/
theorem opWord6_fields (op : Word) :
    opWord6 (fieldOp0 op) (fieldOpa op) (fieldOp1 op) (fieldImm6 op) = op := by
  unfold opWord6 fieldOp0 fieldOpa fieldOp1 fieldImm6
  apply BitVec.eq_of_getLsbD_eq
  intro i hi
  simp only [BitVec.getLsbD_append, BitVec.getLsbD_extractLsb']
  interval_cases i <;> simp

/-! ## The small tables -/

@[simp] theorem Reg.ofNum_num (r : Reg) : Reg.ofNum r.num = r := by cases r <;> rfl
@[simp] theorem Reg.num_ofNum (n : BitVec 3) : (Reg.ofNum n).num = n := by revert n; decide
theorem Reg.num_inj {a b : Reg} : a.num = b.num ↔ a = b := by cases a <;> cases b <;> decide
@[simp] theorem decodeCond_num (c : Cond) : decodeCond c.num = c := by cases c <;> rfl
theorem num_decodeCond (n : BitVec 4) (h : n ≠ 0xF#4) : (decodeCond n).num = n := by revert n; decide
theorem Cond.num_ne (c : Cond) : c.num ≠ 0xF#4 := by cases c <;> decide
@[simp] theorem decodeAluOp_num (op : AluOp) : decodeAluOp op.num = some (some op) := by cases op <;> rfl

/-- The operation numbers that name no operation are 5, 7, 14 and 15 (R98). -/
theorem decodeAluOp_none (n : BitVec 4) :
    decodeAluOp n = none ↔ n = 0x5#4 ∨ n = 0x7#4 ∨ n = 0xE#4 ∨ n = 0xF#4 := by revert n; decide

theorem decodeAluOp_store (n : BitVec 4) : decodeAluOp n = some none ↔ n = 0xD#4 := by revert n; decide
theorem AluOp.num_ne (op : AluOp) : op.num ≠ 0xE#4 ∧ op.num ≠ 0xF#4 ∧ op.num ≠ 0xD#4 := by cases op <;> decide

/-- Whether an opcode word is illegal does not depend on the second word (R93, R103). -/
theorem decodeOp_error_imm (op a b : Word) (e : Reject) (h : decodeOp op a = .error e) :
    ∃ e', decodeOp op b = .error e' := by
  unfold decodeOp at h ⊢
  split
  · next h1 =>
    rw [if_pos h1] at h
    unfold decodeFxxx at h ⊢
    split at h
    · cases h
    · next n1 =>
      split at h
      · cases h
      · next n2 =>
        split at h
        · cases h
        · next n3 =>
          split at h
          · cases h
          · next n4 => rw [if_neg n1, if_neg n2, if_neg n3, if_neg n4]; exact ⟨e, h⟩
  · next h1 =>
    rw [if_neg h1] at h
    split
    · next h2 => rw [if_pos h2] at h; cases h
    · next h2 =>
      rw [if_neg h2] at h
      split
      · next h3 => rw [if_pos h3] at h; exact ⟨e, h⟩
      · next h3 =>
        rw [if_neg h3] at h
        have same : (decodeForm op b).map (Option.isSome ∘ Form.asStore) =
            (decodeForm op a).map (Option.isSome ∘ Form.asStore) := by
          unfold decodeForm decodeForm4
          split <;> first | rfl | (split <;> rfl)
        unfold decodeRemaining at h ⊢
        cases ha : decodeForm op a with
        | none =>
          cases hb : decodeForm op b with
          | none => rw [ha] at h; exact ⟨e, h⟩
          | some f => rw [ha, hb] at same; cases same
        | some f =>
          cases hb : decodeForm op b with
          | none => rw [ha, hb] at same; cases same
          | some g =>
            rw [ha, hb] at same
            rw [ha] at h
            simp only [Option.map_some, Option.some.injEq, Function.comp] at same
            cases hop : decodeAluOp (fieldOp0 op) with
            | none => exact ⟨_, rfl⟩
            | some o =>
              cases o with
              | some alu => rw [hop] at h; cases h
              | none =>
                rw [hop] at h
                cases hf : f.asStore with
                | some x => simp only [hf] at h; cases h
                | none =>
                  cases hg : g.asStore with
                  | some x => rw [hf, hg] at same; cases same
                  | none => exact ⟨_, by simp only [hg]; rfl⟩

end Sys2Proof
end

