-- ==== Sys2Proof/Laws/Flags.lean ====
section
/-! SUPPORT. The fields of SR after each SR update, and the ALU's values as numbers. -/

namespace Sys2Proof.Machine

/-! ## The fields of a packed SR -/

@[simp] theorem srDs_packSr (ds : BitVec 6) (n z s c : Bool) (cs : BitVec 6) : srDs (packSr ds n z s c cs) = ds := by
  unfold srDs packSr
  apply BitVec.eq_of_getLsbD_eq
  intro i hi
  simp only [BitVec.getLsbD_extractLsb', BitVec.getLsbD_append, BitVec.getLsbD_ofBool, hi]
  interval_cases i <;> simp

@[simp] theorem srN_packSr (ds : BitVec 6) (n z s c : Bool) (cs : BitVec 6) : srN (packSr ds n z s c cs) = n := by
  unfold srN packSr
  simp only [BitVec.getLsbD_append, BitVec.getLsbD_ofBool]
  simp

@[simp] theorem srZ_packSr (ds : BitVec 6) (n z s c : Bool) (cs : BitVec 6) : srZ (packSr ds n z s c cs) = z := by
  unfold srZ packSr
  simp only [BitVec.getLsbD_append, BitVec.getLsbD_ofBool]
  simp

@[simp] theorem srS_packSr (ds : BitVec 6) (n z s c : Bool) (cs : BitVec 6) : srS (packSr ds n z s c cs) = s := by
  unfold srS packSr
  simp only [BitVec.getLsbD_append, BitVec.getLsbD_ofBool]
  simp

@[simp] theorem srC_packSr (ds : BitVec 6) (n z s c : Bool) (cs : BitVec 6) : srC (packSr ds n z s c cs) = c := by
  unfold srC packSr
  simp only [BitVec.getLsbD_append, BitVec.getLsbD_ofBool]
  simp

@[simp] theorem srCs_packSr (ds : BitVec 6) (n z s c : Bool) (cs : BitVec 6) : srCs (packSr ds n z s c cs) = cs := by
  unfold srCs packSr
  apply BitVec.eq_of_getLsbD_eq
  intro i hi
  simp only [BitVec.getLsbD_extractLsb', BitVec.getLsbD_append, hi]
  simp [hi]

/-- The six fields are the whole of SR (R26). -/
@[simp] theorem packSr_fields (sr : Word) :
    packSr (srDs sr) (srN sr) (srZ sr) (srS sr) (srC sr) (srCs sr) = sr := by
  unfold srDs srN srZ srS srC srCs packSr
  apply BitVec.eq_of_getLsbD_eq
  intro i hi
  simp only [BitVec.getLsbD_extractLsb', BitVec.getLsbD_append, BitVec.getLsbD_ofBool]
  interval_cases i <;> simp

/-- Two values of SR with the same fields are equal. -/
theorem sr_ext {a b : Word} (hds : srDs a = srDs b) (hn : srN a = srN b) (hz : srZ a = srZ b) (hs : srS a = srS b)
    (hc : srC a = srC b) (hcs : srCs a = srCs b) : a = b := by
  rw [← packSr_fields a, ← packSr_fields b, hds, hn, hz, hs, hc, hcs]

/-! ## The single-field updates -/

@[simp] theorem srDs_withCs (cs : BitVec 6) (sr : Word) : srDs (withCs cs sr) = srDs sr := by simp [withCs]
@[simp] theorem srN_withCs (cs : BitVec 6) (sr : Word) : srN (withCs cs sr) = srN sr := by simp [withCs]
@[simp] theorem srZ_withCs (cs : BitVec 6) (sr : Word) : srZ (withCs cs sr) = srZ sr := by simp [withCs]
@[simp] theorem srS_withCs (cs : BitVec 6) (sr : Word) : srS (withCs cs sr) = srS sr := by simp [withCs]
@[simp] theorem srC_withCs (cs : BitVec 6) (sr : Word) : srC (withCs cs sr) = srC sr := by simp [withCs]
@[simp] theorem srCs_withCs (cs : BitVec 6) (sr : Word) : srCs (withCs cs sr) = cs := by simp [withCs]

@[simp] theorem srDs_withZ (z : Bool) (sr : Word) : srDs (withZ z sr) = srDs sr := by simp [withZ]
@[simp] theorem srN_withZ (z : Bool) (sr : Word) : srN (withZ z sr) = srN sr := by simp [withZ]
@[simp] theorem srZ_withZ (z : Bool) (sr : Word) : srZ (withZ z sr) = z := by simp [withZ]
@[simp] theorem srS_withZ (z : Bool) (sr : Word) : srS (withZ z sr) = srS sr := by simp [withZ]
@[simp] theorem srC_withZ (z : Bool) (sr : Word) : srC (withZ z sr) = srC sr := by simp [withZ]
@[simp] theorem srCs_withZ (z : Bool) (sr : Word) : srCs (withZ z sr) = srCs sr := by simp [withZ]

@[simp] theorem withCs_withCs (a b : BitVec 6) (sr : Word) : withCs a (withCs b sr) = withCs a sr := by simp [withCs]
@[simp] theorem withCs_self (sr : Word) : withCs (srCs sr) sr = sr := by simp [withCs]

/-! ## The flag helpers -/

@[simp] theorem srDs_updateNZ (v sr : Word) : srDs (updateNZ v sr) = srDs sr := by simp [updateNZ]
@[simp] theorem srN_updateNZ (v sr : Word) : srN (updateNZ v sr) = v.msb := by simp [updateNZ]
@[simp] theorem srZ_updateNZ (v sr : Word) : srZ (updateNZ v sr) = (v == 0#16) := by simp [updateNZ]
@[simp] theorem srS_updateNZ (v sr : Word) : srS (updateNZ v sr) = srS sr := by simp [updateNZ]
@[simp] theorem srC_updateNZ (v sr : Word) : srC (updateNZ v sr) = srC sr := by simp [updateNZ]
@[simp] theorem srCs_updateNZ (v sr : Word) : srCs (updateNZ v sr) = srCs sr := by simp [updateNZ]

@[simp] theorem srDs_updateNZSC (v : BitVec 17) (a b sr : Word) : srDs (updateNZSC v a b sr) = srDs sr := by
  simp [updateNZSC]
@[simp] theorem srN_updateNZSC (v : BitVec 17) (a b sr : Word) : srN (updateNZSC v a b sr) = v.getLsbD 15 := by
  simp only [updateNZSC, srN_packSr]
@[simp] theorem srZ_updateNZSC (v : BitVec 17) (a b sr : Word) :
    srZ (updateNZSC v a b sr) = (v.setWidth 16 == 0#16) := by
  simp only [updateNZSC, srZ_packSr]
@[simp] theorem srS_updateNZSC (v : BitVec 17) (a b sr : Word) :
    srS (updateNZSC v a b sr) = decide (a.toInt < (~~~b).toInt) := by
  simp only [updateNZSC, srS_packSr]
@[simp] theorem srC_updateNZSC (v : BitVec 17) (a b sr : Word) : srC (updateNZSC v a b sr) = v.getLsbD 16 := by
  simp only [updateNZSC, srC_packSr]
@[simp] theorem srCs_updateNZSC (v : BitVec 17) (a b sr : Word) : srCs (updateNZSC v a b sr) = srCs sr := by
  simp [updateNZSC]

/-! ## The ALU -/

@[simp] theorem toNat_wide (v : Word) : (wide v).toNat = v.toNat := by
  have := v.isLt
  simp only [wide, BitVec.toNat_setWidth]
  omega

@[simp] theorem toNat_wideBit (c : Bool) : (wideBit c).toNat = c.toNat := by cases c <;> rfl

@[simp] theorem setWidth_wide (v : Word) : (wide v).setWidth 16 = v := by
  apply BitVec.eq_of_toNat_eq
  have := v.isLt
  rw [BitVec.toNat_setWidth, toNat_wide]
  omega

/-- Every ALU operation leaves DS and CS to the write of its result. -/
@[simp] theorem srDs_aluFlags (op : AluOp) (r0 r1 : Word) (v : BitVec 17) (sr : Word) :
    srDs (aluFlags op r0 r1 v sr) = srDs sr := by cases op <;> simp [aluFlags]
@[simp] theorem srCs_aluFlags (op : AluOp) (r0 r1 : Word) (v : BitVec 17) (sr : Word) :
    srCs (aluFlags op r0 r1 v sr) = srCs sr := by cases op <;> simp [aluFlags]

end Sys2Proof.Machine
end

