-- ==== Sys2Proof/Laws/Memory.lean ====
section
/-! SUPPORT. What the memory operations do: a read after a write, the other addresses, and the canonical form. -/

namespace Sys2Proof.Machine

@[simp] theorem Memory.byte_nil (k : Nat) : Memory.byte [] k = Config.unwrittenByte := rfl

@[simp] theorem Memory.byte_cons (k' : Nat) (b : Byte) (m : Memory) (k : Nat) :
    Memory.byte ((k', b) :: m) k = if k = k' then b else m.byte k := rfl

theorem Memory.byte_erase (m : Memory) (k j : Nat) :
    (m.erase k).byte j = if j = k then Config.unwrittenByte else m.byte j := by
  induction m with
  | nil => simp [Memory.erase]
  | cons c m ih =>
    obtain ⟨k', b⟩ := c
    simp only [Memory.erase] at ih ⊢
    by_cases hk : k' = k
    · subst hk; simp; split <;> simp_all
    · simp [hk]; split <;> simp_all

theorem Memory.byte_insert (m : Memory) (k j : Nat) (b : Byte) (hm : ∀ c ∈ m, c.1 ≠ k) :
    (Memory.insert m k b).byte j = if j = k then b else m.byte j := by
  induction m with
  | nil => simp [Memory.insert]
  | cons c m ih =>
    obtain ⟨k', b'⟩ := c
    have hne : k' ≠ k := hm (k', b') (by simp)
    have ih := ih fun c hc => hm c (by simp [hc])
    simp only [Memory.insert]
    split
    · simp
    · simp only [Memory.byte_cons, ih]; split <;> simp_all

theorem Memory.erase_ne (m : Memory) (k : Nat) : ∀ c ∈ m.erase k, c.1 ≠ k := by
  intro c hc; simpa [Memory.erase] using (List.mem_filter.mp hc).2

/-- A byte after a write: the written one at its address, as before elsewhere. -/
theorem Memory.byte_setByte (m : Memory) (k j : Nat) (b : Byte) :
    (m.setByte k b).byte j = if j = k then b else m.byte j := by
  unfold Memory.setByte
  split
  · next h => rw [Memory.byte_erase, h]
  · rw [Memory.byte_insert _ _ _ _ (m.erase_ne k), Memory.byte_erase]; split <;> simp_all

/-- The canonical form, entry by entry. -/
theorem Memory.wf_cons (k : Nat) (b : Byte) (m : Memory) :
    Memory.wf ((k, b) :: m) = true ↔ b ≠ Config.unwrittenByte ∧ (∀ c ∈ m, k < c.1) ∧ m.wf = true := by
  simp [Memory.wf, List.all_eq_true, and_assoc]

theorem Memory.mem_insert (m : Memory) (k : Nat) (b : Byte) (c : Host.Cell) :
    c ∈ Memory.insert m k b ↔ c = (k, b) ∨ c ∈ m := by
  induction m with
  | nil => simp [Memory.insert]
  | cons d m ih =>
    simp only [Memory.insert]
    split
    · simp
    · simp only [List.mem_cons, ih]; tauto

theorem Memory.wf_erase (m : Memory) (k : Nat) (h : m.wf = true) : (m.erase k).wf = true := by
  induction m with
  | nil => rfl
  | cons c m ih =>
    obtain ⟨k', b⟩ := c
    obtain ⟨hb, hlt, hm⟩ := (Memory.wf_cons ..).mp h
    have ih := ih hm
    simp only [Memory.erase] at ih ⊢
    by_cases hk : k' = k
    · simpa [hk] using ih
    · simp only [List.filter_cons, hk, ne_eq, not_false_eq_true, decide_true, if_true]
      exact (Memory.wf_cons ..).mpr ⟨hb, fun c hc => hlt c (List.mem_filter.mp hc).1, ih⟩

theorem Memory.wf_insert (m : Memory) (k : Nat) (b : Byte) (hb : b ≠ Config.unwrittenByte)
    (hm : ∀ c ∈ m, c.1 ≠ k) (h : m.wf = true) : (Memory.insert m k b).wf = true := by
  induction m with
  | nil => simpa [Memory.insert, Memory.wf] using hb
  | cons c m ih =>
    obtain ⟨k', b'⟩ := c
    obtain ⟨hb', hlt, hm'⟩ := (Memory.wf_cons ..).mp h
    have hne : k' ≠ k := hm (k', b') (by simp)
    simp only [Memory.insert]
    split
    · next hk =>
      refine (Memory.wf_cons ..).mpr ⟨hb, fun c hc => ?_, h⟩
      rcases List.mem_cons.mp hc with rfl | hc
      · exact hk
      · exact lt_trans hk (hlt c hc)
    · next hk =>
      refine (Memory.wf_cons ..).mpr ⟨hb', fun c hc => ?_, ih (fun c hc => hm c (by simp [hc])) hm'⟩
      rcases (Memory.mem_insert ..).mp hc with rfl | hc
      · exact lt_of_le_of_ne (not_lt.mp hk) hne
      · exact hlt c hc

/-- A byte write keeps the canonical form. -/
theorem Memory.wf_setByte (m : Memory) (k : Nat) (b : Byte) (h : m.wf = true) : (m.setByte k b).wf = true := by
  unfold Memory.setByte
  split
  · exact m.wf_erase k h
  · next hb => exact Memory.wf_insert _ _ _ hb (m.erase_ne k) (m.wf_erase k h)

/-- A word write keeps the canonical form. -/
theorem Memory.wf_setWord (m : Memory) (a : Addr) (v : Word) (h : m.wf = true) : (m.setWord a v).wf = true :=
  Memory.wf_setByte _ _ _ (Memory.wf_setByte _ _ _ h)

/-- Every cell after a byte write was there before or is the written one. -/
theorem Memory.mem_setByte (m : Memory) (k : Nat) (b : Byte) (c : Host.Cell) (h : c ∈ m.setByte k b) :
    c.1 = k ∨ c ∈ m := by
  unfold Memory.setByte at h
  split at h
  · exact .inr (List.mem_filter.mp h).1
  · rcases (Memory.mem_insert ..).mp h with rfl | h
    · exact .inl rfl
    · exact .inr (List.mem_filter.mp h).1

/-- Every cell after a word write was there before or belongs to the word. -/
theorem Memory.mem_setWord (m : Memory) (a : Addr) (v : Word) (c : Host.Cell) (h : c ∈ m.setWord a v) :
    c.1 = byteAddr a ∨ c.1 = byteAddr a + 1 ∨ c ∈ m := by
  rcases Memory.mem_setByte _ _ _ _ h with h | h
  · exact .inr (.inl h)
  · rcases Memory.mem_setByte _ _ _ _ h with h | h
    · exact .inl h
    · exact .inr (.inr h)

/-- A byte outside the written word reads as before. -/
theorem Memory.byte_setWord_ne (m : Memory) (a : Addr) (v : Word) (k : Nat) (h0 : k ≠ byteAddr a)
    (h1 : k ≠ byteAddr a + 1) : (m.setWord a v).byte k = m.byte k := by
  simp [Memory.setWord, Memory.byte_setByte, h0, h1]

theorem append_extract_bytes (v : Word) : (v.extractLsb' 8 8 ++ v.extractLsb' 0 8 : BitVec 16) = v := by
  apply BitVec.eq_of_getLsbD_eq
  intro i hi
  simp only [BitVec.getLsbD_append, BitVec.getLsbD_extractLsb']
  interval_cases i <;> simp

/-- A word read after a word write: the written word at its address, as before elsewhere. -/
theorem Memory.word_setWord (m : Memory) (a b : Addr) (v : Word) :
    (m.setWord a v).word b = if b = a then v else m.word b := by
  by_cases h : b = a
  · subst h
    simp [Memory.word, Memory.setWord, Memory.byte_setByte, append_extract_bytes]
  · have hn : b.toNat ≠ a.toNat := fun e => h (BitVec.eq_of_toNat_eq e)
    simp only [h, if_false, Memory.word]
    rw [Memory.byte_setWord_ne, Memory.byte_setWord_ne] <;> simp only [byteAddr] <;> omega

@[simp] theorem Memory.word_setWord_self (m : Memory) (a : Addr) (v : Word) : (m.setWord a v).word a = v := by
  simp [Memory.word_setWord]

/-- Memories in canonical form that read alike are equal. -/
theorem Memory.ext_of_wf (m n : Memory) (hm : m.wf = true) (hn : n.wf = true) (h : ∀ k, m.byte k = n.byte k) :
    m = n := by
  have low : ∀ (m : Memory) (k : Nat), (∀ c ∈ m, k < c.1) → m.byte k = Config.unwrittenByte := by
    intro m k hk
    induction m with
    | nil => rfl
    | cons c m ih =>
      obtain ⟨k', b⟩ := c
      have hlt : k < k' := hk (k', b) (by simp)
      simp [Nat.ne_of_lt hlt, ih fun c hc => hk c (by simp [hc])]
  induction m generalizing n with
  | nil =>
    cases n with
    | nil => rfl
    | cons d n =>
      obtain ⟨k, b⟩ := d
      have := h k
      simp only [Memory.byte_nil, Memory.byte_cons, if_true] at this
      exact absurd this.symm ((Memory.wf_cons ..).mp hn).1
  | cons c m ih =>
    obtain ⟨k, b⟩ := c
    obtain ⟨hb, hlt, hm'⟩ := (Memory.wf_cons ..).mp hm
    cases n with
    | nil =>
      have := h k
      simp only [Memory.byte_nil, Memory.byte_cons, if_true] at this
      exact absurd this hb
    | cons d n =>
      obtain ⟨j, b'⟩ := d
      obtain ⟨hb', hlt', hn'⟩ := (Memory.wf_cons ..).mp hn
      have hkj : k = j := by
        rcases lt_trichotomy k j with hk | hk | hk
        · have := h k
          rw [low ((j, b') :: n) k (by simpa using ⟨hk, fun a b hc => lt_trans hk (hlt' (a, b) hc)⟩)] at this
          simp at this; exact absurd this hb
        · exact hk
        · have := h j
          rw [low ((k, b) :: m) j (by simpa using ⟨hk, fun a b hc => lt_trans hk (hlt (a, b) hc)⟩)] at this
          simp at this; exact absurd this.symm hb'
      subst hkj
      have hbb : b = b' := by simpa using h k
      subst hbb
      rw [ih n hm' hn' fun i => ?_]
      by_cases hi : i = k
      · rw [hi, low m k hlt, low n k hlt']
      · simpa [hi] using h i

end Sys2Proof.Machine
end

