-- ==== Sys2Proof/Laws/State.lean ====
section
/-! SUPPORT. One lemma per field per update of the state, and registers read through the updates. -/

namespace Sys2Proof.Machine

/-! ## Reading a named register -/

@[simp] theorem State.reg_sp (s : State) : s.reg .sp = s.sp := rfl
@[simp] theorem State.reg_r1 (s : State) : s.reg .r1 = s.r1 := rfl
@[simp] theorem State.reg_r2 (s : State) : s.reg .r2 = s.r2 := rfl
@[simp] theorem State.reg_r3 (s : State) : s.reg .r3 = s.r3 := rfl
@[simp] theorem State.reg_r4 (s : State) : s.reg .r4 = s.r4 := rfl
@[simp] theorem State.reg_bp (s : State) : s.reg .bp = s.bp := rfl
@[simp] theorem State.reg_sr (s : State) : s.reg .sr = s.sr := rfl
@[simp] theorem State.reg_pc (s : State) : s.reg .pc = s.pc := rfl

/-! ## `setReg` -/

/-- A register after a register write: the value written, or as before. -/
@[simp] theorem State.reg_setReg (s : State) (r q : Reg) (v : Word) :
    (s.setReg r v).reg q = if q = r then v else s.reg q := by cases r <;> cases q <;> rfl

/-- Writing a register its own value changes nothing. -/
@[simp] theorem State.setReg_reg (s : State) (r : Reg) : s.setReg r (s.reg r) = s := by cases r <;> rfl

/-- Of two writes of one register the second counts. -/
@[simp] theorem State.setReg_setReg (s : State) (r : Reg) (v u : Word) :
    (s.setReg r v).setReg r u = s.setReg r u := by cases r <;> rfl

theorem State.setReg_sp (s : State) (q : Reg) (v : Word) :
    (s.setReg q v).sp = if Reg.sp = q then v else s.sp := by cases q <;> rfl
theorem State.setReg_r1 (s : State) (q : Reg) (v : Word) :
    (s.setReg q v).r1 = if Reg.r1 = q then v else s.r1 := by cases q <;> rfl
theorem State.setReg_r2 (s : State) (q : Reg) (v : Word) :
    (s.setReg q v).r2 = if Reg.r2 = q then v else s.r2 := by cases q <;> rfl
theorem State.setReg_r3 (s : State) (q : Reg) (v : Word) :
    (s.setReg q v).r3 = if Reg.r3 = q then v else s.r3 := by cases q <;> rfl
theorem State.setReg_r4 (s : State) (q : Reg) (v : Word) :
    (s.setReg q v).r4 = if Reg.r4 = q then v else s.r4 := by cases q <;> rfl
theorem State.setReg_bp (s : State) (q : Reg) (v : Word) :
    (s.setReg q v).bp = if Reg.bp = q then v else s.bp := by cases q <;> rfl
theorem State.setReg_sr (s : State) (q : Reg) (v : Word) :
    (s.setReg q v).sr = if Reg.sr = q then v else s.sr := by cases q <;> rfl
theorem State.setReg_pc (s : State) (q : Reg) (v : Word) :
    (s.setReg q v).pc = if Reg.pc = q then v else s.pc := by cases q <;> rfl
@[simp] theorem State.setReg_sb (s : State) (r : Reg) (v : Word) : (s.setReg r v).sb = s.sb := by cases r <;> rfl
@[simp] theorem State.setReg_savedSb0 (s : State) (r : Reg) (v : Word) : (s.setReg r v).savedSb0 = s.savedSb0 := by cases r <;> rfl
@[simp] theorem State.setReg_savedSb1 (s : State) (r : Reg) (v : Word) : (s.setReg r v).savedSb1 = s.savedSb1 := by cases r <;> rfl
@[simp] theorem State.setReg_savedSb2 (s : State) (r : Reg) (v : Word) : (s.setReg r v).savedSb2 = s.savedSb2 := by cases r <;> rfl
@[simp] theorem State.setReg_enableIrq (s : State) (r : Reg) (v : Word) : (s.setReg r v).enableIrq = s.enableIrq := by cases r <;> rfl
@[simp] theorem State.setReg_enableFiq (s : State) (r : Reg) (v : Word) : (s.setReg r v).enableFiq = s.enableFiq := by cases r <;> rfl
@[simp] theorem State.setReg_irq (s : State) (r : Reg) (v : Word) : (s.setReg r v).irq = s.irq := by cases r <;> rfl
@[simp] theorem State.setReg_fiq (s : State) (r : Reg) (v : Word) : (s.setReg r v).fiq = s.fiq := by cases r <;> rfl
@[simp] theorem State.setReg_sirq (s : State) (r : Reg) (v : Word) : (s.setReg r v).sirq = s.sirq := by cases r <;> rfl
@[simp] theorem State.setReg_curirq (s : State) (r : Reg) (v : Word) : (s.setReg r v).curirq = s.curirq := by cases r <;> rfl
@[simp] theorem State.setReg_faulted (s : State) (r : Reg) (v : Word) : (s.setReg r v).faulted = s.faulted := by cases r <;> rfl
@[simp] theorem State.setReg_mem (s : State) (r : Reg) (v : Word) : (s.setReg r v).mem = s.mem := by cases r <;> rfl
@[simp] theorem State.setReg_replies (s : State) (r : Reg) (v : Word) : (s.setReg r v).replies = s.replies := by cases r <;> rfl
@[simp] theorem State.setReg_bus (s : State) (r : Reg) (v : Word) : (s.setReg r v).bus = s.bus := by cases r <;> rfl

/-! ## `memRead` and `memWrite` -/

@[simp] theorem State.memRead_fst (s : State) (a : Addr) : (s.memRead a).1 = s.reply 0 a := rfl
@[simp] theorem State.memRead_sp (s : State) (a : Addr) : (s.memRead a).2.sp = s.sp := rfl
@[simp] theorem State.memRead_r1 (s : State) (a : Addr) : (s.memRead a).2.r1 = s.r1 := rfl
@[simp] theorem State.memRead_r2 (s : State) (a : Addr) : (s.memRead a).2.r2 = s.r2 := rfl
@[simp] theorem State.memRead_r3 (s : State) (a : Addr) : (s.memRead a).2.r3 = s.r3 := rfl
@[simp] theorem State.memRead_r4 (s : State) (a : Addr) : (s.memRead a).2.r4 = s.r4 := rfl
@[simp] theorem State.memRead_bp (s : State) (a : Addr) : (s.memRead a).2.bp = s.bp := rfl
@[simp] theorem State.memRead_sr (s : State) (a : Addr) : (s.memRead a).2.sr = s.sr := rfl
@[simp] theorem State.memRead_pc (s : State) (a : Addr) : (s.memRead a).2.pc = s.pc := rfl
@[simp] theorem State.memRead_sb (s : State) (a : Addr) : (s.memRead a).2.sb = s.sb := rfl
@[simp] theorem State.memRead_savedSb0 (s : State) (a : Addr) : (s.memRead a).2.savedSb0 = s.savedSb0 := rfl
@[simp] theorem State.memRead_savedSb1 (s : State) (a : Addr) : (s.memRead a).2.savedSb1 = s.savedSb1 := rfl
@[simp] theorem State.memRead_savedSb2 (s : State) (a : Addr) : (s.memRead a).2.savedSb2 = s.savedSb2 := rfl
@[simp] theorem State.memRead_enableIrq (s : State) (a : Addr) : (s.memRead a).2.enableIrq = s.enableIrq := rfl
@[simp] theorem State.memRead_enableFiq (s : State) (a : Addr) : (s.memRead a).2.enableFiq = s.enableFiq := rfl
@[simp] theorem State.memRead_irq (s : State) (a : Addr) : (s.memRead a).2.irq = s.irq := rfl
@[simp] theorem State.memRead_fiq (s : State) (a : Addr) : (s.memRead a).2.fiq = s.fiq := rfl
@[simp] theorem State.memRead_sirq (s : State) (a : Addr) : (s.memRead a).2.sirq = s.sirq := rfl
@[simp] theorem State.memRead_curirq (s : State) (a : Addr) : (s.memRead a).2.curirq = s.curirq := rfl
@[simp] theorem State.memRead_faulted (s : State) (a : Addr) : (s.memRead a).2.faulted = s.faulted := rfl
@[simp] theorem State.memRead_mem (s : State) (a : Addr) : (s.memRead a).2.mem = s.mem := rfl
@[simp] theorem State.memRead_bus (s : State) (a : Addr) :
    (s.memRead a).2.bus = s.bus ++ [.read a (s.reply 0 a)] := rfl
@[simp] theorem State.memRead_replies (s : State) (a : Addr) : (s.memRead a).2.replies = s.replies.drop 1 := rfl
@[simp] theorem State.memRead_reg (s : State) (a : Addr) (r : Reg) : (s.memRead a).2.reg r = s.reg r := by
  cases r <;> rfl
@[simp] theorem State.memWrite_sp (s : State) (a : Addr) (v : Word) : (s.memWrite a v).sp = s.sp := rfl
@[simp] theorem State.memWrite_r1 (s : State) (a : Addr) (v : Word) : (s.memWrite a v).r1 = s.r1 := rfl
@[simp] theorem State.memWrite_r2 (s : State) (a : Addr) (v : Word) : (s.memWrite a v).r2 = s.r2 := rfl
@[simp] theorem State.memWrite_r3 (s : State) (a : Addr) (v : Word) : (s.memWrite a v).r3 = s.r3 := rfl
@[simp] theorem State.memWrite_r4 (s : State) (a : Addr) (v : Word) : (s.memWrite a v).r4 = s.r4 := rfl
@[simp] theorem State.memWrite_bp (s : State) (a : Addr) (v : Word) : (s.memWrite a v).bp = s.bp := rfl
@[simp] theorem State.memWrite_sr (s : State) (a : Addr) (v : Word) : (s.memWrite a v).sr = s.sr := rfl
@[simp] theorem State.memWrite_pc (s : State) (a : Addr) (v : Word) : (s.memWrite a v).pc = s.pc := rfl
@[simp] theorem State.memWrite_sb (s : State) (a : Addr) (v : Word) : (s.memWrite a v).sb = s.sb := rfl
@[simp] theorem State.memWrite_savedSb0 (s : State) (a : Addr) (v : Word) : (s.memWrite a v).savedSb0 = s.savedSb0 := rfl
@[simp] theorem State.memWrite_savedSb1 (s : State) (a : Addr) (v : Word) : (s.memWrite a v).savedSb1 = s.savedSb1 := rfl
@[simp] theorem State.memWrite_savedSb2 (s : State) (a : Addr) (v : Word) : (s.memWrite a v).savedSb2 = s.savedSb2 := rfl
@[simp] theorem State.memWrite_enableIrq (s : State) (a : Addr) (v : Word) : (s.memWrite a v).enableIrq = s.enableIrq := rfl
@[simp] theorem State.memWrite_enableFiq (s : State) (a : Addr) (v : Word) : (s.memWrite a v).enableFiq = s.enableFiq := rfl
@[simp] theorem State.memWrite_irq (s : State) (a : Addr) (v : Word) : (s.memWrite a v).irq = s.irq := rfl
@[simp] theorem State.memWrite_fiq (s : State) (a : Addr) (v : Word) : (s.memWrite a v).fiq = s.fiq := rfl
@[simp] theorem State.memWrite_sirq (s : State) (a : Addr) (v : Word) : (s.memWrite a v).sirq = s.sirq := rfl
@[simp] theorem State.memWrite_curirq (s : State) (a : Addr) (v : Word) : (s.memWrite a v).curirq = s.curirq := rfl
@[simp] theorem State.memWrite_faulted (s : State) (a : Addr) (v : Word) : (s.memWrite a v).faulted = s.faulted := rfl
@[simp] theorem State.memWrite_replies (s : State) (a : Addr) (v : Word) : (s.memWrite a v).replies = s.replies := rfl
@[simp] theorem State.memWrite_mem (s : State) (a : Addr) (v : Word) :
    (s.memWrite a v).mem = s.mem.setWord a v := rfl
@[simp] theorem State.memWrite_bus (s : State) (a : Addr) (v : Word) :
    (s.memWrite a v).bus = s.bus ++ [.write a v] := rfl
@[simp] theorem State.memWrite_reg (s : State) (a : Addr) (v : Word) (r : Reg) :
    (s.memWrite a v).reg r = s.reg r := by cases r <;> rfl

/-! ## What the platform answers -/

/-- The answer depends on the answers to come and on memory alone. -/
theorem State.reply_congr {s t : State} (hr : t.replies = s.replies) (hm : t.mem = s.mem) (n : Nat) (a : Addr) :
    t.reply n a = s.reply n a := by rw [State.reply, State.reply, hr, hm]

@[simp] theorem State.setReg_reply (s : State) (r : Reg) (v : Word) (n : Nat) (a : Addr) :
    (s.setReg r v).reply n a = s.reply n a := State.reply_congr (s.setReg_replies r v) (s.setReg_mem r v) n a

/-- One read uses up one answer. -/
@[simp] theorem State.memRead_reply (s : State) (b : Addr) (n : Nat) (a : Addr) :
    (s.memRead b).2.reply n a = s.reply (n + 1) a := by
  simp [State.reply]

@[simp] theorem State.advPc_reply (s : State) (k : Int) (n : Nat) (a : Addr) : (s.advPc k).reply n a = s.reply n a := rfl
@[simp] theorem State.setLpc_reply (s : State) (m : ProgAddr) (n : Nat) (a : Addr) :
    (s.setLpc m).reply n a = s.reply n a := rfl

/-- Where the platform has settled on nothing, the answer is what plain storage holds (R70). -/
theorem State.reply_plain {s : State} {n : Nat} (h : s.replies[n]?.join = none) (a : Addr) :
    s.reply n a = s.mem.word a := by rw [State.reply, h]; rfl

/-- Where the platform has settled on a word, that is the answer (R62). -/
theorem State.reply_settled {s : State} {n : Nat} {v : Word} (h : s.replies[n]? = some (some v)) (a : Addr) :
    s.reply n a = v := by rw [State.reply, h]; rfl

/-! ## `setMr` -/

@[simp] theorem State.setMr_sp (s : State) (v : BitVec 32) : (s.setMr v).sp = s.sp := rfl
@[simp] theorem State.setMr_r1 (s : State) (v : BitVec 32) : (s.setMr v).r1 = s.r1 := rfl
@[simp] theorem State.setMr_r2 (s : State) (v : BitVec 32) : (s.setMr v).r2 = s.r2 := rfl
@[simp] theorem State.setMr_bp (s : State) (v : BitVec 32) : (s.setMr v).bp = s.bp := rfl
@[simp] theorem State.setMr_sr (s : State) (v : BitVec 32) : (s.setMr v).sr = s.sr := rfl
@[simp] theorem State.setMr_pc (s : State) (v : BitVec 32) : (s.setMr v).pc = s.pc := rfl
@[simp] theorem State.setMr_sb (s : State) (v : BitVec 32) : (s.setMr v).sb = s.sb := rfl
@[simp] theorem State.setMr_savedSb0 (s : State) (v : BitVec 32) : (s.setMr v).savedSb0 = s.savedSb0 := rfl
@[simp] theorem State.setMr_savedSb1 (s : State) (v : BitVec 32) : (s.setMr v).savedSb1 = s.savedSb1 := rfl
@[simp] theorem State.setMr_savedSb2 (s : State) (v : BitVec 32) : (s.setMr v).savedSb2 = s.savedSb2 := rfl
@[simp] theorem State.setMr_enableIrq (s : State) (v : BitVec 32) : (s.setMr v).enableIrq = s.enableIrq := rfl
@[simp] theorem State.setMr_enableFiq (s : State) (v : BitVec 32) : (s.setMr v).enableFiq = s.enableFiq := rfl
@[simp] theorem State.setMr_irq (s : State) (v : BitVec 32) : (s.setMr v).irq = s.irq := rfl
@[simp] theorem State.setMr_fiq (s : State) (v : BitVec 32) : (s.setMr v).fiq = s.fiq := rfl
@[simp] theorem State.setMr_sirq (s : State) (v : BitVec 32) : (s.setMr v).sirq = s.sirq := rfl
@[simp] theorem State.setMr_curirq (s : State) (v : BitVec 32) : (s.setMr v).curirq = s.curirq := rfl
@[simp] theorem State.setMr_faulted (s : State) (v : BitVec 32) : (s.setMr v).faulted = s.faulted := rfl
@[simp] theorem State.setMr_mem (s : State) (v : BitVec 32) : (s.setMr v).mem = s.mem := rfl
@[simp] theorem State.setMr_replies (s : State) (v : BitVec 32) : (s.setMr v).replies = s.replies := rfl
@[simp] theorem State.setMr_bus (s : State) (v : BitVec 32) : (s.setMr v).bus = s.bus := rfl
@[simp] theorem State.setMr_r4 (s : State) (v : BitVec 32) : (s.setMr v).r4 = v.extractLsb' 16 16 := rfl
@[simp] theorem State.setMr_r3 (s : State) (v : BitVec 32) : (s.setMr v).r3 = v.extractLsb' 0 16 := rfl

/-- MR after a write of MR. -/
@[simp] theorem State.mr_setMr (s : State) (v : BitVec 32) : (s.setMr v).mr = v := by
  simp only [State.mr, State.setMr]
  apply BitVec.eq_of_getLsbD_eq
  intro i hi
  simp only [BitVec.getLsbD_append, BitVec.getLsbD_extractLsb']
  interval_cases i <;> simp

theorem State.setMr_reg (s : State) (v : BitVec 32) (r : Reg) (h3 : r ≠ .r3) (h4 : r ≠ .r4) :
    (s.setMr v).reg r = s.reg r := by cases r <;> first | rfl | contradiction

/-! ## The program counter -/

@[simp] theorem State.setLpc_sp (s : State) (n : ProgAddr) : (s.setLpc n).sp = s.sp := rfl
@[simp] theorem State.setLpc_r1 (s : State) (n : ProgAddr) : (s.setLpc n).r1 = s.r1 := rfl
@[simp] theorem State.setLpc_r2 (s : State) (n : ProgAddr) : (s.setLpc n).r2 = s.r2 := rfl
@[simp] theorem State.setLpc_r3 (s : State) (n : ProgAddr) : (s.setLpc n).r3 = s.r3 := rfl
@[simp] theorem State.setLpc_r4 (s : State) (n : ProgAddr) : (s.setLpc n).r4 = s.r4 := rfl
@[simp] theorem State.setLpc_bp (s : State) (n : ProgAddr) : (s.setLpc n).bp = s.bp := rfl
@[simp] theorem State.setLpc_sb (s : State) (n : ProgAddr) : (s.setLpc n).sb = s.sb := rfl
@[simp] theorem State.setLpc_savedSb0 (s : State) (n : ProgAddr) : (s.setLpc n).savedSb0 = s.savedSb0 := rfl
@[simp] theorem State.setLpc_savedSb1 (s : State) (n : ProgAddr) : (s.setLpc n).savedSb1 = s.savedSb1 := rfl
@[simp] theorem State.setLpc_savedSb2 (s : State) (n : ProgAddr) : (s.setLpc n).savedSb2 = s.savedSb2 := rfl
@[simp] theorem State.setLpc_enableIrq (s : State) (n : ProgAddr) : (s.setLpc n).enableIrq = s.enableIrq := rfl
@[simp] theorem State.setLpc_enableFiq (s : State) (n : ProgAddr) : (s.setLpc n).enableFiq = s.enableFiq := rfl
@[simp] theorem State.setLpc_irq (s : State) (n : ProgAddr) : (s.setLpc n).irq = s.irq := rfl
@[simp] theorem State.setLpc_fiq (s : State) (n : ProgAddr) : (s.setLpc n).fiq = s.fiq := rfl
@[simp] theorem State.setLpc_sirq (s : State) (n : ProgAddr) : (s.setLpc n).sirq = s.sirq := rfl
@[simp] theorem State.setLpc_curirq (s : State) (n : ProgAddr) : (s.setLpc n).curirq = s.curirq := rfl
@[simp] theorem State.setLpc_faulted (s : State) (n : ProgAddr) : (s.setLpc n).faulted = s.faulted := rfl
@[simp] theorem State.setLpc_mem (s : State) (n : ProgAddr) : (s.setLpc n).mem = s.mem := rfl
@[simp] theorem State.setLpc_replies (s : State) (n : ProgAddr) : (s.setLpc n).replies = s.replies := rfl
@[simp] theorem State.setLpc_bus (s : State) (n : ProgAddr) : (s.setLpc n).bus = s.bus := rfl
@[simp] theorem State.advPc_sp (s : State) (k : Int) : (s.advPc k).sp = s.sp := rfl
@[simp] theorem State.advPc_r1 (s : State) (k : Int) : (s.advPc k).r1 = s.r1 := rfl
@[simp] theorem State.advPc_r2 (s : State) (k : Int) : (s.advPc k).r2 = s.r2 := rfl
@[simp] theorem State.advPc_r3 (s : State) (k : Int) : (s.advPc k).r3 = s.r3 := rfl
@[simp] theorem State.advPc_r4 (s : State) (k : Int) : (s.advPc k).r4 = s.r4 := rfl
@[simp] theorem State.advPc_bp (s : State) (k : Int) : (s.advPc k).bp = s.bp := rfl
@[simp] theorem State.advPc_sb (s : State) (k : Int) : (s.advPc k).sb = s.sb := rfl
@[simp] theorem State.advPc_savedSb0 (s : State) (k : Int) : (s.advPc k).savedSb0 = s.savedSb0 := rfl
@[simp] theorem State.advPc_savedSb1 (s : State) (k : Int) : (s.advPc k).savedSb1 = s.savedSb1 := rfl
@[simp] theorem State.advPc_savedSb2 (s : State) (k : Int) : (s.advPc k).savedSb2 = s.savedSb2 := rfl
@[simp] theorem State.advPc_enableIrq (s : State) (k : Int) : (s.advPc k).enableIrq = s.enableIrq := rfl
@[simp] theorem State.advPc_enableFiq (s : State) (k : Int) : (s.advPc k).enableFiq = s.enableFiq := rfl
@[simp] theorem State.advPc_irq (s : State) (k : Int) : (s.advPc k).irq = s.irq := rfl
@[simp] theorem State.advPc_fiq (s : State) (k : Int) : (s.advPc k).fiq = s.fiq := rfl
@[simp] theorem State.advPc_sirq (s : State) (k : Int) : (s.advPc k).sirq = s.sirq := rfl
@[simp] theorem State.advPc_curirq (s : State) (k : Int) : (s.advPc k).curirq = s.curirq := rfl
@[simp] theorem State.advPc_faulted (s : State) (k : Int) : (s.advPc k).faulted = s.faulted := rfl
@[simp] theorem State.advPc_mem (s : State) (k : Int) : (s.advPc k).mem = s.mem := rfl
@[simp] theorem State.advPc_replies (s : State) (k : Int) : (s.advPc k).replies = s.replies := rfl
@[simp] theorem State.advPc_bus (s : State) (k : Int) : (s.advPc k).bus = s.bus := rfl
@[simp] theorem State.setLpc_pc (s : State) (n : ProgAddr) : (s.setLpc n).pc = n.extractLsb' 0 16 := rfl
@[simp] theorem State.setLpc_sr (s : State) (n : ProgAddr) :
    (s.setLpc n).sr = withCs (n.extractLsb' 16 6) s.sr := rfl

theorem segOff_extract (n : ProgAddr) : segOff (n.extractLsb' 16 6) (n.extractLsb' 0 16) = n := by
  unfold segOff
  apply BitVec.eq_of_getLsbD_eq
  intro i hi
  simp only [BitVec.getLsbD_append, BitVec.getLsbD_extractLsb']
  interval_cases i <;> simp

@[simp] theorem State.setLpc_lpc (s : State) (n : ProgAddr) : (s.setLpc n).lpc = n := by
  simp [State.lpc, segOff_extract]

/-- The program counter after it has moved: the same 22 bits, moved (R25). -/
@[simp] theorem State.advPc_lpc (s : State) (k : Int) : (s.advPc k).lpc = s.lpc + BitVec.ofInt 22 k := by
  simp [State.advPc]

/-- Moving the program counter writes no register but PC and the CS field of SR. -/
theorem State.advPc_reg (s : State) (k : Int) (r : Reg) (hsr : r ≠ .sr) (hpc : r ≠ .pc) :
    (s.advPc k).reg r = s.reg r := by cases r <;> first | rfl | contradiction

@[simp] theorem State.advPc_srDs (s : State) (k : Int) : srDs (s.advPc k).sr = srDs s.sr := by
  simp [State.advPc]
@[simp] theorem State.advPc_srN (s : State) (k : Int) : srN (s.advPc k).sr = srN s.sr := by simp [State.advPc]
@[simp] theorem State.advPc_srZ (s : State) (k : Int) : srZ (s.advPc k).sr = srZ s.sr := by simp [State.advPc]
@[simp] theorem State.advPc_srS (s : State) (k : Int) : srS (s.advPc k).sr = srS s.sr := by simp [State.advPc]
@[simp] theorem State.advPc_srC (s : State) (k : Int) : srC (s.advPc k).sr = srC s.sr := by simp [State.advPc]

/-! ## Addresses -/

@[simp] theorem toNat_segZero (off : Word) : (segZero off).toNat = off.toNat := by
  have := off.isLt
  simp only [segZero, BitVec.toNat_setWidth]
  omega

@[simp] theorem toNat_busAddr (a : ProgAddr) : (busAddr a).toNat = a.toNat := by
  have := a.isLt
  simp only [busAddr, BitVec.toNat_setWidth]
  omega

/-- Offsets of segment 0 name different words. -/
@[simp] theorem segZero_inj (a b : Word) : segZero a = segZero b ↔ a = b := by
  constructor
  · intro h
    apply BitVec.eq_of_toNat_eq
    rw [← toNat_segZero a, ← toNat_segZero b, h]
  · exact congrArg _

@[simp] theorem busAddr_inj (a b : ProgAddr) : busAddr a = busAddr b ↔ a = b := by
  constructor
  · intro h
    apply BitVec.eq_of_toNat_eq
    rw [← toNat_busAddr a, ← toNat_busAddr b, h]
  · exact congrArg _

end Sys2Proof.Machine
end

