-- ==== Sys2Proof/Laws/Ops.lean ====
section
/-! SUPPORT. What each shared operation over registers, stack, memory and interrupts can do, said once, so that no
later proof unfolds it; and the relations of Safety.lean between states, with their composition. -/

namespace Sys2Proof.Machine

/-! ## The relations between states -/

theorem SameControl.refl (s : State) : SameControl s s := ⟨rfl, rfl, rfl, rfl, rfl, rfl, rfl, rfl, rfl, rfl⟩

theorem SameControl.trans {s t u : State} (h : SameControl s t) (k : SameControl t u) : SameControl s u :=
  ⟨k.1.trans h.1, k.2.trans h.2, k.3.trans h.3, k.4.trans h.4, k.5.trans h.5, k.6.trans h.6, k.7.trans h.7,
    k.8.trans h.8, k.9.trans h.9, k.10.trans h.10⟩

theorem SameFlags.refl (s : State) : SameFlags s s := ⟨rfl, rfl, rfl, rfl⟩

theorem SameFlags.trans {s t u : State} (h : SameFlags s t) (k : SameFlags t u) : SameFlags s u :=
  ⟨k.1.trans h.1, k.2.trans h.2, k.3.trans h.3, k.4.trans h.4⟩

theorem SameRegsBut.refl (rs : List Reg) (s : State) : SameRegsBut rs s s := fun _ _ => rfl

/-- Two changes one after the other leave the registers outside both lists. -/
theorem SameRegsBut.trans {rs qs : List Reg} {s t u : State} (h : SameRegsBut rs s t) (k : SameRegsBut qs t u) :
    SameRegsBut (rs ++ qs) s u := fun r hr => by
  rw [List.mem_append, not_or] at hr
  rw [k r hr.2, h r hr.1]

theorem SameRegsBut.mono {rs qs : List Reg} {s t : State} (h : SameRegsBut rs s t) (sub : rs ⊆ qs) :
    SameRegsBut qs s t := fun r hr => h r fun hm => hr (sub hm)

/-- Register by register: what remains is the eight cases. -/
theorem SameRegsBut.of_eq {rs : List Reg} {s t : State} (h : ∀ r, r ∉ rs → t.reg r = s.reg r) : SameRegsBut rs s t := h

theorem SameMemBut.of_eq {as : List Addr} {s t : State} (h : t.mem = s.mem) : SameMemBut as s t := fun _ _ => by rw [h]

theorem SameMemBut.refl (as : List Addr) (s : State) : SameMemBut as s s := .of_eq rfl

/-- Two changes one after the other leave the bytes outside both lists of words. -/
theorem SameMemBut.trans {as bs : List Addr} {s t u : State} (h : SameMemBut as s t) (k : SameMemBut bs t u) :
    SameMemBut (as ++ bs) s u := fun j hj => by
  rw [k j fun a ha => hj a (List.mem_append.mpr (.inr ha)), h j fun a ha => hj a (List.mem_append.mpr (.inl ha))]

/-- One word written. -/
theorem SameMemBut.of_setWord {s t : State} {a : Addr} {v : Word} (h : t.mem = s.mem.setWord a v) :
    SameMemBut [a] s t := fun k hk => by
  have := hk a (by simp)
  rw [h, Memory.byte_setWord_ne _ _ _ _ this.1 this.2]

/-- A word whose bytes lie outside the words of the list reads the same. -/
theorem SameMemBut.word {as : List Addr} {s t : State} (h : SameMemBut as s t) {b : Addr} (hb : b ∉ as) :
    t.mem.word b = s.mem.word b := by
  have ne : ∀ a ∈ as, b.toNat ≠ a.toNat := fun a ha e => hb (BitVec.eq_of_toNat_eq e ▸ ha)
  simp only [Memory.word]
  rw [h _ fun a ha => ?_, h _ fun a ha => ?_] <;> have := ne a ha <;> simp only [byteAddr] <;> omega

/-! ## The accesses made -/

theorem Performs.refl (s : State) : Performs [] s s := ⟨by simp, by simp⟩

/-- The accesses of one change after another. -/
theorem Performs.trans {as bs : List BusAccess} {s t u : State} (h : Performs as s t) (k : Performs bs t u) :
    Performs (as ++ bs) s u :=
  ⟨by rw [k.bus, h.bus, List.append_assoc], by rw [k.replies, h.replies, List.drop_drop, List.countP_append]⟩

/-- No access. -/
theorem Performs.of_eq {s t : State} (hb : t.bus = s.bus) (hr : t.replies = s.replies) : Performs [] s t :=
  ⟨by simp [hb], by simp [hr]⟩

/-- All that `MemRead` does. -/
theorem State.memRead_eq (s : State) (a : Addr) : s.memRead a = (s.reply 0 a, s.afterRead a) := rfl

@[simp] theorem State.afterRead_sp (s : State) (a : Addr) : (s.afterRead a).sp = s.sp := rfl
@[simp] theorem State.afterRead_r1 (s : State) (a : Addr) : (s.afterRead a).r1 = s.r1 := rfl
@[simp] theorem State.afterRead_r2 (s : State) (a : Addr) : (s.afterRead a).r2 = s.r2 := rfl
@[simp] theorem State.afterRead_r3 (s : State) (a : Addr) : (s.afterRead a).r3 = s.r3 := rfl
@[simp] theorem State.afterRead_r4 (s : State) (a : Addr) : (s.afterRead a).r4 = s.r4 := rfl
@[simp] theorem State.afterRead_bp (s : State) (a : Addr) : (s.afterRead a).bp = s.bp := rfl
@[simp] theorem State.afterRead_sr (s : State) (a : Addr) : (s.afterRead a).sr = s.sr := rfl
@[simp] theorem State.afterRead_pc (s : State) (a : Addr) : (s.afterRead a).pc = s.pc := rfl
@[simp] theorem State.afterRead_sb (s : State) (a : Addr) : (s.afterRead a).sb = s.sb := rfl
@[simp] theorem State.afterRead_savedSb0 (s : State) (a : Addr) : (s.afterRead a).savedSb0 = s.savedSb0 := rfl
@[simp] theorem State.afterRead_savedSb1 (s : State) (a : Addr) : (s.afterRead a).savedSb1 = s.savedSb1 := rfl
@[simp] theorem State.afterRead_savedSb2 (s : State) (a : Addr) : (s.afterRead a).savedSb2 = s.savedSb2 := rfl
@[simp] theorem State.afterRead_enableIrq (s : State) (a : Addr) : (s.afterRead a).enableIrq = s.enableIrq := rfl
@[simp] theorem State.afterRead_enableFiq (s : State) (a : Addr) : (s.afterRead a).enableFiq = s.enableFiq := rfl
@[simp] theorem State.afterRead_irq (s : State) (a : Addr) : (s.afterRead a).irq = s.irq := rfl
@[simp] theorem State.afterRead_fiq (s : State) (a : Addr) : (s.afterRead a).fiq = s.fiq := rfl
@[simp] theorem State.afterRead_sirq (s : State) (a : Addr) : (s.afterRead a).sirq = s.sirq := rfl
@[simp] theorem State.afterRead_curirq (s : State) (a : Addr) : (s.afterRead a).curirq = s.curirq := rfl
@[simp] theorem State.afterRead_faulted (s : State) (a : Addr) : (s.afterRead a).faulted = s.faulted := rfl
@[simp] theorem State.afterRead_mem (s : State) (a : Addr) : (s.afterRead a).mem = s.mem := rfl
@[simp] theorem State.afterRead_reg (s : State) (a : Addr) (r : Reg) : (s.afterRead a).reg r = s.reg r := by
  cases r <;> rfl
@[simp] theorem State.afterRead_reply (s : State) (b : Addr) (n : Nat) (a : Addr) :
    (s.afterRead b).reply n a = s.reply (n + 1) a := s.memRead_reply b n a

theorem State.afterRead_performs (s : State) (a : Addr) : Performs [.read a (s.reply 0 a)] s (s.afterRead a) := ⟨rfl, rfl⟩

theorem State.memRead_performs (s : State) (a : Addr) : Performs [.read a (s.reply 0 a)] s (s.memRead a).2 := ⟨rfl, rfl⟩

theorem State.memWrite_performs (s : State) (a : Addr) (v : Word) : Performs [.write a v] s (s.memWrite a v) := ⟨rfl, rfl⟩

/-- A plain answer is the word last written (R70). -/
theorem PlainReads.reply {n : Nat} {s : State} (h : PlainReads n s) {k : Nat} (hk : k < n) (a : Addr) :
    s.reply k a = s.mem.word a := State.reply_plain (h k hk) a

/-- Accesses without a read leave the answers to come. -/
theorem PlainReads.congr {n : Nat} {s t : State} (h : PlainReads n s) (e : t.replies = s.replies) : PlainReads n t :=
  fun k hk => by rw [e]; exact h k hk

/-! ## The control state through the plain updates -/

theorem State.setReg_control (s : State) (r : Reg) (v : Word) : SameControl s (s.setReg r v) := by
  constructor <;> simp

theorem State.memRead_control (s : State) (a : Addr) : SameControl s (s.memRead a).2 :=
  ⟨rfl, rfl, rfl, rfl, rfl, rfl, rfl, rfl, rfl, rfl⟩

theorem State.memWrite_control (s : State) (a : Addr) (v : Word) : SameControl s (s.memWrite a v) :=
  ⟨rfl, rfl, rfl, rfl, rfl, rfl, rfl, rfl, rfl, rfl⟩

theorem State.advPc_control (s : State) (k : Int) : SameControl s (s.advPc k) :=
  ⟨rfl, rfl, rfl, rfl, rfl, rfl, rfl, rfl, rfl, rfl⟩

theorem State.advPc_flags (s : State) (k : Int) : SameFlags s (s.advPc k) := by constructor <;> simp

/-! ## The stack (R31, R32) -/

/-- All that `Push(v, r)` does: one word stored where the register pointed, the register one lower. -/
theorem State.push_eq (s : State) (v : Word) (r : Reg) :
    s.push v r = (s.memWrite (segZero (s.reg r)) v).setReg r (s.reg r - 1) := by
  simp [State.push]

@[simp] theorem State.push_reg (s : State) (v : Word) (r q : Reg) :
    (s.push v r).reg q = if q = r then s.reg r - 1 else s.reg q := by simp [State.push_eq]
@[simp] theorem State.push_mem (s : State) (v : Word) (r : Reg) :
    (s.push v r).mem = s.mem.setWord (segZero (s.reg r)) v := by simp [State.push_eq]
@[simp] theorem State.push_bus (s : State) (v : Word) (r : Reg) :
    (s.push v r).bus = s.bus ++ [.write (segZero (s.reg r)) v] := by simp [State.push_eq]
@[simp] theorem State.push_replies (s : State) (v : Word) (r : Reg) : (s.push v r).replies = s.replies := by
  simp [State.push_eq]
@[simp] theorem State.push_sb (s : State) (v : Word) (r : Reg) : (s.push v r).sb = s.sb := by simp [State.push_eq]
theorem State.push_performs (s : State) (v : Word) (r : Reg) :
    Performs [.write (segZero (s.reg r)) v] s (s.push v r) := ⟨s.push_bus v r, s.push_replies v r⟩

theorem State.push_control (s : State) (v : Word) (r : Reg) : SameControl s (s.push v r) := by
  rw [State.push_eq]; exact (s.memWrite_control _ _).trans (State.setReg_control _ _ _)

/-- All that `Pop(r)` does: the register one higher, one word read where it then points. -/
theorem State.pop_eq (s : State) (r : Reg) :
    s.pop r = (s.reply 0 (segZero (s.reg r + 1)),
      { s.setReg r (s.reg r + 1) with
        bus := s.bus ++ [.read (segZero (s.reg r + 1)) (s.reply 0 (segZero (s.reg r + 1)))]
        replies := s.replies.drop 1 }) := by
  simp [State.pop, State.memRead]

/-- A register after a pop into `d`: the popped register has the word, also where it is the stack register itself. -/
@[simp] theorem State.popTo_reg (s : State) (d r q : Reg) :
    (s.popTo d r).reg q = if q = d then s.reply 0 (segZero (s.reg r + 1))
      else if q = r then s.reg r + 1 else s.reg q := by
  simp only [State.popTo, State.pop_eq, State.reg_setReg]
  split
  · rfl
  · cases q <;> cases r <;> rfl

@[simp] theorem State.popTo_mem (s : State) (d r : Reg) : (s.popTo d r).mem = s.mem := by
  simp [State.popTo, State.pop]
@[simp] theorem State.popTo_bus (s : State) (d r : Reg) :
    (s.popTo d r).bus = s.bus ++ [.read (segZero (s.reg r + 1)) (s.reply 0 (segZero (s.reg r + 1)))] := by
  simp [State.popTo, State.pop]
@[simp] theorem State.popTo_replies (s : State) (d r : Reg) : (s.popTo d r).replies = s.replies.drop 1 := by
  simp [State.popTo, State.pop]
@[simp] theorem State.popTo_reply (s : State) (d r : Reg) (n : Nat) (a : Addr) :
    (s.popTo d r).reply n a = s.reply (n + 1) a := by simp [State.popTo, State.pop]
@[simp] theorem State.popTo_sb (s : State) (d r : Reg) : (s.popTo d r).sb = s.sb := by simp [State.popTo, State.pop]
theorem State.popTo_performs (s : State) (d r : Reg) :
    Performs [.read (segZero (s.reg r + 1)) (s.reply 0 (segZero (s.reg r + 1)))] s (s.popTo d r) :=
  ⟨s.popTo_bus d r, s.popTo_replies d r⟩

theorem State.popTo_control (s : State) (d r : Reg) : SameControl s (s.popTo d r) := by
  constructor <;> simp [State.popTo, State.pop]

/-! ## Interrupts -/

/-- All that an interrupt entry does. The vector is read after the two pushes. -/
theorem State.enterInterrupt_enters (s : State) (handlerSb : BitVec 4) (vector : Addr) :
    EntersHandler handlerSb vector s (s.enterInterrupt handlerSb vector) ∧
      (s.enterInterrupt handlerSb vector).irq = s.irq ∧ (s.enterInterrupt handlerSb vector).fiq = s.fiq ∧
      (s.enterInterrupt handlerSb vector).curirq = s.curirq := by
  have hmem : (s.enterInterrupt handlerSb vector).mem =
      (s.mem.setWord (segZero s.sp) s.pc).setWord (segZero (s.sp - 1)) s.sr := rfl
  have hne : segZero s.sp ≠ segZero (s.sp - 1) := by
    rw [Ne, segZero_inj]; bv_omega
  refine ⟨⟨?_, rfl, rfl, ?_, ?_, ?_, ?_, ?_, rfl, rfl, rfl, rfl, rfl, rfl, rfl, rfl⟩, rfl, rfl, rfl⟩
  · show s.sp - 1 - 1 = s.sp - 2
    bv_omega
  · intro r hr; cases r <;> simp at hr <;> rfl
  · rw [hmem, Memory.word_setWord, if_neg hne, Memory.word_setWord_self]
  · rw [hmem, Memory.word_setWord_self]
  · intro k hk
    have h0 := hk (segZero s.sp) (by simp)
    have h1 := hk (segZero (s.sp - 1)) (by simp)
    rw [hmem, Memory.byte_setWord_ne _ _ _ _ h1.1 h1.2, Memory.byte_setWord_ne _ _ _ _ h0.1 h0.2]
  · refine ⟨?_, rfl⟩
    show ((s.bus ++ [_]) ++ [_]) ++ [_] = _
    simp only [List.append_assoc]
    rfl

@[simp] theorem State.enterInterrupt_mem (s : State) (handlerSb : BitVec 4) (vector : Addr) :
    (s.enterInterrupt handlerSb vector).mem =
      (s.mem.setWord (segZero s.sp) s.pc).setWord (segZero (s.sp - 1)) s.sr := rfl

/-- `TriggerFIQ()`: nothing, or the entry with `fiq` set. -/
theorem State.triggerFiq_cases (s : State) :
    ((s.enableFiq = false ∨ s.fiq = true ∨ s.irq = true) ∧ s.triggerFiq = s) ∨
    (s.enableFiq = true ∧ s.fiq = false ∧ s.irq = false ∧
      s.triggerFiq = { s with fiq := true }.enterInterrupt s.savedSb2 fiqVector) := by
  unfold State.triggerFiq
  cases s.enableFiq <;> cases s.fiq <;> cases s.irq <;> simp

/-- `TriggerIRQ(line)`: nothing, or the entry with `irq` and `curirq` set. -/
theorem State.triggerIrq_cases (s : State) (line : BitVec 3) :
    ((s.enableIrq = false ∨ s.irq = true ∨ s.fiq = true) ∧ s.triggerIrq line = s) ∨
    (s.enableIrq = true ∧ s.irq = false ∧ s.fiq = false ∧
      s.triggerIrq line = { { s with irq := true }.enterInterrupt s.savedSb1 (irqVector line) with curirq := line }) := by
  unfold State.triggerIrq
  cases s.enableIrq <;> cases s.irq <;> cases s.fiq <;> simp

/-- The least pending line is pending. -/
theorem pendingLine_some {sirq : BitVec 9} {line : BitVec 3} (h : pendingLine sirq = some line) :
    sirq.getLsbD line.toNat = true := by
  simpa using List.find?_some h

/-- The least line whose bit is set is found. -/
theorem pendingLine_eq {sirq : BitVec 9} {line : BitVec 3} (h : sirq.getLsbD line.toNat = true)
    (least : ∀ k < line.toNat, sirq.getLsbD k = false) : pendingLine sirq = some line := by
  revert line
  intro line
  have hl : line = 0 ∨ line = 1 ∨ line = 2 ∨ line = 3 ∨ line = 4 ∨ line = 5 ∨ line = 6 ∨ line = 7 := by
    revert line; decide
  rcases hl with rfl | rfl | rfl | rfl | rfl | rfl | rfl | rfl <;> intro h least <;>
    · have l0 := least 0; have l1 := least 1; have l2 := least 2; have l3 := least 3
      have l4 := least 4; have l5 := least 5; have l6 := least 6
      simp at h l0 l1 l2 l3 l4 l5 l6
      simp [pendingLine, irqLines, List.find?, *]

/-- No line is found exactly where no line is pending. -/
theorem pendingLine_none {sirq : BitVec 9} : pendingLine sirq = none ↔ ∀ k < 8, sirq.getLsbD k = false := by
  simp only [pendingLine, List.find?_eq_none, irqLines]
  constructor
  · intro h k hk
    have : ∀ l ∈ ([0, 1, 2, 3, 4, 5, 6, 7] : List (BitVec 3)), sirq.getLsbD l.toNat = false := by simpa using h
    interval_cases k
    · exact this 0 (by simp)
    · exact this 1 (by simp)
    · exact this 2 (by simp)
    · exact this 3 (by simp)
    · exact this 4 (by simp)
    · exact this 5 (by simp)
    · exact this 6 (by simp)
    · exact this 7 (by simp)
  · intro h l _
    simp [h l.toNat (by have := l.isLt; omega)]

/-- All that the interrupt check can do: nothing, the FIQ entry, or the entry of one pending line; an entry only with
nothing in service. -/
theorem State.checkIrqs_cases (s : State) :
    s.checkIrqs = s ∨
    (s.sirq.getLsbD 8 = true ∧ s.enableFiq = true ∧ s.fiq = false ∧ s.irq = false ∧
      s.checkIrqs = { s with fiq := true }.enterInterrupt s.savedSb2 fiqVector) ∨
    (∃ line : BitVec 3, s.sirq.getLsbD 8 = false ∧ s.sirq.getLsbD line.toNat = true ∧ s.enableIrq = true ∧
      s.irq = false ∧ s.fiq = false ∧
      s.checkIrqs =
        { { s with irq := true }.enterInterrupt s.savedSb1 (irqVector line) with curirq := line }) := by
  unfold State.checkIrqs
  by_cases h8 : s.sirq.getLsbD 8 = true
  · rw [if_pos h8]
    rcases s.triggerFiq_cases with ⟨-, h⟩ | ⟨he, hf, hi, h⟩
    · exact .inl h
    · exact .inr (.inl ⟨h8, he, hf, hi, h⟩)
  · rw [if_neg h8]
    split
    · exact .inl rfl
    · next line hl =>
      rcases s.triggerIrq_cases line with ⟨-, h⟩ | ⟨he, hi, hf, h⟩
      · exact .inl h
      · exact .inr (.inr ⟨line, by simpa using h8, pendingLine_some hl, he, hi, hf, h⟩)

/-- The two pops of the return from interrupt (R292): SR from the word above SP, PC from the next. -/
theorem State.returnPops_reg (s : State) (q : Reg) :
    ((s.popTo .sr .sp).popTo .pc .sp).reg q =
      if q = .pc then s.reply 1 (segZero (s.sp + 2)) else if q = .sp then s.sp + 2
      else if q = .sr then s.reply 0 (segZero (s.sp + 1)) else s.reg q := by
  have h2 : s.sp + 1#16 + 1#16 = s.sp + 2#16 := by bv_omega
  simp only [State.popTo_reg, State.popTo_reply]
  cases q <;> simp [h2]

/-! ## The platform's events -/

/-- A line event changes the pending mask at most. -/
theorem State.setInput_frame (s : State) (line : Nat) (b : Bool) :
    s.setInput line b = { s with sirq := (s.setInput line b).sirq } := by
  unfold State.setInput; split <;> rfl

/-- The pending mask after a line event of a block that is not faulted. -/
theorem State.setInput_sirq (s : State) (line : Nat) (b : Bool) (hs : s.faulted = none) (hl : line ≤ 8) (k : Nat)
    (hk : k < 9) : (s.setInput line b).sirq.getLsbD k = if k = line then b else s.sirq.getLsbD k := by
  have : ¬8 < line := by omega
  simp only [State.setInput, hs, Option.isSome_none, this, decide_false, Bool.or_self]
  cases b <;> interval_cases line <;> interval_cases k <;> simp

/-! ## The memory's canonical form through the operations -/

theorem State.memWrite_wf (s : State) (a : Addr) (v : Word) (h : s.mem.wf = true) : (s.memWrite a v).mem.wf = true :=
  Memory.wf_setWord _ _ _ h

theorem State.push_wf (s : State) (v : Word) (r : Reg) (h : s.mem.wf = true) : (s.push v r).mem.wf = true := by
  rw [State.push_mem]; exact Memory.wf_setWord _ _ _ h

theorem State.popTo_wf (s : State) (d r : Reg) (h : s.mem.wf = true) : (s.popTo d r).mem.wf = true := by
  rwa [State.popTo_mem]

theorem State.checkIrqs_wf (s : State) (h : s.mem.wf = true) : s.checkIrqs.mem.wf = true := by
  rcases s.checkIrqs_cases with e | ⟨-, -, -, -, e⟩ | ⟨_, -, -, -, -, -, e⟩ <;> rw [e]
  · exact h
  · exact Memory.wf_setWord _ _ _ (Memory.wf_setWord _ _ _ h)
  · exact Memory.wf_setWord _ _ _ (Memory.wf_setWord _ _ _ h)

theorem State.reset_mem_wf : State.reset.mem.wf = true := rfl

end Sys2Proof.Machine
end

