-- ==== Sys2Proof/Laws/Exec.lean ====
section
/-! SUPPORT. The dispatch by shape, and what each shared meaning (an ALU operation on a form, STORE, a bit operation, a
jump, a run of pushes or pops) can do. -/

namespace Sys2Proof.Machine

/-! ## Dispatch by shape -/

/-- Every ALU instruction is the shared operation on its form (R220, R260). -/
theorem exec_ofAlu (op : AluOp) (rd : Reg) (f : Form) (s : State) : exec (.ofAlu op rd f) s = aluInstr op rd f s := by
  cases op <;> cases f <;> rfl

/-- Every STORE is the shared operation on its form (R272). -/
theorem exec_ofStore (rd : Reg) (f : StoreForm) (s : State) : exec (.ofStore rd f) s = storeInstr rd f s := by
  cases f <;> rfl

/-- A bit operation by its form: on the register, or on the word at its target address (R191). -/
theorem exec_ofBit (fn : BitFn) (rd : Reg) (f : BitForm) (s : State) :
    exec (.ofBit fn rd f) s =
      match bitFormAddr rd f s with
      | none => bitOnReg fn rd (bitFormOff f s) s
      | some a => bitOnMem fn a (bitFormOff f s) s := by
  cases fn <;> cases f <;> rfl

/-- Every jump is the shared operation on its condition (R160). -/
theorem exec_ofJump (c : Cond) (back : Bool) (imm6 : BitVec 6) (s : State) :
    exec (.ofJump c back imm6) s = jumpIf (condHolds c s.sr) back imm6 s := by
  cases c <;> rfl

/-- The state after a fixed word of the Fxxx group (R135 to R143): the enables at most. -/
theorem exec_ofFixed (k : FixedOp) (s : State) :
    ∃ irq fiq, exec (.ofFixed k) s = .next { s with enableIrq := irq, enableFiq := fiq } := by
  cases k <;> exact ⟨_, _, rfl⟩

/-- The state after a register-count shift: one register written, or MR (R196). -/
theorem exec_ofShift (fn : ShiftFn) (rd rs : Reg) (s : State) :
    (∃ v, exec (.ofShift fn rd rs) s = .next (s.setReg rd v)) ∨
      ∃ v, exec (.ofShift fn rd rs) s = .next (s.setMr v) := by
  cases fn <;> first | exact .inl ⟨_, rfl⟩ | exact .inr ⟨_, rfl⟩

/-- The state after a multiply: MR written (R131, R132). -/
theorem exec_ofMul (signed : Bool) (rd rs : Reg) (s : State) :
    ∃ v, exec (.ofMul signed rd rs) s = .next (s.setMr v) := by
  cases signed <;> exact ⟨_, rfl⟩

/-- An instruction by its shape, for a case analysis in twelve cases instead of one for each constructor. -/
theorem exec_by_shape (i : Instr) (s : State) : exec i s = exec i.shape.instr s := by
  cases i <;> rfl

/-! ## The operand forms -/

@[simp] theorem evalForm_reg (rd rs : Reg) (s : State) :
    evalForm rd (.reg rs) s = { r0 := s.reg rd, r1 := s.reg rs, dest := .reg, st := s } := rfl

@[simp] theorem evalForm_imm6 (rd : Reg) (imm6 : BitVec 6) (s : State) :
    evalForm rd (.imm6 imm6) s = { r0 := s.reg rd, r1 := imm6.setWidth 16, dest := .reg, st := s } := rfl

/-- Which destination a form names: memory in TOA16, else the register (R231). -/
theorem evalForm_dest (rd : Reg) (f : Form) (s : State) :
    (evalForm rd f s).dest = match f with
      | .toA16 _ addr => .mem (segZero addr)
      | _ => .reg := by
  cases f <;> rfl

/-- No operand form writes memory. -/
theorem bumpUp_mem (ds : Bool) (rs : Reg) (s : State) : (bumpUp ds rs s).mem = s.mem := by
  simp only [bumpUp]; split <;> simp

theorem bumpDown_mem (ds : Bool) (rs : Reg) (s : State) : (bumpDown ds rs s).mem = s.mem := by
  simp only [bumpDown]; split <;> simp

theorem bumpUp_performs (ds : Bool) (rs : Reg) (s : State) : Performs [] s (bumpUp ds rs s) := by
  simp only [bumpUp]; split <;> apply Performs.of_eq <;> simp

theorem bumpDown_performs (ds : Bool) (rs : Reg) (s : State) : Performs [] s (bumpDown ds rs s) := by
  simp only [bumpDown]; split <;> apply Performs.of_eq <;> simp

theorem bumpUp_sb (ds : Bool) (rs : Reg) (s : State) : (bumpUp ds rs s).sb = s.sb := by
  simp only [bumpUp]; split <;> simp

theorem bumpDown_sb (ds : Bool) (rs : Reg) (s : State) : (bumpDown ds rs s).sb = s.sb := by
  simp only [bumpDown]; split <;> simp

theorem bumpUp_control (ds : Bool) (rs : Reg) (s : State) : SameControl s (bumpUp ds rs s) := by
  simp only [bumpUp]; split <;> constructor <;> simp

theorem bumpDown_control (ds : Bool) (rs : Reg) (s : State) : SameControl s (bumpDown ds rs s) := by
  simp only [bumpDown]; split <;> constructor <;> simp

theorem indBefore_mem (ds : Bool) (mode : IndMode) (rs : Reg) (s : State) : (indBefore ds mode rs s).mem = s.mem := by
  cases mode <;> first | rfl | exact bumpUp_mem _ _ _

theorem indAfter_mem (ds : Bool) (mode : IndMode) (rs : Reg) (s : State) : (indAfter ds mode rs s).mem = s.mem := by
  cases mode <;> first | rfl | exact bumpUp_mem _ _ _ | exact bumpDown_mem _ _ _

theorem indBefore_performs (ds : Bool) (mode : IndMode) (rs : Reg) (s : State) : Performs [] s (indBefore ds mode rs s) := by
  cases mode <;> first | exact .refl _ | exact bumpUp_performs _ _ _

theorem indAfter_performs (ds : Bool) (mode : IndMode) (rs : Reg) (s : State) : Performs [] s (indAfter ds mode rs s) := by
  cases mode <;> first | exact .refl _ | exact bumpUp_performs _ _ _ | exact bumpDown_performs _ _ _

theorem indBefore_sb (ds : Bool) (mode : IndMode) (rs : Reg) (s : State) : (indBefore ds mode rs s).sb = s.sb := by
  cases mode <;> first | rfl | exact bumpUp_sb _ _ _

theorem indAfter_sb (ds : Bool) (mode : IndMode) (rs : Reg) (s : State) : (indAfter ds mode rs s).sb = s.sb := by
  cases mode <;> first | rfl | exact bumpUp_sb _ _ _ | exact bumpDown_sb _ _ _

theorem indBefore_control (ds : Bool) (mode : IndMode) (rs : Reg) (s : State) :
    SameControl s (indBefore ds mode rs s) := by
  cases mode <;> first | exact .refl _ | exact bumpUp_control _ _ _

theorem indAfter_control (ds : Bool) (mode : IndMode) (rs : Reg) (s : State) :
    SameControl s (indAfter ds mode rs s) := by
  cases mode <;> first | exact .refl _ | exact bumpUp_control _ _ _ | exact bumpDown_control _ _ _

theorem evalForm_mem (rd : Reg) (f : Form) (s : State) : (evalForm rd f s).st.mem = s.mem := by
  cases f <;> simp [evalForm, loadedOperands, shiftedOperands, indAfter_mem, indBefore_mem]

theorem evalForm_control (rd : Reg) (f : Form) (s : State) : SameControl s (evalForm rd f s).st := by
  cases f with
  | ind ds mode rs =>
    exact ((indBefore_control ds mode rs s).trans (State.memRead_control _ _)).trans (indAfter_control _ _ _ _)
  | _ => exact ⟨rfl, rfl, rfl, rfl, rfl, rfl, rfl, rfl, rfl, rfl⟩

/-! ## The ALU operation -/

/-- A register of a state whose SR alone has been replaced. -/
theorem State.reg_withSr (s : State) (v : Word) (r : Reg) :
    ({ s with sr := v } : State).reg r = if r = .sr then v else s.reg r := by cases r <;> rfl

/-- All that an operation does to a register destination (R260). -/
theorem applyAlu_toRegister (op : AluOp) (rd : Reg) (o : Operands) (h : o.dest = .reg) :
    AluToRegister op rd o.r0 o.r1 o.st (applyAlu op rd o) := by
  simp only [applyAlu, h]
  constructor
  · intro r
    cases hw : aluWrites op <;> by_cases hp : rd = .pc <;> simp [hp, State.reg_withSr]
  · apply SameMemBut.of_eq
    split <;> split <;> simp
  · apply Performs.of_eq <;> split <;> split <;> simp
  · split <;> split <;> simp
  · constructor <;> split <;> split <;> simp

/-- All that an operation does to a memory destination (R231, R260). -/
theorem applyAlu_toMemory (op : AluOp) (rd : Reg) (o : Operands) (ea : Addr) (h : o.dest = .mem ea) :
    let v := aluValue op o.r0 o.r1 (srC o.st.sr)
    let flagged := if rd = .pc then o.st else { o.st with sr := aluFlags op o.r0 o.r1 v o.st.sr }
    applyAlu op rd o = if aluWrites op then flagged.memWrite ea (v.setWidth 16) else flagged := by
  simp only [applyAlu, h]

theorem applyAlu_control (op : AluOp) (rd : Reg) (o : Operands) : SameControl o.st (applyAlu op rd o) := by
  cases h : o.dest with
  | reg => exact (applyAlu_toRegister op rd o h).control
  | mem ea =>
    rw [applyAlu_toMemory op rd o ea h]
    constructor <;> split <;> split <;> rfl

/-! ## Runs of pushes and pops -/

theorem pushRegs_control (n : Nat) (r rb : Reg) (s : State) : SameControl s (pushRegs n r rb s) := by
  induction n generalizing r s with
  | zero => exact .refl s
  | succ n ih => exact (s.push_control _ _).trans (ih _ _)

theorem popRegs_control (n : Nat) (r rb : Reg) (s : State) : SameControl s (popRegs n r rb s) := by
  induction n generalizing r s with
  | zero => exact .refl s
  | succ n ih => exact (s.popTo_control _ _).trans (ih _ _)

theorem pushRegs_sb (n : Nat) (r rb : Reg) (s : State) : (pushRegs n r rb s).sb = s.sb := by
  induction n generalizing r s with
  | zero => rfl
  | succ n ih => simp [pushRegs, ih]

theorem popRegs_sb (n : Nat) (r rb : Reg) (s : State) : (popRegs n r rb s).sb = s.sb := by
  induction n generalizing r s with
  | zero => rfl
  | succ n ih => simp [popRegs, ih]

theorem popRegs_mem (n : Nat) (r rb : Reg) (s : State) : (popRegs n r rb s).mem = s.mem := by
  induction n generalizing r s with
  | zero => rfl
  | succ n ih => simp [popRegs, ih]

/-- A run of pops is one run after another. -/
theorem popRegs_succ (n : Nat) (r rb : Reg) (s : State) :
    popRegs (n + 1) r rb s = popRegs n (regAbove r) rb (s.popTo (regAbove r) rb) := rfl

theorem pushRegs_succ (n : Nat) (r rb : Reg) (s : State) :
    pushRegs (n + 1) r rb s = pushRegs n (regBelow r) rb (s.push (s.reg r) rb) := rfl

/-- PUSH moves the stack register down by its count. -/
theorem pushRegs_rb (n : Nat) (r rb : Reg) (s : State) :
    (pushRegs n r rb s).reg rb = s.reg rb - BitVec.ofNat 16 n := by
  induction n generalizing r s with
  | zero => simp [pushRegs]
  | succ n ih =>
    rw [pushRegs_succ, ih, State.push_reg, if_pos rfl, BitVec.ofNat_add]
    bv_omega

/-- PUSH writes no register but the stack register. -/
theorem pushRegs_others (n : Nat) (r rb : Reg) (s : State) : SameRegsBut [rb] s (pushRegs n r rb s) := by
  induction n generalizing r s with
  | zero => exact .refl _ s
  | succ n ih =>
    intro q hq
    rw [pushRegs_succ, ih _ _ q hq, State.push_reg, if_neg (by simpa using hq)]

/-! ## Jumps -/

/-- All that a jump does: the program counter moved, or nothing (R160). -/
theorem jumpIf_eq (taken back : Bool) (imm6 : BitVec 6) (s : State) :
    jumpIf taken back imm6 s =
      .next (if taken then s.advPc (if back then -(imm6.toNat : Int) else (imm6.toNat : Int)) else s) := by
  cases taken <;> rfl

/-! ## Bit operations -/

theorem getLsbD_bitMask (off : BitVec 4) (k : Nat) : (bitMask off).getLsbD k = decide (k = off.toNat) := by
  have h : ∀ n < 16, ∀ k, (1#16 <<< n).getLsbD k = decide (k = n) := by
    intro n hn k
    by_cases hk : k < 16
    · interval_cases n <;> interval_cases k <;> rfl
    · rw [BitVec.getLsbD_of_ge _ _ (by omega), eq_comm, decide_eq_false_iff_not]
      omega
  exact h _ off.isLt k

/-- The bits of a bit operation's result (R192 to R195). -/
theorem getLsbD_bitResult (fn : BitFn) (off : BitVec 4) (v : Word) (k : Nat) :
    (bitResult fn off v).getLsbD k = if k = off.toNat then bitAfter fn (v.getLsbD k) else v.getLsbD k := by
  have := off.isLt
  by_cases hk : k = off.toNat
  · have h16 : k < 16 := by omega
    cases fn <;> simp only [bitResult, bitAfter, BitVec.getLsbD_or, BitVec.getLsbD_and, BitVec.getLsbD_xor,
      BitVec.getLsbD_not, getLsbD_bitMask] <;> simp [hk]
  · cases fn <;> simp only [bitResult, bitAfter, BitVec.getLsbD_or, BitVec.getLsbD_and, BitVec.getLsbD_xor,
      BitVec.getLsbD_not, getLsbD_bitMask] <;> simp [hk]
    intro h
    exact (BitVec.lt_of_getLsbD h)

/-- The one state a bit operation on a register leads to. -/
theorem bitOnReg_eq (fn : BitFn) (rd : Reg) (off : BitVec 4) (s : State) :
    bitOnReg fn rd off s =
      .next ((bitFlag off (s.reg rd) s).setReg rd (bitResult fn off ((bitFlag off (s.reg rd) s).reg rd))) := by
  cases fn <;> simp [bitOnReg, bitResult]

/-- The one state a bit operation on memory leads to. -/
theorem bitOnMem_eq (fn : BitFn) (a : Addr) (off : BitVec 4) (s : State) :
    bitOnMem fn a off s =
      .next (if fn = .tstb then bitFlag off (s.reply 0 a) (s.afterRead a)
        else (bitFlag off (s.reply 0 a) (s.afterRead a)).memWrite a (bitResult fn off (s.reply 0 a))) := by
  cases fn <;> rfl

/-! ## STORE -/

/-- The one write of a STORE: its address and value, and the state it is made in (R272). -/
theorem storeInstr_eq (rd : Reg) (f : StoreForm) (s : State) :
    ∃ b a v, storeInstr rd f s = .next (b.memWrite a v) ∧ b.mem = s.mem ∧ Performs [] s b ∧ b.sb = s.sb ∧
      SameControl s b := by
  cases f with
  | ind ds mode rs =>
    exact ⟨_, _, _, rfl, by rw [indAfter_mem, indBefore_mem], (indBefore_performs ..).trans (indAfter_performs ..),
      by rw [indAfter_sb, indBefore_sb], (indBefore_control ..).trans (indAfter_control ..)⟩
  | _ => exact ⟨_, _, _, rfl, rfl, .of_eq rfl rfl, rfl, rfl, rfl, rfl, rfl, rfl, rfl, rfl, rfl, rfl, rfl⟩

/-! ## The return from interrupt -/

/-- All that RETI can do after its two pops: leave the FIQ, leave the IRQ, or neither (R292). -/
theorem State.returnInterrupt_cases (s : State) :
    let p := (s.popTo .sr .sp).popTo .pc .sp
    (s.fiq = true ∧
      s.returnInterrupt = { p with fiq := false, savedSb2 := s.sb, sb := s.savedSb0, curirq := 0 }) ∨
    (s.fiq = false ∧ s.irq = true ∧
      s.returnInterrupt = { p with irq := false, savedSb1 := s.sb, sb := s.savedSb0, curirq := 0 }) ∨
    (s.fiq = false ∧ s.irq = false ∧ s.returnInterrupt = { p with curirq := 0 }) := by
  intro p
  have hc : SameControl s p := (s.popTo_control _ _).trans (State.popTo_control _ _ _)
  have hb : p.sb = s.sb := by simp [p]
  have e : s.returnInterrupt =
      { (if p.fiq then { p with fiq := false, savedSb2 := p.sb, sb := p.savedSb0 }
        else if p.irq then { p with irq := false, savedSb1 := p.sb, sb := p.savedSb0 } else p : State) with
        curirq := 0 } := rfl
  rw [e, hc.fiq, hc.irq, hb, hc.savedSb0]
  cases hf : s.fiq
  · cases hi : s.irq
    · exact .inr (.inr ⟨rfl, rfl, by simp [hb, hc.savedSb0, hc.irq, hc.fiq, hf, hi]⟩)
    · exact .inr (.inl ⟨rfl, rfl, by simp⟩)
  · exact .inl ⟨rfl, by simp⟩

/-! ## The fetch -/

/-- The fetch of a one-word opcode: one read, the program counter one further (R10). -/
theorem State.fetch_oneWord (s : State) (h : takesSecondWord (s.reply 0 (busAddr s.lpc)) = false) :
    s.fetch =
      { op := s.reply 0 (busAddr s.lpc)
        words := [s.reply 0 (busAddr s.lpc)]
        st := ({ s with
          bus := [.read (busAddr s.lpc) (s.reply 0 (busAddr s.lpc))]
          replies := s.replies.drop 1 } : State).advPc 1 } := by
  show (if takesSecondWord (s.reply 0 (busAddr s.lpc)) = true then _ else _) = _
  rw [h]
  rfl

/-- The fetch of a two-word instruction: two reads, the program counter past the first word (R93). -/
theorem State.fetch_twoWords (s : State) (h : takesSecondWord (s.reply 0 (busAddr s.lpc)) = true) :
    s.fetch =
      { op := s.reply 0 (busAddr s.lpc)
        words := [s.reply 0 (busAddr s.lpc), s.reply 1 (busAddr (s.lpc + 1))]
        st := ({ s with
          bus := [.read (busAddr s.lpc) (s.reply 0 (busAddr s.lpc)),
            .read (busAddr (s.lpc + 1)) (s.reply 1 (busAddr (s.lpc + 1)))]
          replies := s.replies.drop 2 } : State).advPc 1 } := by
  obtain ⟨p, hp⟩ : ∃ p, p = (({ s with bus := [] } : State).memRead (busAddr s.lpc)).2.advPc 1 := ⟨_, rfl⟩
  have hl : p.lpc = s.lpc + 1 := by
    rw [hp, State.advPc_lpc]
    rfl
  have hr : p.reply 0 (busAddr (s.lpc + 1)) = s.reply 1 (busAddr (s.lpc + 1)) := by
    rw [hp, State.advPc_reply, State.memRead_reply]
    rfl
  have hd : p.replies.drop 1 = s.replies.drop 2 := by
    rw [hp, State.advPc_replies, State.memRead_replies, List.drop_drop]
  have hm : p.memRead (busAddr p.lpc) = (s.reply 1 (busAddr (s.lpc + 1)), { p with
      bus := p.bus ++ [.read (busAddr (s.lpc + 1)) (s.reply 1 (busAddr (s.lpc + 1)))]
      replies := s.replies.drop 2 }) := by
    rw [hl, State.memRead_eq, State.afterRead, hr, hd]
  have hf : s.fetch = if takesSecondWord (s.reply 0 (busAddr s.lpc)) = true then
      { op := s.reply 0 (busAddr s.lpc)
        words := [s.reply 0 (busAddr s.lpc), (p.memRead (busAddr p.lpc)).1]
        st := (p.memRead (busAddr p.lpc)).2 }
      else { op := s.reply 0 (busAddr s.lpc), words := [s.reply 0 (busAddr s.lpc)], st := p } := by
    rw [hp]
    rfl
  rw [hf, if_pos h, hm, hp]
  rfl

/-- The state in which a fetched instruction begins keeps the control state. -/
theorem State.fetched_control (s : State) (i : Instr) : SameControl s (s.fetched i) :=
  ⟨rfl, rfl, rfl, rfl, rfl, rfl, rfl, rfl, rfl, rfl⟩

@[simp] theorem State.fetched_mem (s : State) (i : Instr) : (s.fetched i).mem = s.mem := rfl
@[simp] theorem State.fetched_sb (s : State) (i : Instr) : (s.fetched i).sb = s.sb := rfl
@[simp] theorem State.fetched_lpc (s : State) (i : Instr) : (s.fetched i).lpc = s.lpc + 1 :=
  State.advPc_lpc _ 1

/-- A step of a block that is not faulted. -/
theorem step_running {s : State} (h : s.faulted = none) : step s = s.runStep := by simp [step, h]

/-- A faulted block takes no step. -/
theorem step_latched {s : State} {d : FaultRecord} (h : s.faulted = some d) : step s = .fault (.halted d) := by
  simp [step, h]

/-! ## What no instruction does -/

/-- The memory after any instruction is in canonical form if it was so before. -/
theorem exec_wf (i : Instr) (s t : State) (h : exec i s = .next t) (hs : s.mem.wf = true) : t.mem.wf = true := by
  rw [exec_by_shape] at h
  cases hi : i.shape with
  | mul signed rd rs =>
    obtain ⟨v, e⟩ := exec_ofMul signed rd rs s
    rw [hi, Shape.instr, e] at h; cases h; exact hs
  | call seg addr =>
    rw [hi] at h; cases h
    exact Memory.wf_setWord _ _ _ (Memory.wf_setWord _ _ _ hs)
  | goto seg addr => rw [hi] at h; cases h; exact hs
  | fixed k =>
    obtain ⟨_, _, e⟩ := exec_ofFixed k s
    rw [hi, Shape.instr, e] at h; cases h; exact hs
  | jump c back imm6 =>
    rw [hi, Shape.instr, exec_ofJump, jumpIf] at h
    split at h <;> cases h <;> exact hs
  | bit fn rd f =>
    rw [hi, Shape.instr, exec_ofBit] at h
    split at h
    · cases fn <;> simp only [bitOnReg] at h <;> cases h <;> simpa [bitFlag] using hs
    · cases fn <;> simp only [bitOnMem] at h <;> cases h <;> first | exact hs | exact Memory.wf_setWord _ _ _ hs
  | rshift fn rd rs =>
    rw [hi, Shape.instr] at h
    rcases exec_ofShift fn rd rs s with ⟨v, e⟩ | ⟨v, e⟩ <;> rw [e] at h <;> cases h <;> simpa using hs
  | push rd n rb =>
    rw [hi] at h; cases h
    have : ∀ n r (s : State), s.mem.wf = true → (pushRegs n r rb s).mem.wf = true := by
      intro n
      induction n with
      | zero => exact fun _ _ h => h
      | succ n ih => exact fun r s h => ih _ _ (s.push_wf _ _ h)
    exact this _ _ _ hs
  | pop rd n rb => rw [hi] at h; cases h; rwa [popRegs_mem]
  | reti =>
    rw [hi] at h; cases h
    unfold State.returnInterrupt
    dsimp only
    split
    · simpa using hs
    · split <;> simpa using hs
  | alu op rd f =>
    rw [hi, Shape.instr, exec_ofAlu, aluInstr] at h; cases h
    unfold applyAlu
    dsimp only
    have hm := (evalForm_mem rd f s).symm ▸ hs
    split <;> split <;> first | assumption | (split <;> first | (simpa using hm) | exact Memory.wf_setWord _ _ _ hm)
  | store rd f =>
    rw [hi, Shape.instr, exec_ofStore] at h
    cases f <;> simp only [storeInstr] at h <;> cases h <;> refine Memory.wf_setWord _ _ _ ?_
    · exact hs
    · rwa [indAfter_mem, indBefore_mem]
    · exact hs
    · exact hs
    · exact hs

end Sys2Proof.Machine
end

