-- ==== Sys2Proof/Laws/Operands.lean ====
section
/-! SUPPORT. The `DS:` base as one 22-bit pointer (43_remaining_operands.md R227): what `bumpUp` and `bumpDown` make of
the pair. -/

namespace Sys2Proof.Machine

/-- DS as a number. -/
theorem toNat_srDs (sr : Word) : (srDs sr).toNat = sr.toNat / 1024 := by
  have := sr.isLt
  simp only [srDs, BitVec.extractLsb'_toNat, Nat.shiftRight_eq_div_pow]
  omega

theorem toNat_segOff (seg : BitVec 6) (off : Word) : (segOff seg off).toNat = seg.toNat * 65536 + off.toNat := by
  have := off.isLt
  simp only [segOff, BitVec.toNat_append, Nat.shiftLeft_eq]
  rw [← Nat.shiftLeft_eq, Nat.shiftLeft_add_eq_or_of_lt (by omega)]

/-- Adding to DS leaves the ten bits below it. -/
theorem getLsbD_add_ds (sr : Word) (d : Word) (hd : d = 0x0400#16 ∨ d = 0xFC00#16) (k : Nat) (hk : k < 10) :
    (sr + d).getLsbD k = sr.getLsbD k := by
  simp only [BitVec.getLsbD, BitVec.toNat_add]
  rw [Nat.testBit_mod_two_pow]
  have hk' : k < 16 := by omega
  simp only [hk', decide_true, Bool.true_and]
  have h1 : ∀ n : Nat, n.testBit k = (n % 2^10).testBit k := by
    intro n; rw [Nat.testBit_mod_two_pow]; simp [hk]
  rw [h1, h1 sr.toNat]
  congr 1
  rcases hd with rfl | rfl <;> simp <;> omega

theorem srCs_add_ds (sr : Word) (d : Word) (hd : d = 0x0400#16 ∨ d = 0xFC00#16) : srCs (sr + d) = srCs sr := by
  apply BitVec.eq_of_getLsbD_eq
  intro i hi
  simp only [srCs, BitVec.getLsbD_extractLsb', hi, Nat.zero_add, getLsbD_add_ds sr d hd i (by omega)]

/-- A base other than SR, bumped up with `DS:`: the pair goes up by one modulo 2^22. -/
theorem bumpUp_pair (rs : Reg) (s : State) (hrs : rs ≠ .sr) :
    segOff (srDs (bumpUp true rs s).sr) ((bumpUp true rs s).reg rs) = segOff (srDs s.sr) (s.reg rs) + 1 ∧
    srCs (bumpUp true rs s).sr = srCs s.sr ∧ SameFlags s (bumpUp true rs s) ∧
      SameRegsBut [rs, .sr] s (bumpUp true rs s) := by
  have hsr : (s.setReg rs (s.reg rs + 1)).sr = s.sr := by rw [State.setReg_sr, if_neg (Ne.symm hrs)]
  have hx := (s.reg rs).isLt
  have hs := s.sr.isLt
  by_cases h : s.reg rs + 1#16 = 0#16
  · have e : bumpUp true rs s = (s.setReg rs (s.reg rs + 1)).setReg .sr (s.sr + 0x0400) := by
      simp [bumpUp, h, State.setReg_sr, Ne.symm hrs]
    have esr : (bumpUp true rs s).sr = s.sr + 0x0400#16 := by rw [e, State.setReg_sr, if_pos rfl]; rfl
    have er : (bumpUp true rs s).reg rs = 0#16 := by rw [e]; simp [hrs, h]
    refine ⟨?_, ?_, ?_, ?_⟩
    · apply BitVec.eq_of_toNat_eq
      rw [esr, er]
      simp only [BitVec.toNat_add, toNat_segOff, toNat_srDs]
      have : s.reg rs = 65535#16 := by bv_omega
      simp [this]; omega
    · rw [esr]; exact srCs_add_ds _ _ (.inl rfl)
    · constructor <;> rw [esr] <;> exact getLsbD_add_ds _ _ (.inl rfl) _ (by omega)
    · intro q hq; simp at hq; rw [e]; simp [hq]
  · have e : bumpUp true rs s = s.setReg rs (s.reg rs + 1) := by
      simp [bumpUp, h]
    have er : (bumpUp true rs s).reg rs = s.reg rs + 1#16 := by rw [e]; simp
    refine ⟨?_, ?_, ?_, ?_⟩
    · apply BitVec.eq_of_toNat_eq
      rw [e, hsr]
      simp only [State.reg_setReg, if_true]
      have : (s.reg rs).toNat ≠ 65535 := fun hh => h (by apply BitVec.eq_of_toNat_eq; simp [hh])
      simp only [BitVec.toNat_add, toNat_segOff, toNat_srDs]
      simp; omega
    · rw [e, hsr]
    · constructor <;> rw [e, hsr]
    · intro q hq; simp at hq; rw [e]; simp [hq]

/-- A base other than SR, bumped down with `DS:`: the pair goes down by one modulo 2^22. -/
theorem bumpDown_pair (rs : Reg) (s : State) (hrs : rs ≠ .sr) :
    segOff (srDs (bumpDown true rs s).sr) ((bumpDown true rs s).reg rs) = segOff (srDs s.sr) (s.reg rs) - 1 ∧
    srCs (bumpDown true rs s).sr = srCs s.sr ∧ SameFlags s (bumpDown true rs s) ∧
      SameRegsBut [rs, .sr] s (bumpDown true rs s) := by
  have hsr : (s.setReg rs (s.reg rs - 1)).sr = s.sr := by rw [State.setReg_sr, if_neg (Ne.symm hrs)]
  have hx := (s.reg rs).isLt
  have hs := s.sr.isLt
  by_cases h : s.reg rs - 1#16 = 65535#16
  · have e : bumpDown true rs s = (s.setReg rs (s.reg rs - 1)).setReg .sr (s.sr - 0x0400) := by
      simp [bumpDown, h, State.setReg_sr, Ne.symm hrs]
    have esr : (bumpDown true rs s).sr = s.sr + 0xFC00#16 := by
      rw [e, State.setReg_sr, if_pos rfl]; bv_omega
    have er : (bumpDown true rs s).reg rs = 65535#16 := by rw [e]; simp [hrs, h]
    refine ⟨?_, ?_, ?_, ?_⟩
    · apply BitVec.eq_of_toNat_eq
      rw [esr, er]
      simp only [BitVec.toNat_add, BitVec.toNat_sub, toNat_segOff, toNat_srDs]
      have : s.reg rs = 0#16 := by bv_omega
      simp [this]; omega
    · rw [esr]; exact srCs_add_ds _ _ (.inr rfl)
    · constructor <;> rw [esr] <;> exact getLsbD_add_ds _ _ (.inr rfl) _ (by omega)
    · intro q hq; simp at hq; rw [e]; simp [hq]
  · have e : bumpDown true rs s = s.setReg rs (s.reg rs - 1) := by
      simp [bumpDown, h]
    refine ⟨?_, ?_, ?_, ?_⟩
    · apply BitVec.eq_of_toNat_eq
      rw [e, hsr]
      simp only [State.reg_setReg, if_true]
      have : (s.reg rs).toNat ≠ 0 := fun hh => h (by apply BitVec.eq_of_toNat_eq; simp [BitVec.toNat_sub, hh])
      simp only [BitVec.toNat_sub, toNat_segOff, toNat_srDs]
      simp; omega
    · rw [e, hsr]
    · constructor <;> rw [e, hsr]
    · intro q hq; simp at hq; rw [e]; simp [hq]

/-- A base bumped up without `DS:`: the register alone. -/
theorem bumpUp_plain (rs : Reg) (s : State) : bumpUp false rs s = s.setReg rs (s.reg rs + 1) := by simp [bumpUp]

/-- A base bumped down without `DS:`: the register alone. -/
theorem bumpDown_plain (rs : Reg) (s : State) : bumpDown false rs s = s.setReg rs (s.reg rs - 1) := by
  simp [bumpDown]

/-- SR as its own base, bumped up (R227 in the order written). -/
theorem bumpUp_status (s : State) :
    bumpUp true .sr s =
      { s with sr := if s.sr + 1 = 0#16 then s.sr + 1 + 0x0400#16 else s.sr + 1 } := by
  by_cases h : s.sr + 1 = 0#16 <;> simp at h <;> simp [bumpUp, State.setReg, h]

/-- SR as its own base, bumped down. -/
theorem bumpDown_status (s : State) :
    bumpDown true .sr s =
      { s with sr := if s.sr - 1 = 0xFFFF#16 then s.sr - 1 - 0x0400#16 else s.sr - 1 } := by
  by_cases h : s.sr - 1 = 0xFFFF#16 <;> simp at h <;> simp [bumpDown, State.setReg, h]

end Sys2Proof.Machine
end

