-- ==== Sys2Proof/Laws/PerInstr.lean ====
section
/-! SUPPORT. Statements about every instruction as syntax, one lemma per constructor. -/

/-- Each instruction is the one its shape names, so a statement about `Instr.ofAlu`, `Instr.ofBit` and the like speaks
of each instruction of the family. -/
def Sys2Proof.Laws.ShapeInverse.Statement (i : Sys2Proof.Instr) : Prop := i.shape.instr = i

namespace Sys2Proof.Laws

theorem ShapeInverse.mulUs (rd rs : Reg) : ShapeInverse.Statement (.mulUs rd rs) := rfl
theorem ShapeInverse.mulSs (rd rs : Reg) : ShapeInverse.Statement (.mulSs rd rs) := rfl
theorem ShapeInverse.call (seg : BitVec 6) (addr : Word) : ShapeInverse.Statement (.call seg addr) := rfl
theorem ShapeInverse.goto (seg : BitVec 6) (addr : Word) : ShapeInverse.Statement (.goto seg addr) := rfl
theorem ShapeInverse.intOff : ShapeInverse.Statement (.intOff) := rfl
theorem ShapeInverse.intIrq : ShapeInverse.Statement (.intIrq) := rfl
theorem ShapeInverse.intFiq : ShapeInverse.Statement (.intFiq) := rfl
theorem ShapeInverse.intFiqIrq : ShapeInverse.Statement (.intFiqIrq) := rfl
theorem ShapeInverse.irqOff : ShapeInverse.Statement (.irqOff) := rfl
theorem ShapeInverse.irqOn : ShapeInverse.Statement (.irqOn) := rfl
theorem ShapeInverse.fiqOff : ShapeInverse.Statement (.fiqOff) := rfl
theorem ShapeInverse.fiqOn : ShapeInverse.Statement (.fiqOn) := rfl
theorem ShapeInverse.nop : ShapeInverse.Statement (.nop) := rfl
theorem ShapeInverse.jb (back : Bool) (imm6 : BitVec 6) : ShapeInverse.Statement (.jb back imm6) := rfl
theorem ShapeInverse.jae (back : Bool) (imm6 : BitVec 6) : ShapeInverse.Statement (.jae back imm6) := rfl
theorem ShapeInverse.jge (back : Bool) (imm6 : BitVec 6) : ShapeInverse.Statement (.jge back imm6) := rfl
theorem ShapeInverse.jl (back : Bool) (imm6 : BitVec 6) : ShapeInverse.Statement (.jl back imm6) := rfl
theorem ShapeInverse.jne (back : Bool) (imm6 : BitVec 6) : ShapeInverse.Statement (.jne back imm6) := rfl
theorem ShapeInverse.je (back : Bool) (imm6 : BitVec 6) : ShapeInverse.Statement (.je back imm6) := rfl
theorem ShapeInverse.jpl (back : Bool) (imm6 : BitVec 6) : ShapeInverse.Statement (.jpl back imm6) := rfl
theorem ShapeInverse.jmi (back : Bool) (imm6 : BitVec 6) : ShapeInverse.Statement (.jmi back imm6) := rfl
theorem ShapeInverse.jbe (back : Bool) (imm6 : BitVec 6) : ShapeInverse.Statement (.jbe back imm6) := rfl
theorem ShapeInverse.ja (back : Bool) (imm6 : BitVec 6) : ShapeInverse.Statement (.ja back imm6) := rfl
theorem ShapeInverse.jle (back : Bool) (imm6 : BitVec 6) : ShapeInverse.Statement (.jle back imm6) := rfl
theorem ShapeInverse.jg (back : Bool) (imm6 : BitVec 6) : ShapeInverse.Statement (.jg back imm6) := rfl
theorem ShapeInverse.jvc (back : Bool) (imm6 : BitVec 6) : ShapeInverse.Statement (.jvc back imm6) := rfl
theorem ShapeInverse.jvs (back : Bool) (imm6 : BitVec 6) : ShapeInverse.Statement (.jvs back imm6) := rfl
theorem ShapeInverse.jmp (back : Bool) (imm6 : BitVec 6) : ShapeInverse.Statement (.jmp back imm6) := rfl
theorem ShapeInverse.tstbRRs (rd rs : Reg) : ShapeInverse.Statement (.tstbRRs rd rs) := rfl
theorem ShapeInverse.tstbRImm (rd : Reg) (off : BitVec 4) : ShapeInverse.Statement (.tstbRImm rd off) := rfl
theorem ShapeInverse.tstbMRs (rd rs : Reg) : ShapeInverse.Statement (.tstbMRs rd rs) := rfl
theorem ShapeInverse.tstbDmRs (rd rs : Reg) : ShapeInverse.Statement (.tstbDmRs rd rs) := rfl
theorem ShapeInverse.tstbMImm (rd : Reg) (off : BitVec 4) : ShapeInverse.Statement (.tstbMImm rd off) := rfl
theorem ShapeInverse.tstbDmImm (rd : Reg) (off : BitVec 4) : ShapeInverse.Statement (.tstbDmImm rd off) := rfl
theorem ShapeInverse.setbRRs (rd rs : Reg) : ShapeInverse.Statement (.setbRRs rd rs) := rfl
theorem ShapeInverse.setbRImm (rd : Reg) (off : BitVec 4) : ShapeInverse.Statement (.setbRImm rd off) := rfl
theorem ShapeInverse.setbMRs (rd rs : Reg) : ShapeInverse.Statement (.setbMRs rd rs) := rfl
theorem ShapeInverse.setbDmRs (rd rs : Reg) : ShapeInverse.Statement (.setbDmRs rd rs) := rfl
theorem ShapeInverse.setbMImm (rd : Reg) (off : BitVec 4) : ShapeInverse.Statement (.setbMImm rd off) := rfl
theorem ShapeInverse.setbDmImm (rd : Reg) (off : BitVec 4) : ShapeInverse.Statement (.setbDmImm rd off) := rfl
theorem ShapeInverse.clrbRRs (rd rs : Reg) : ShapeInverse.Statement (.clrbRRs rd rs) := rfl
theorem ShapeInverse.clrbRImm (rd : Reg) (off : BitVec 4) : ShapeInverse.Statement (.clrbRImm rd off) := rfl
theorem ShapeInverse.clrbMRs (rd rs : Reg) : ShapeInverse.Statement (.clrbMRs rd rs) := rfl
theorem ShapeInverse.clrbDmRs (rd rs : Reg) : ShapeInverse.Statement (.clrbDmRs rd rs) := rfl
theorem ShapeInverse.clrbMImm (rd : Reg) (off : BitVec 4) : ShapeInverse.Statement (.clrbMImm rd off) := rfl
theorem ShapeInverse.clrbDmImm (rd : Reg) (off : BitVec 4) : ShapeInverse.Statement (.clrbDmImm rd off) := rfl
theorem ShapeInverse.invbRRs (rd rs : Reg) : ShapeInverse.Statement (.invbRRs rd rs) := rfl
theorem ShapeInverse.invbRImm (rd : Reg) (off : BitVec 4) : ShapeInverse.Statement (.invbRImm rd off) := rfl
theorem ShapeInverse.invbMRs (rd rs : Reg) : ShapeInverse.Statement (.invbMRs rd rs) := rfl
theorem ShapeInverse.invbDmRs (rd rs : Reg) : ShapeInverse.Statement (.invbDmRs rd rs) := rfl
theorem ShapeInverse.invbMImm (rd : Reg) (off : BitVec 4) : ShapeInverse.Statement (.invbMImm rd off) := rfl
theorem ShapeInverse.invbDmImm (rd : Reg) (off : BitVec 4) : ShapeInverse.Statement (.invbDmImm rd off) := rfl
theorem ShapeInverse.rasr (rd rs : Reg) : ShapeInverse.Statement (.rasr rd rs) := rfl
theorem ShapeInverse.rasror (rd rs : Reg) : ShapeInverse.Statement (.rasror rd rs) := rfl
theorem ShapeInverse.rlsl (rd rs : Reg) : ShapeInverse.Statement (.rlsl rd rs) := rfl
theorem ShapeInverse.rlslor (rd rs : Reg) : ShapeInverse.Statement (.rlslor rd rs) := rfl
theorem ShapeInverse.rlsr (rd rs : Reg) : ShapeInverse.Statement (.rlsr rd rs) := rfl
theorem ShapeInverse.rlsror (rd rs : Reg) : ShapeInverse.Statement (.rlsror rd rs) := rfl
theorem ShapeInverse.rrol (rd rs : Reg) : ShapeInverse.Statement (.rrol rd rs) := rfl
theorem ShapeInverse.rror (rd rs : Reg) : ShapeInverse.Statement (.rror rd rs) := rfl
theorem ShapeInverse.push (rd : Reg) (n : BitVec 3) (rb : Reg) : ShapeInverse.Statement (.push rd n rb) := rfl
theorem ShapeInverse.pop (rd : Reg) (n : BitVec 3) (rb : Reg) : ShapeInverse.Statement (.pop rd n rb) := rfl
theorem ShapeInverse.reti : ShapeInverse.Statement (.reti) := rfl
theorem ShapeInverse.addBp6 (rd : Reg) (imm6 : BitVec 6) : ShapeInverse.Statement (.addBp6 rd imm6) := rfl
theorem ShapeInverse.addImm6 (rd : Reg) (imm6 : BitVec 6) : ShapeInverse.Statement (.addImm6 rd imm6) := rfl
theorem ShapeInverse.addInd (rd : Reg) (ds : Bool) (mode : IndMode) (rs : Reg) : ShapeInverse.Statement (.addInd rd ds mode rs) := rfl
theorem ShapeInverse.addReg (rd rs : Reg) : ShapeInverse.Statement (.addReg rd rs) := rfl
theorem ShapeInverse.addImm16 (rd rs : Reg) (imm : Word) : ShapeInverse.Statement (.addImm16 rd rs imm) := rfl
theorem ShapeInverse.addA16 (rd rs : Reg) (addr : Word) : ShapeInverse.Statement (.addA16 rd rs addr) := rfl
theorem ShapeInverse.addToA16 (rd rs : Reg) (addr : Word) : ShapeInverse.Statement (.addToA16 rd rs addr) := rfl
theorem ShapeInverse.addAsr (rd : Reg) (nn : BitVec 2) (rs : Reg) : ShapeInverse.Statement (.addAsr rd nn rs) := rfl
theorem ShapeInverse.addLsl (rd : Reg) (nn : BitVec 2) (rs : Reg) : ShapeInverse.Statement (.addLsl rd nn rs) := rfl
theorem ShapeInverse.addLsr (rd : Reg) (nn : BitVec 2) (rs : Reg) : ShapeInverse.Statement (.addLsr rd nn rs) := rfl
theorem ShapeInverse.addRol (rd : Reg) (nn : BitVec 2) (rs : Reg) : ShapeInverse.Statement (.addRol rd nn rs) := rfl
theorem ShapeInverse.addRor (rd : Reg) (nn : BitVec 2) (rs : Reg) : ShapeInverse.Statement (.addRor rd nn rs) := rfl
theorem ShapeInverse.addA6 (rd : Reg) (imm6 : BitVec 6) : ShapeInverse.Statement (.addA6 rd imm6) := rfl
theorem ShapeInverse.adcBp6 (rd : Reg) (imm6 : BitVec 6) : ShapeInverse.Statement (.adcBp6 rd imm6) := rfl
theorem ShapeInverse.adcImm6 (rd : Reg) (imm6 : BitVec 6) : ShapeInverse.Statement (.adcImm6 rd imm6) := rfl
theorem ShapeInverse.adcInd (rd : Reg) (ds : Bool) (mode : IndMode) (rs : Reg) : ShapeInverse.Statement (.adcInd rd ds mode rs) := rfl
theorem ShapeInverse.adcReg (rd rs : Reg) : ShapeInverse.Statement (.adcReg rd rs) := rfl
theorem ShapeInverse.adcImm16 (rd rs : Reg) (imm : Word) : ShapeInverse.Statement (.adcImm16 rd rs imm) := rfl
theorem ShapeInverse.adcA16 (rd rs : Reg) (addr : Word) : ShapeInverse.Statement (.adcA16 rd rs addr) := rfl
theorem ShapeInverse.adcToA16 (rd rs : Reg) (addr : Word) : ShapeInverse.Statement (.adcToA16 rd rs addr) := rfl
theorem ShapeInverse.adcAsr (rd : Reg) (nn : BitVec 2) (rs : Reg) : ShapeInverse.Statement (.adcAsr rd nn rs) := rfl
theorem ShapeInverse.adcLsl (rd : Reg) (nn : BitVec 2) (rs : Reg) : ShapeInverse.Statement (.adcLsl rd nn rs) := rfl
theorem ShapeInverse.adcLsr (rd : Reg) (nn : BitVec 2) (rs : Reg) : ShapeInverse.Statement (.adcLsr rd nn rs) := rfl
theorem ShapeInverse.adcRol (rd : Reg) (nn : BitVec 2) (rs : Reg) : ShapeInverse.Statement (.adcRol rd nn rs) := rfl
theorem ShapeInverse.adcRor (rd : Reg) (nn : BitVec 2) (rs : Reg) : ShapeInverse.Statement (.adcRor rd nn rs) := rfl
theorem ShapeInverse.adcA6 (rd : Reg) (imm6 : BitVec 6) : ShapeInverse.Statement (.adcA6 rd imm6) := rfl
theorem ShapeInverse.subBp6 (rd : Reg) (imm6 : BitVec 6) : ShapeInverse.Statement (.subBp6 rd imm6) := rfl
theorem ShapeInverse.subImm6 (rd : Reg) (imm6 : BitVec 6) : ShapeInverse.Statement (.subImm6 rd imm6) := rfl
theorem ShapeInverse.subInd (rd : Reg) (ds : Bool) (mode : IndMode) (rs : Reg) : ShapeInverse.Statement (.subInd rd ds mode rs) := rfl
theorem ShapeInverse.subReg (rd rs : Reg) : ShapeInverse.Statement (.subReg rd rs) := rfl
theorem ShapeInverse.subImm16 (rd rs : Reg) (imm : Word) : ShapeInverse.Statement (.subImm16 rd rs imm) := rfl
theorem ShapeInverse.subA16 (rd rs : Reg) (addr : Word) : ShapeInverse.Statement (.subA16 rd rs addr) := rfl
theorem ShapeInverse.subToA16 (rd rs : Reg) (addr : Word) : ShapeInverse.Statement (.subToA16 rd rs addr) := rfl
theorem ShapeInverse.subAsr (rd : Reg) (nn : BitVec 2) (rs : Reg) : ShapeInverse.Statement (.subAsr rd nn rs) := rfl
theorem ShapeInverse.subLsl (rd : Reg) (nn : BitVec 2) (rs : Reg) : ShapeInverse.Statement (.subLsl rd nn rs) := rfl
theorem ShapeInverse.subLsr (rd : Reg) (nn : BitVec 2) (rs : Reg) : ShapeInverse.Statement (.subLsr rd nn rs) := rfl
theorem ShapeInverse.subRol (rd : Reg) (nn : BitVec 2) (rs : Reg) : ShapeInverse.Statement (.subRol rd nn rs) := rfl
theorem ShapeInverse.subRor (rd : Reg) (nn : BitVec 2) (rs : Reg) : ShapeInverse.Statement (.subRor rd nn rs) := rfl
theorem ShapeInverse.subA6 (rd : Reg) (imm6 : BitVec 6) : ShapeInverse.Statement (.subA6 rd imm6) := rfl
theorem ShapeInverse.sbcBp6 (rd : Reg) (imm6 : BitVec 6) : ShapeInverse.Statement (.sbcBp6 rd imm6) := rfl
theorem ShapeInverse.sbcImm6 (rd : Reg) (imm6 : BitVec 6) : ShapeInverse.Statement (.sbcImm6 rd imm6) := rfl
theorem ShapeInverse.sbcInd (rd : Reg) (ds : Bool) (mode : IndMode) (rs : Reg) : ShapeInverse.Statement (.sbcInd rd ds mode rs) := rfl
theorem ShapeInverse.sbcReg (rd rs : Reg) : ShapeInverse.Statement (.sbcReg rd rs) := rfl
theorem ShapeInverse.sbcImm16 (rd rs : Reg) (imm : Word) : ShapeInverse.Statement (.sbcImm16 rd rs imm) := rfl
theorem ShapeInverse.sbcA16 (rd rs : Reg) (addr : Word) : ShapeInverse.Statement (.sbcA16 rd rs addr) := rfl
theorem ShapeInverse.sbcToA16 (rd rs : Reg) (addr : Word) : ShapeInverse.Statement (.sbcToA16 rd rs addr) := rfl
theorem ShapeInverse.sbcAsr (rd : Reg) (nn : BitVec 2) (rs : Reg) : ShapeInverse.Statement (.sbcAsr rd nn rs) := rfl
theorem ShapeInverse.sbcLsl (rd : Reg) (nn : BitVec 2) (rs : Reg) : ShapeInverse.Statement (.sbcLsl rd nn rs) := rfl
theorem ShapeInverse.sbcLsr (rd : Reg) (nn : BitVec 2) (rs : Reg) : ShapeInverse.Statement (.sbcLsr rd nn rs) := rfl
theorem ShapeInverse.sbcRol (rd : Reg) (nn : BitVec 2) (rs : Reg) : ShapeInverse.Statement (.sbcRol rd nn rs) := rfl
theorem ShapeInverse.sbcRor (rd : Reg) (nn : BitVec 2) (rs : Reg) : ShapeInverse.Statement (.sbcRor rd nn rs) := rfl
theorem ShapeInverse.sbcA6 (rd : Reg) (imm6 : BitVec 6) : ShapeInverse.Statement (.sbcA6 rd imm6) := rfl
theorem ShapeInverse.cmpBp6 (rd : Reg) (imm6 : BitVec 6) : ShapeInverse.Statement (.cmpBp6 rd imm6) := rfl
theorem ShapeInverse.cmpImm6 (rd : Reg) (imm6 : BitVec 6) : ShapeInverse.Statement (.cmpImm6 rd imm6) := rfl
theorem ShapeInverse.cmpInd (rd : Reg) (ds : Bool) (mode : IndMode) (rs : Reg) : ShapeInverse.Statement (.cmpInd rd ds mode rs) := rfl
theorem ShapeInverse.cmpReg (rd rs : Reg) : ShapeInverse.Statement (.cmpReg rd rs) := rfl
theorem ShapeInverse.cmpImm16 (rd rs : Reg) (imm : Word) : ShapeInverse.Statement (.cmpImm16 rd rs imm) := rfl
theorem ShapeInverse.cmpA16 (rd rs : Reg) (addr : Word) : ShapeInverse.Statement (.cmpA16 rd rs addr) := rfl
theorem ShapeInverse.cmpToA16 (rd rs : Reg) (addr : Word) : ShapeInverse.Statement (.cmpToA16 rd rs addr) := rfl
theorem ShapeInverse.cmpAsr (rd : Reg) (nn : BitVec 2) (rs : Reg) : ShapeInverse.Statement (.cmpAsr rd nn rs) := rfl
theorem ShapeInverse.cmpLsl (rd : Reg) (nn : BitVec 2) (rs : Reg) : ShapeInverse.Statement (.cmpLsl rd nn rs) := rfl
theorem ShapeInverse.cmpLsr (rd : Reg) (nn : BitVec 2) (rs : Reg) : ShapeInverse.Statement (.cmpLsr rd nn rs) := rfl
theorem ShapeInverse.cmpRol (rd : Reg) (nn : BitVec 2) (rs : Reg) : ShapeInverse.Statement (.cmpRol rd nn rs) := rfl
theorem ShapeInverse.cmpRor (rd : Reg) (nn : BitVec 2) (rs : Reg) : ShapeInverse.Statement (.cmpRor rd nn rs) := rfl
theorem ShapeInverse.cmpA6 (rd : Reg) (imm6 : BitVec 6) : ShapeInverse.Statement (.cmpA6 rd imm6) := rfl
theorem ShapeInverse.negBp6 (rd : Reg) (imm6 : BitVec 6) : ShapeInverse.Statement (.negBp6 rd imm6) := rfl
theorem ShapeInverse.negImm6 (rd : Reg) (imm6 : BitVec 6) : ShapeInverse.Statement (.negImm6 rd imm6) := rfl
theorem ShapeInverse.negInd (rd : Reg) (ds : Bool) (mode : IndMode) (rs : Reg) : ShapeInverse.Statement (.negInd rd ds mode rs) := rfl
theorem ShapeInverse.negReg (rd rs : Reg) : ShapeInverse.Statement (.negReg rd rs) := rfl
theorem ShapeInverse.negImm16 (rd rs : Reg) (imm : Word) : ShapeInverse.Statement (.negImm16 rd rs imm) := rfl
theorem ShapeInverse.negA16 (rd rs : Reg) (addr : Word) : ShapeInverse.Statement (.negA16 rd rs addr) := rfl
theorem ShapeInverse.negToA16 (rd rs : Reg) (addr : Word) : ShapeInverse.Statement (.negToA16 rd rs addr) := rfl
theorem ShapeInverse.negAsr (rd : Reg) (nn : BitVec 2) (rs : Reg) : ShapeInverse.Statement (.negAsr rd nn rs) := rfl
theorem ShapeInverse.negLsl (rd : Reg) (nn : BitVec 2) (rs : Reg) : ShapeInverse.Statement (.negLsl rd nn rs) := rfl
theorem ShapeInverse.negLsr (rd : Reg) (nn : BitVec 2) (rs : Reg) : ShapeInverse.Statement (.negLsr rd nn rs) := rfl
theorem ShapeInverse.negRol (rd : Reg) (nn : BitVec 2) (rs : Reg) : ShapeInverse.Statement (.negRol rd nn rs) := rfl
theorem ShapeInverse.negRor (rd : Reg) (nn : BitVec 2) (rs : Reg) : ShapeInverse.Statement (.negRor rd nn rs) := rfl
theorem ShapeInverse.negA6 (rd : Reg) (imm6 : BitVec 6) : ShapeInverse.Statement (.negA6 rd imm6) := rfl
theorem ShapeInverse.xorBp6 (rd : Reg) (imm6 : BitVec 6) : ShapeInverse.Statement (.xorBp6 rd imm6) := rfl
theorem ShapeInverse.xorImm6 (rd : Reg) (imm6 : BitVec 6) : ShapeInverse.Statement (.xorImm6 rd imm6) := rfl
theorem ShapeInverse.xorInd (rd : Reg) (ds : Bool) (mode : IndMode) (rs : Reg) : ShapeInverse.Statement (.xorInd rd ds mode rs) := rfl
theorem ShapeInverse.xorReg (rd rs : Reg) : ShapeInverse.Statement (.xorReg rd rs) := rfl
theorem ShapeInverse.xorImm16 (rd rs : Reg) (imm : Word) : ShapeInverse.Statement (.xorImm16 rd rs imm) := rfl
theorem ShapeInverse.xorA16 (rd rs : Reg) (addr : Word) : ShapeInverse.Statement (.xorA16 rd rs addr) := rfl
theorem ShapeInverse.xorToA16 (rd rs : Reg) (addr : Word) : ShapeInverse.Statement (.xorToA16 rd rs addr) := rfl
theorem ShapeInverse.xorAsr (rd : Reg) (nn : BitVec 2) (rs : Reg) : ShapeInverse.Statement (.xorAsr rd nn rs) := rfl
theorem ShapeInverse.xorLsl (rd : Reg) (nn : BitVec 2) (rs : Reg) : ShapeInverse.Statement (.xorLsl rd nn rs) := rfl
theorem ShapeInverse.xorLsr (rd : Reg) (nn : BitVec 2) (rs : Reg) : ShapeInverse.Statement (.xorLsr rd nn rs) := rfl
theorem ShapeInverse.xorRol (rd : Reg) (nn : BitVec 2) (rs : Reg) : ShapeInverse.Statement (.xorRol rd nn rs) := rfl
theorem ShapeInverse.xorRor (rd : Reg) (nn : BitVec 2) (rs : Reg) : ShapeInverse.Statement (.xorRor rd nn rs) := rfl
theorem ShapeInverse.xorA6 (rd : Reg) (imm6 : BitVec 6) : ShapeInverse.Statement (.xorA6 rd imm6) := rfl
theorem ShapeInverse.loadBp6 (rd : Reg) (imm6 : BitVec 6) : ShapeInverse.Statement (.loadBp6 rd imm6) := rfl
theorem ShapeInverse.loadImm6 (rd : Reg) (imm6 : BitVec 6) : ShapeInverse.Statement (.loadImm6 rd imm6) := rfl
theorem ShapeInverse.loadInd (rd : Reg) (ds : Bool) (mode : IndMode) (rs : Reg) : ShapeInverse.Statement (.loadInd rd ds mode rs) := rfl
theorem ShapeInverse.loadReg (rd rs : Reg) : ShapeInverse.Statement (.loadReg rd rs) := rfl
theorem ShapeInverse.loadImm16 (rd rs : Reg) (imm : Word) : ShapeInverse.Statement (.loadImm16 rd rs imm) := rfl
theorem ShapeInverse.loadA16 (rd rs : Reg) (addr : Word) : ShapeInverse.Statement (.loadA16 rd rs addr) := rfl
theorem ShapeInverse.loadToA16 (rd rs : Reg) (addr : Word) : ShapeInverse.Statement (.loadToA16 rd rs addr) := rfl
theorem ShapeInverse.loadAsr (rd : Reg) (nn : BitVec 2) (rs : Reg) : ShapeInverse.Statement (.loadAsr rd nn rs) := rfl
theorem ShapeInverse.loadLsl (rd : Reg) (nn : BitVec 2) (rs : Reg) : ShapeInverse.Statement (.loadLsl rd nn rs) := rfl
theorem ShapeInverse.loadLsr (rd : Reg) (nn : BitVec 2) (rs : Reg) : ShapeInverse.Statement (.loadLsr rd nn rs) := rfl
theorem ShapeInverse.loadRol (rd : Reg) (nn : BitVec 2) (rs : Reg) : ShapeInverse.Statement (.loadRol rd nn rs) := rfl
theorem ShapeInverse.loadRor (rd : Reg) (nn : BitVec 2) (rs : Reg) : ShapeInverse.Statement (.loadRor rd nn rs) := rfl
theorem ShapeInverse.loadA6 (rd : Reg) (imm6 : BitVec 6) : ShapeInverse.Statement (.loadA6 rd imm6) := rfl
theorem ShapeInverse.orBp6 (rd : Reg) (imm6 : BitVec 6) : ShapeInverse.Statement (.orBp6 rd imm6) := rfl
theorem ShapeInverse.orImm6 (rd : Reg) (imm6 : BitVec 6) : ShapeInverse.Statement (.orImm6 rd imm6) := rfl
theorem ShapeInverse.orInd (rd : Reg) (ds : Bool) (mode : IndMode) (rs : Reg) : ShapeInverse.Statement (.orInd rd ds mode rs) := rfl
theorem ShapeInverse.orReg (rd rs : Reg) : ShapeInverse.Statement (.orReg rd rs) := rfl
theorem ShapeInverse.orImm16 (rd rs : Reg) (imm : Word) : ShapeInverse.Statement (.orImm16 rd rs imm) := rfl
theorem ShapeInverse.orA16 (rd rs : Reg) (addr : Word) : ShapeInverse.Statement (.orA16 rd rs addr) := rfl
theorem ShapeInverse.orToA16 (rd rs : Reg) (addr : Word) : ShapeInverse.Statement (.orToA16 rd rs addr) := rfl
theorem ShapeInverse.orAsr (rd : Reg) (nn : BitVec 2) (rs : Reg) : ShapeInverse.Statement (.orAsr rd nn rs) := rfl
theorem ShapeInverse.orLsl (rd : Reg) (nn : BitVec 2) (rs : Reg) : ShapeInverse.Statement (.orLsl rd nn rs) := rfl
theorem ShapeInverse.orLsr (rd : Reg) (nn : BitVec 2) (rs : Reg) : ShapeInverse.Statement (.orLsr rd nn rs) := rfl
theorem ShapeInverse.orRol (rd : Reg) (nn : BitVec 2) (rs : Reg) : ShapeInverse.Statement (.orRol rd nn rs) := rfl
theorem ShapeInverse.orRor (rd : Reg) (nn : BitVec 2) (rs : Reg) : ShapeInverse.Statement (.orRor rd nn rs) := rfl
theorem ShapeInverse.orA6 (rd : Reg) (imm6 : BitVec 6) : ShapeInverse.Statement (.orA6 rd imm6) := rfl
theorem ShapeInverse.andBp6 (rd : Reg) (imm6 : BitVec 6) : ShapeInverse.Statement (.andBp6 rd imm6) := rfl
theorem ShapeInverse.andImm6 (rd : Reg) (imm6 : BitVec 6) : ShapeInverse.Statement (.andImm6 rd imm6) := rfl
theorem ShapeInverse.andInd (rd : Reg) (ds : Bool) (mode : IndMode) (rs : Reg) : ShapeInverse.Statement (.andInd rd ds mode rs) := rfl
theorem ShapeInverse.andReg (rd rs : Reg) : ShapeInverse.Statement (.andReg rd rs) := rfl
theorem ShapeInverse.andImm16 (rd rs : Reg) (imm : Word) : ShapeInverse.Statement (.andImm16 rd rs imm) := rfl
theorem ShapeInverse.andA16 (rd rs : Reg) (addr : Word) : ShapeInverse.Statement (.andA16 rd rs addr) := rfl
theorem ShapeInverse.andToA16 (rd rs : Reg) (addr : Word) : ShapeInverse.Statement (.andToA16 rd rs addr) := rfl
theorem ShapeInverse.andAsr (rd : Reg) (nn : BitVec 2) (rs : Reg) : ShapeInverse.Statement (.andAsr rd nn rs) := rfl
theorem ShapeInverse.andLsl (rd : Reg) (nn : BitVec 2) (rs : Reg) : ShapeInverse.Statement (.andLsl rd nn rs) := rfl
theorem ShapeInverse.andLsr (rd : Reg) (nn : BitVec 2) (rs : Reg) : ShapeInverse.Statement (.andLsr rd nn rs) := rfl
theorem ShapeInverse.andRol (rd : Reg) (nn : BitVec 2) (rs : Reg) : ShapeInverse.Statement (.andRol rd nn rs) := rfl
theorem ShapeInverse.andRor (rd : Reg) (nn : BitVec 2) (rs : Reg) : ShapeInverse.Statement (.andRor rd nn rs) := rfl
theorem ShapeInverse.andA6 (rd : Reg) (imm6 : BitVec 6) : ShapeInverse.Statement (.andA6 rd imm6) := rfl
theorem ShapeInverse.testBp6 (rd : Reg) (imm6 : BitVec 6) : ShapeInverse.Statement (.testBp6 rd imm6) := rfl
theorem ShapeInverse.testImm6 (rd : Reg) (imm6 : BitVec 6) : ShapeInverse.Statement (.testImm6 rd imm6) := rfl
theorem ShapeInverse.testInd (rd : Reg) (ds : Bool) (mode : IndMode) (rs : Reg) : ShapeInverse.Statement (.testInd rd ds mode rs) := rfl
theorem ShapeInverse.testReg (rd rs : Reg) : ShapeInverse.Statement (.testReg rd rs) := rfl
theorem ShapeInverse.testImm16 (rd rs : Reg) (imm : Word) : ShapeInverse.Statement (.testImm16 rd rs imm) := rfl
theorem ShapeInverse.testA16 (rd rs : Reg) (addr : Word) : ShapeInverse.Statement (.testA16 rd rs addr) := rfl
theorem ShapeInverse.testToA16 (rd rs : Reg) (addr : Word) : ShapeInverse.Statement (.testToA16 rd rs addr) := rfl
theorem ShapeInverse.testAsr (rd : Reg) (nn : BitVec 2) (rs : Reg) : ShapeInverse.Statement (.testAsr rd nn rs) := rfl
theorem ShapeInverse.testLsl (rd : Reg) (nn : BitVec 2) (rs : Reg) : ShapeInverse.Statement (.testLsl rd nn rs) := rfl
theorem ShapeInverse.testLsr (rd : Reg) (nn : BitVec 2) (rs : Reg) : ShapeInverse.Statement (.testLsr rd nn rs) := rfl
theorem ShapeInverse.testRol (rd : Reg) (nn : BitVec 2) (rs : Reg) : ShapeInverse.Statement (.testRol rd nn rs) := rfl
theorem ShapeInverse.testRor (rd : Reg) (nn : BitVec 2) (rs : Reg) : ShapeInverse.Statement (.testRor rd nn rs) := rfl
theorem ShapeInverse.testA6 (rd : Reg) (imm6 : BitVec 6) : ShapeInverse.Statement (.testA6 rd imm6) := rfl
theorem ShapeInverse.storeBp6 (rd : Reg) (imm6 : BitVec 6) : ShapeInverse.Statement (.storeBp6 rd imm6) := rfl
theorem ShapeInverse.storeInd (rd : Reg) (ds : Bool) (mode : IndMode) (rs : Reg) : ShapeInverse.Statement (.storeInd rd ds mode rs) := rfl
theorem ShapeInverse.storeA16 (rd rs : Reg) (addr : Word) : ShapeInverse.Statement (.storeA16 rd rs addr) := rfl
theorem ShapeInverse.storeToA16 (rd rs : Reg) (addr : Word) : ShapeInverse.Statement (.storeToA16 rd rs addr) := rfl
theorem ShapeInverse.storeA6 (rd : Reg) (imm6 : BitVec 6) : ShapeInverse.Statement (.storeA6 rd imm6) := rfl

end Sys2Proof.Laws
end

