-- ==== Sys2Proof/Tests/Slice0.lean ====
section
/-! SUPPORT. Tests: terms that well-formedness refuses; every constructor's decoding, on words written out from the
encodings of spec/opcode_table.json; single steps, with start and end from the vectors of spec/95_test_vectors.md; and
for each obligation with hypotheses a state and operands that meet them. -/

namespace Sys2Proof.Tests

open Sys2Proof.Machine

set_option maxRecDepth 4000

/-! ## Helpers -/

/-- The state an outcome leaves, or none. -/
def left (r : Result) : Option State :=
  match r with
  | .next s => some s
  | .fault _ | .refused _ => none

/-- An outcome that leaves a state is that next state. -/
theorem next_of_left {r : Result} {t : State} (h : left r = some t) : r = .next t := by
  cases r <;> simp_all [left]

/-- The vectors' start: everything zero, LPC at 0x000100. -/
def start : State := { State.reset with pc := 0x0100, bus := [] }

/-- Plain storage answers every read of the start. -/
theorem plain_start (n : Nat) : PlainReads n start := fun _ _ => rfl

/-- A memory that holds the words of a list. -/
def holding (words : List (Addr × Word)) : Memory := words.foldr (fun w m => Memory.setWord m w.1 w.2) []

/-- The state after one step from `s` with these words in memory; `start` if the step leaves none. -/
def after (words : List (Addr × Word)) (s : State) : State := (left (step { s with mem := holding words })).getD start

/-- The one-word instruction `i` is read from the word `w`. -/
def reads (w : Nat) (i : Instr) : Bool := decodeTableWord 16 w == some i

/-- The two-word instruction `i` is read from the words `w` and `imm`. -/
def reads2 (w imm : Nat) (i : Instr) : Bool := decodeTableWord 32 (w + imm * 65536) == some i

/-! ## Well-formedness refuses -/

/-- BP6 and IMM6 with `opa = 7` are jumps (R221, R222). -/
theorem test_wf_alu_pc_refused :
    Instr.wf (.addBp6 .pc 0) = false ∧ Instr.wf (.loadImm6 .pc 5) = false ∧ Instr.wf (.loadA6 .pc 5) = true := by
  decide

/-- STORE to BP6 with `opa = 7` is a jump (R238). -/
theorem test_wf_store_pc_refused : Instr.wf (.storeBp6 .pc 0) = false ∧ Instr.wf (.storeA6 .pc 0) = true := by decide

/-- The register forms of the bit operations cannot name PC (R191). -/
theorem test_wf_bit_pc_refused :
    Instr.wf (.setbRImm .pc 0) = false ∧ Instr.wf (.tstbRRs .pc .r1) = false ∧ Instr.wf (.setbMImm .pc 0) = true := by
  decide

/-- PUSH of no register and PUSH below register 0 (R290). -/
theorem test_wf_push_refused :
    Instr.wf (.push .r1 0 .sp) = false ∧ Instr.wf (.push .r1 3 .sp) = false ∧ Instr.wf (.push .r1 2 .sp) = true := by
  decide

/-- POP of no register and POP above register 7 (R291). -/
theorem test_wf_pop_refused :
    Instr.wf (.pop .r4 0 .sp) = false ∧ Instr.wf (.pop .r4 4 .sp) = false ∧ Instr.wf (.pop .pc 1 .sp) = false ∧
    Instr.wf (.pop .r4 3 .sp) = true := by decide

/-! ## Decoding: words from the encodings of spec/opcode_table.json -/

theorem test_decode_fxxx :
    reads 0b1111001000001010 (.mulUs .r1 .r2) ∧
    reads 0b1111110100001101 (.mulSs .sr .bp) ∧
    reads2 0b1111000001111011 0xBE63 (.call 59#6 0xBE63#16) ∧
    reads2 0b1111111010000110 0xCF74 (.goto 6#6 0xCF74#16) ∧
    reads 0b1111000101000000 .intOff ∧
    reads 0b1111000101000001 .intIrq ∧
    reads 0b1111000101000010 .intFiq ∧
    reads 0b1111000101000011 .intFiqIrq ∧
    reads 0b1111000101001000 .irqOff ∧
    reads 0b1111000101001001 .irqOn ∧
    reads 0b1111000101001100 .fiqOff ∧
    reads 0b1111000101001110 .fiqOn ∧
    reads 0b1111000101100101 .nop := by decide

theorem test_decode_jumps :
    reads 0b0000111001110100 (.jb true 52#6) ∧
    reads 0b0001111000111111 (.jae false 63#6) ∧
    reads 0b0010111001001010 (.jge true 10#6) ∧
    reads 0b0011111000010101 (.jl false 21#6) ∧
    reads 0b0100111001100000 (.jne true 32#6) ∧
    reads 0b0101111000101011 (.je false 43#6) ∧
    reads 0b0110111001110110 (.jpl true 54#6) ∧
    reads 0b0111111000000001 (.jmi false 1#6) ∧
    reads 0b1000111001001100 (.jbe true 12#6) ∧
    reads 0b1001111000010111 (.ja false 23#6) ∧
    reads 0b1010111001100010 (.jle true 34#6) ∧
    reads 0b1011111000101101 (.jg false 45#6) ∧
    reads 0b1100111001111000 (.jvc true 56#6) ∧
    reads 0b1101111000000011 (.jvs false 3#6) ∧
    reads 0b1110111001001110 (.jmp true 14#6) := by decide

theorem test_decode_tstb :
    reads 0b1110001000000110 (.tstbRRs .r1 .sr) ∧
    reads 0b1110110001001010 (.tstbRImm .sr 10#4) ∧
    reads 0b1110100100000100 (.tstbMRs .r4 .r4) ∧
    reads 0b1110010101000111 (.tstbDmRs .r2 .pc) ∧
    reads 0b1110000110001001 (.tstbMImm .sp 9#4) ∧
    reads 0b1110101111001110 (.tstbDmImm .bp 14#4) := by decide

theorem test_decode_setb :
    reads 0b1110011000010000 (.setbRRs .r3 .sp) ∧
    reads 0b1110001001011000 (.setbRImm .r1 8#4) ∧
    reads 0b1110110100010110 (.setbMRs .sr .sr) ∧
    reads 0b1110100101010001 (.setbDmRs .r4 .r1) ∧
    reads 0b1110010110010111 (.setbMImm .r2 7#4) ∧
    reads 0b1110000111011100 (.setbDmImm .sp 12#4) := by decide

theorem test_decode_clrb :
    reads 0b1110101000100010 (.clrbRRs .bp .r2) ∧
    reads 0b1110011001100110 (.clrbRImm .r3 6#4) ∧
    reads 0b1110001100100000 (.clrbMRs .r1 .sp) ∧
    reads 0b1110110101100011 (.clrbDmRs .sr .r3) ∧
    reads 0b1110100110100101 (.clrbMImm .r4 5#4) ∧
    reads 0b1110010111101010 (.clrbDmImm .r2 10#4) := by decide

theorem test_decode_invb :
    reads 0b1110000000110100 (.invbRRs .sp .r4) ∧
    reads 0b1110101001110100 (.invbRImm .bp 4#4) ∧
    reads 0b1110011100110010 (.invbMRs .r3 .r2) ∧
    reads 0b1110001101110101 (.invbDmRs .r1 .bp) ∧
    reads 0b1110110110110011 (.invbMImm .sr 3#4) ∧
    reads 0b1110100111111000 (.invbDmImm .r4 8#4) := by decide

theorem test_decode_registerShifts :
    reads 0b1110010100001110 (.rasr .r2 .sr) ∧
    reads 0b1110000100011001 (.rasror .sp .r1) ∧
    reads 0b1110101100101100 (.rlsl .bp .r4) ∧
    reads 0b1110011100111111 (.rlslor .r3 .pc) ∧
    reads 0b1110001101001010 (.rlsr .r1 .r2) ∧
    reads 0b1110110101011101 (.rlsror .sr .bp) ∧
    reads 0b1110100101101000 (.rrol .r4 .sp) ∧
    reads 0b1110010101111011 (.rror .r2 .r3) := by decide

theorem test_decode_stack :
    reads 0b1101101010110001 (.push .bp 6#3 .r1) ∧
    reads 0b1001001010110100 (.pop .r1 6#3 .r4) ∧
    reads 0b1001101010011000 .reti := by decide

theorem test_decode_add :
    reads 0b0000001000011010 (.addBp6 .r1 26#6) ∧
    reads 0b0000110001100101 (.addImm6 .sr 37#6) ∧
    reads 0b0000100011110101 (.addInd .r4 true .postInc .bp) ∧
    reads 0b0000010100000000 (.addReg .r2 .sp) ∧
    reads2 0b0000000100001011 0x13B4 (.addImm16 .sp .r3 0x13B4#16) ∧
    reads2 0b0000101100010110 0x24C5 (.addA16 .bp .sr 0x24C5#16) ∧
    reads2 0b0000011100011001 0x35D6 (.addToA16 .r3 .r1 0x35D6#16) ∧
    reads 0b0000001100111100 (.addAsr .r1 3#2 .r4) ∧
    reads 0b0000110101010111 (.addLsl .sr 2#2 .pc) ∧
    reads 0b0000100101101010 (.addLsr .r4 1#2 .r2) ∧
    reads 0b0000010110000101 (.addRol .r2 0#2 .bp) ∧
    reads 0b0000000110111000 (.addRor .sp 3#2 .sp) ∧
    reads 0b0000101111011110 (.addA6 .bp 30#6) := by decide

theorem test_decode_adc :
    reads 0b0001011000101001 (.adcBp6 .r3 41#6) ∧
    reads 0b0001001001110100 (.adcImm6 .r1 52#6) ∧
    reads 0b0001110011011100 (.adcInd .sr false .preInc .r4) ∧
    reads 0b0001100100000111 (.adcReg .r4 .pc) ∧
    reads2 0b0001010100001010 0xF191 (.adcImm16 .r2 .r2 0xF191#16) ∧
    reads2 0b0001000100010101 0x02A2 (.adcA16 .sp .bp 0x02A2#16) ∧
    reads2 0b0001101100011000 0x13B3 (.adcToA16 .bp .sp 0x13B3#16) ∧
    reads 0b0001011100110011 (.adcAsr .r3 2#2 .r3) ∧
    reads 0b0001001101001110 (.adcLsl .r1 1#2 .sr) ∧
    reads 0b0001110101100001 (.adcLsr .sr 0#2 .r1) ∧
    reads 0b0001100110011100 (.adcRol .r4 3#2 .r4) ∧
    reads 0b0001010110110111 (.adcRor .r2 2#2 .pc) ∧
    reads 0b0001000111101101 (.adcA6 .sp 45#6) := by decide

theorem test_decode_sub :
    reads 0b0010101000111000 (.subBp6 .bp 56#6) ∧
    reads 0b0010011001000011 (.subImm6 .r3 3#6) ∧
    reads 0b0010001011000011 (.subInd .r1 false .plain .r3) ∧
    reads 0b0010110100000110 (.subReg .sr .sr) ∧
    reads2 0b0010100100001001 0xCF6E (.subImm16 .r4 .r1 0xCF6E#16) ∧
    reads2 0b0010010100010100 0xE07F (.subA16 .r2 .r4 0xE07F#16) ∧
    reads2 0b0010000100011111 0xF190 (.subToA16 .sp .pc 0xF190#16) ∧
    reads 0b0010101100101010 (.subAsr .bp 1#2 .r2) ∧
    reads 0b0010011101000101 (.subLsl .r3 0#2 .bp) ∧
    reads 0b0010001101111000 (.subLsr .r1 3#2 .sp) ∧
    reads 0b0010110110010011 (.subRol .sr 2#2 .r3) ∧
    reads 0b0010100110101110 (.subRor .r4 1#2 .sr) ∧
    reads 0b0010010111111100 (.subA6 .r2 60#6) := by decide

theorem test_decode_sbc :
    reads 0b0011000000000111 (.sbcBp6 .sp 7#6) ∧
    reads 0b0011101001010010 (.sbcImm6 .bp 18#6) ∧
    reads 0b0011011011001010 (.sbcInd .r3 false .postDec .r2) ∧
    reads 0b0011001100000101 (.sbcReg .r1 .bp) ∧
    reads2 0b0011110100001000 0xAD4B (.sbcImm16 .sr .sp 0xAD4B#16) ∧
    reads2 0b0011100100010011 0xBE5C (.sbcA16 .r4 .r3 0xBE5C#16) ∧
    reads2 0b0011010100011110 0xCF6D (.sbcToA16 .r2 .sr 0xCF6D#16) ∧
    reads 0b0011000100100001 (.sbcAsr .sp 0#2 .r1) ∧
    reads 0b0011101101011100 (.sbcLsl .bp 3#2 .r4) ∧
    reads 0b0011011101110111 (.sbcLsr .r3 2#2 .pc) ∧
    reads 0b0011001110001010 (.sbcRol .r1 1#2 .r2) ∧
    reads 0b0011110110100101 (.sbcRor .sr 0#2 .bp) ∧
    reads 0b0011100111001011 (.sbcA6 .r4 11#6) := by decide

theorem test_decode_cmp :
    reads 0b0100010000010110 (.cmpBp6 .r2 22#6) ∧
    reads 0b0100000001100001 (.cmpImm6 .sp 33#6) ∧
    reads 0b0100101011110001 (.cmpInd .bp true .postInc .r1) ∧
    reads 0b0100011100000100 (.cmpReg .r3 .r4) ∧
    reads2 0b0100001100001111 0x8B28 (.cmpImm16 .r1 .pc 0x8B28#16) ∧
    reads2 0b0100110100010010 0x9C39 (.cmpA16 .sr .r2 0x9C39#16) ∧
    reads2 0b0100100100011101 0xAD4A (.cmpToA16 .r4 .bp 0xAD4A#16) ∧
    reads 0b0100010100111000 (.cmpAsr .r2 3#2 .sp) ∧
    reads 0b0100000101010011 (.cmpLsl .sp 2#2 .r3) ∧
    reads 0b0100101101101110 (.cmpLsr .bp 1#2 .sr) ∧
    reads 0b0100011110000001 (.cmpRol .r3 0#2 .r1) ∧
    reads 0b0100001110111100 (.cmpRor .r1 3#2 .r4) ∧
    reads 0b0100110111011010 (.cmpA6 .sr 26#6) := by decide

theorem test_decode_neg :
    reads 0b0110100000100101 (.negBp6 .r4 37#6) ∧
    reads 0b0110010001110000 (.negImm6 .r2 48#6) ∧
    reads 0b0110000011111000 (.negInd .sp true .preInc .sp) ∧
    reads 0b0110101100000011 (.negReg .bp .r3) ∧
    reads2 0b0110011100001110 0x6905 (.negImm16 .r3 .sr 0x6905#16) ∧
    reads2 0b0110001100010001 0x7A16 (.negA16 .r1 .r1 0x7A16#16) ∧
    reads2 0b0110110100011100 0x8B27 (.negToA16 .sr .r4 0x8B27#16) ∧
    reads 0b0110100100110111 (.negAsr .r4 2#2 .pc) ∧
    reads 0b0110010101001010 (.negLsl .r2 1#2 .r2) ∧
    reads 0b0110000101100101 (.negLsr .sp 0#2 .bp) ∧
    reads 0b0110101110011000 (.negRol .bp 3#2 .sp) ∧
    reads 0b0110011110110011 (.negRor .r3 2#2 .r3) ∧
    reads 0b0110001111101001 (.negA6 .r1 41#6) := by decide

theorem test_decode_xor :
    reads 0b1000110000110100 (.xorBp6 .sr 52#6) ∧
    reads 0b1000100001111111 (.xorImm6 .r4 63#6) ∧
    reads 0b1000010011100111 (.xorInd .r2 true .plain .pc) ∧
    reads 0b1000000100000010 (.xorReg .sp .r2) ∧
    reads2 0b1000101100001101 0x46E2 (.xorImm16 .bp .bp 0x46E2#16) ∧
    reads2 0b1000011100010000 0x57F3 (.xorA16 .r3 .sp 0x57F3#16) ∧
    reads2 0b1000001100011011 0x6904 (.xorToA16 .r1 .r3 0x6904#16) ∧
    reads 0b1000110100101110 (.xorAsr .sr 1#2 .sr) ∧
    reads 0b1000100101000001 (.xorLsl .r4 0#2 .r1) ∧
    reads 0b1000010101111100 (.xorLsr .r2 3#2 .r4) ∧
    reads 0b1000000110010111 (.xorRol .sp 2#2 .pc) ∧
    reads 0b1000101110101010 (.xorRor .bp 1#2 .r2) ∧
    reads 0b1000011111111000 (.xorA6 .r3 56#6) := by decide

theorem test_decode_load :
    reads 0b1001001000000011 (.loadBp6 .r1 3#6) ∧
    reads 0b1001110001001110 (.loadImm6 .sr 14#6) ∧
    reads 0b1001100011001110 (.loadInd .r4 false .postDec .sr) ∧
    reads 0b1001010100000001 (.loadReg .r2 .r1) ∧
    reads2 0b1001000100001100 0x24BF (.loadImm16 .sp .r4 0x24BF#16) ∧
    reads2 0b1001101100010111 0x35D0 (.loadA16 .bp .pc 0x35D0#16) ∧
    reads2 0b1001011100011010 0x46E1 (.loadToA16 .r3 .r2 0x46E1#16) ∧
    reads 0b1001001100100101 (.loadAsr .r1 0#2 .bp) ∧
    reads 0b1001110101011000 (.loadLsl .sr 3#2 .sp) ∧
    reads 0b1001100101110011 (.loadLsr .r4 2#2 .r3) ∧
    reads 0b1001010110001110 (.loadRol .r2 1#2 .sr) ∧
    reads 0b1001000110100001 (.loadRor .sp 0#2 .r1) ∧
    reads 0b1001101111000111 (.loadA6 .bp 7#6) := by decide

theorem test_decode_or :
    reads 0b1010011000010010 (.orBp6 .r3 18#6) ∧
    reads 0b1010001001011101 (.orImm6 .r1 29#6) ∧
    reads 0b1010110011010101 (.orInd .sr false .postInc .bp) ∧
    reads 0b1010100100000000 (.orReg .r4 .sp) ∧
    reads2 0b1010010100001011 0x029C (.orImm16 .r2 .r3 0x029C#16) ∧
    reads2 0b1010000100010110 0x13AD (.orA16 .sp .sr 0x13AD#16) ∧
    reads2 0b1010101100011001 0x24BE (.orToA16 .bp .r1 0x24BE#16) ∧
    reads 0b1010011100111100 (.orAsr .r3 3#2 .r4) ∧
    reads 0b1010001101010111 (.orLsl .r1 2#2 .pc) ∧
    reads 0b1010110101101010 (.orLsr .sr 1#2 .r2) ∧
    reads 0b1010100110000101 (.orRol .r4 0#2 .bp) ∧
    reads 0b1010010110111000 (.orRor .r2 3#2 .sp) ∧
    reads 0b1010000111010110 (.orA6 .sp 22#6) := by decide

theorem test_decode_and :
    reads 0b1011101000100001 (.andBp6 .bp 33#6) ∧
    reads 0b1011011001101100 (.andImm6 .r3 44#6) ∧
    reads 0b1011001011011100 (.andInd .r1 false .preInc .r4) ∧
    reads 0b1011110100000111 (.andReg .sr .pc) ∧
    reads2 0b1011100100001010 0xE079 (.andImm16 .r4 .r2 0xE079#16) ∧
    reads2 0b1011010100010101 0xF18A (.andA16 .r2 .bp 0xF18A#16) ∧
    reads2 0b1011000100011000 0x029B (.andToA16 .sp .sp 0x029B#16) ∧
    reads 0b1011101100110011 (.andAsr .bp 2#2 .r3) ∧
    reads 0b1011011101001110 (.andLsl .r3 1#2 .sr) ∧
    reads 0b1011001101100001 (.andLsr .r1 0#2 .r1) ∧
    reads 0b1011110110011100 (.andRol .sr 3#2 .r4) ∧
    reads 0b1011100110110111 (.andRor .r4 2#2 .pc) ∧
    reads 0b1011010111100101 (.andA6 .r2 37#6) := by decide

theorem test_decode_test :
    reads 0b1100000000110000 (.testBp6 .sp 48#6) ∧
    reads 0b1100101001111011 (.testImm6 .bp 59#6) ∧
    reads 0b1100011011100011 (.testInd .r3 true .plain .r3) ∧
    reads 0b1100001100000110 (.testReg .r1 .sr) ∧
    reads2 0b1100110100001001 0xBE56 (.testImm16 .sr .r1 0xBE56#16) ∧
    reads2 0b1100100100010100 0xCF67 (.testA16 .r4 .r4 0xCF67#16) ∧
    reads2 0b1100010100011111 0xE078 (.testToA16 .r2 .pc 0xE078#16) ∧
    reads 0b1100000100101010 (.testAsr .sp 1#2 .r2) ∧
    reads 0b1100101101000101 (.testLsl .bp 0#2 .bp) ∧
    reads 0b1100011101111000 (.testLsr .r3 3#2 .sp) ∧
    reads 0b1100001110010011 (.testRol .r1 2#2 .r3) ∧
    reads 0b1100110110101110 (.testRor .sr 1#2 .sr) ∧
    reads 0b1100100111110100 (.testA6 .r4 52#6) := by decide

theorem test_decode_store :
    reads 0b1101010000111111 (.storeBp6 .r2 63#6) ∧
    reads 0b1101000011100111 (.storeInd .sp true .plain .pc) ∧
    reads2 0b1101101100010010 0x7A11 (.storeA16 .bp .r2 0x7A11#16) ∧
    reads2 0b1101011100011101 0x8B22 (.storeToA16 .r3 .bp 0x8B22#16) ∧
    reads 0b1101001111101011 (.storeA6 .r1 43#6) := by decide

/-- An illegal word of each kind of R103 is rejected by name. -/
theorem test_decode_illegal :
    decodeTableWord 16 0xF160 = none ∧ decodeTableWord 16 0xE080 = none ∧ decodeTableWord 16 0x5302 = none ∧
    decodeTableWord 16 0xD240 = none ∧ decodeTableWord 16 0x9A99 = none := by decide

/-- Both endings of the table's layout: an operand word the table gives no bits is zero. -/
theorem test_decode_short_two_word : decodeTableWord 16 0xF045 = some (.call 5 0) := by decide

/-! ## Single steps (95_test_vectors.md) -/

/-- VF1: `mr = R1*R2, us`. -/
theorem test_VF1 :
    let t := after [(0x000100, 0xF20A)] { start with r1 := 0xFFFF, r2 := 0xFFFF }
    t.r3 = 0x0001 ∧ t.r4 = 0xFFFF := by decide

/-- VF4: `mr = R1*R2, ss`. -/
theorem test_VF4 :
    let t := after [(0x000100, 0xF30A)] { start with r1 := 0x8000, r2 := 0x8000, sr := 0x03C0 }
    t.r4 = 0x4000 := by decide

/-- VF6: `call 0x05:0x2000`. -/
theorem test_VF6 :
    let t := after [(0x010100, 0xF045), (0x010101, 0x2000)] { start with sp := 0x07FF, sr := 0x0241 }
    t.sp = 0x07FD ∧ t.sr = 0x0245 ∧ t.pc = 0x2000 ∧ t.mem.word 0x0007FF = 0x0102 ∧
    t.mem.word 0x0007FE = 0x0241 := by decide

/-- VF8: `goto 0x03:0x4000`. -/
theorem test_VF8 :
    let t := after [(0x010100, 0xFE83), (0x010101, 0x4000)] { start with sr := 0xFFC1 }
    t.sr = 0xFFC3 ∧ t.pc = 0x4000 := by decide

/-- VF9: `int fiq,irq`. -/
theorem test_VF9 :
    let t := after [(0x000100, 0xF143)] start
    t.enableIrq = true ∧ t.enableFiq = true := by decide

/-- VF10: `int off`. -/
theorem test_VF10 :
    let t := after [(0x000100, 0xF140)] { start with enableIrq := true, enableFiq := true }
    t.enableIrq = false ∧ t.enableFiq = false := by decide

/-- VF11: `int irq`. -/
theorem test_VF11 :
    let t := after [(0x000100, 0xF141)] { start with enableFiq := true }
    t.enableIrq = true ∧ t.enableFiq = false := by decide

/-- VF12: `int fiq`. -/
theorem test_VF12 :
    let t := after [(0x000100, 0xF142)] { start with enableIrq := true }
    t.enableIrq = false ∧ t.enableFiq = true := by decide

/-- VF13: `irq off`. -/
theorem test_VF13 :
    let t := after [(0x000100, 0xF148)] { start with enableIrq := true, enableFiq := true }
    t.enableIrq = false := by decide

/-- VF14: `irq on`. -/
theorem test_VF14 :
    let t := after [(0x000100, 0xF149)] { start with enableFiq := true }
    t.enableIrq = true := by decide

/-- VF15: `fiq off`. -/
theorem test_VF15 :
    let t := after [(0x000100, 0xF14C)] { start with enableIrq := true, enableFiq := true }
    t.enableFiq = false := by decide

/-- VF16: `fiq on`. -/
theorem test_VF16 :
    let t := after [(0x000100, 0xF14E)] { start with enableIrq := true }
    t.enableFiq = true := by decide

/-- VF18: `nop at the end of segment 1`. -/
theorem test_VF18 :
    let t := after [(0x01FFFF, 0xF165)] { start with sr := 0x0001, pc := 0xFFFF }
    t.sr = 0x0002 ∧ t.pc = 0x0000 := by decide

/-- VF19: `(BREAK: illegal)`. -/
theorem test_VF19 :
    let t := after [(0x000100, 0xF160)] start
    t.faulted = some ⟨0xF160, 0x000100⟩ := by decide

/-- VF22: `irq on with IRQ2 pending`. -/
theorem test_VF22 :
    let t := after [(0x000100, 0xF149), (0x00FFFA, 0x1234)] { start with sp := 0x0800, sirq := 0x004 }
    t.sp = 0x07FE ∧ t.pc = 0x1234 ∧ t.irq = true ∧ t.enableIrq = true ∧ t.curirq = 2 ∧
    t.mem.word 0x000800 = 0x0101 ∧ t.mem.word 0x0007FF = 0x0000 := by decide

/-- VJ1: `je +5 (taken)`. -/
theorem test_VJ1 :
    let t := after [(0x000100, 0x5E05)] { start with sr := 0x0100 }
    t.pc = 0x0106 := by decide

/-- VJ3: `jne -4 (taken)`. -/
theorem test_VJ3 :
    let t := after [(0x000100, 0x4E44)] start
    t.pc = 0x00FD := by decide

/-- VJ4: `jb +1 (C=0: taken)`. -/
theorem test_VJ4 :
    let t := after [(0x000100, 0x0E01)] start
    t.pc = 0x0102 := by decide

/-- VJ5: `jae +1 (C=1: taken)`. -/
theorem test_VJ5 :
    let t := after [(0x000100, 0x1E01)] { start with sr := 0x0040 }
    t.pc = 0x0102 := by decide

/-- VJ6: `jge +1 (S=1: not taken)`. -/
theorem test_VJ6 :
    let t := after [(0x000100, 0x2E01)] { start with sr := 0x0080 }
    t.pc = 0x0101 := by decide

/-- VJ7: `jl +1 (S=1: taken)`. -/
theorem test_VJ7 :
    let t := after [(0x000100, 0x3E01)] { start with sr := 0x0080 }
    t.pc = 0x0102 := by decide

/-- VJ8: `jpl +1 (N=1: not taken)`. -/
theorem test_VJ8 :
    let t := after [(0x000100, 0x6E01)] { start with sr := 0x0200 }
    t.pc = 0x0101 := by decide

/-- VJ9: `jmi +1 (N=1: taken)`. -/
theorem test_VJ9 :
    let t := after [(0x000100, 0x7E01)] { start with sr := 0x0200 }
    t.pc = 0x0102 := by decide

/-- VJ10: `jbe +1 (Z=0,C=1: not taken)`. -/
theorem test_VJ10 :
    let t := after [(0x000100, 0x8E01)] { start with sr := 0x0040 }
    t.pc = 0x0101 := by decide

/-- VJ13: `ja +1 (Z=1,C=1: not taken)`. -/
theorem test_VJ13 :
    let t := after [(0x000100, 0x9E01)] { start with sr := 0x0140 }
    t.pc = 0x0101 := by decide

/-- VJ15: `jle +1 (S=1: taken)`. -/
theorem test_VJ15 :
    let t := after [(0x000100, 0xAE01)] { start with sr := 0x0080 }
    t.pc = 0x0102 := by decide

/-- VJ17: `jg +1 (Z=1: not taken)`. -/
theorem test_VJ17 :
    let t := after [(0x000100, 0xBE01)] { start with sr := 0x0100 }
    t.pc = 0x0101 := by decide

/-- VJ19: `jvc +1 (N=1,S=0: not taken)`. -/
theorem test_VJ19 :
    let t := after [(0x000100, 0xCE01)] { start with sr := 0x0200 }
    t.pc = 0x0101 := by decide

/-- VJ20: `jvs +1 (N=1,S=0: taken)`. -/
theorem test_VJ20 :
    let t := after [(0x000100, 0xDE01)] { start with sr := 0x0200 }
    t.pc = 0x0102 := by decide

/-- VJ27: `jmp -5 across a segment start`. -/
theorem test_VJ27 :
    let t := after [(0x020001, 0xEE45)] { start with sr := 0x0002, pc := 0x0001 }
    t.sr = 0x0001 ∧ t.pc = 0xFFFD := by decide

/-- VE2: `tstb R1, #3`. -/
theorem test_VE2 :
    let t := after [(0x000100, 0xE243)] { start with r1 := 0xFFF7, sr := 0x02C0 }
    t.sr = 0x03C0 := by decide

/-- VE3: `setb [R2], R3`. -/
theorem test_VE3 :
    let t := after [(0x000100, 0xE513), (0x002000, 0x0001)] { start with r2 := 0x2000, r3 := 0x0014 }
    t.sr = 0x0100 ∧ t.mem.word 0x002000 = 0x0011 := by decide

/-- VE4: `clrb DS:[R1], #15`. -/
theorem test_VE4 :
    let t := after [(0x000100, 0xE3EF), (0x034000, 0x8001)] { start with r1 := 0x4000, sr := 0x0C00 }
    t.mem.word 0x034000 = 0x0001 := by decide

/-- VE5: `invb R4, R1`. -/
theorem test_VE5 :
    let t := after [(0x000100, 0xE831)] { start with r1 := 0x0004, r4 := 0x00F0 }
    t.r4 = 0x00E0 := by decide

/-- VE6: `setb SR, #8 (target is SR: Z first, then the bit)`. -/
theorem test_VE6 :
    let t := after [(0x000100, 0xEC58)] start
    t.sr = 0x0100 := by decide

/-- VE8: `R1 = R1 asr R2`. -/
theorem test_VE8 :
    let t := after [(0x000100, 0xE30A)] { start with r1 := 0x8421, r2 := 0x0004, sr := 0x03C0, sb := 0x5 }
    t.r1 = 0xF842 := by decide

/-- VE11: `mr|= R1 asr R2`. -/
theorem test_VE11 :
    let t := after [(0x000100, 0xE31A)] { start with r1 := 0x8421, r2 := 0x0004, r3 := 0x000F, r4 := 0x0100 }
    t.r3 = 0x100F ∧ t.r4 = 0xF942 := by decide

/-- VE12: `R1 = R1 lsl R2`. -/
theorem test_VE12 :
    let t := after [(0x000100, 0xE32A)] { start with r1 := 0x8421, r2 := 0x0004 }
    t.r1 = 0x4210 := by decide

/-- VE15: `mr|= R1 lsl R2 (n = 31)`. -/
theorem test_VE15 :
    let t := after [(0x000100, 0xE33A)] { start with r1 := 0x8421, r2 := 0x001F }
    t.r4 = 0x8000 := by decide

/-- VE16: `R1 = R1 lsr R2`. -/
theorem test_VE16 :
    let t := after [(0x000100, 0xE34A)] { start with r1 := 0x8421, r2 := 0x0004 }
    t.r1 = 0x0842 := by decide

/-- VE18: `mr|= R1 lsr R2 (n = 20)`. -/
theorem test_VE18 :
    let t := after [(0x000100, 0xE35A)] { start with r1 := 0x8421, r2 := 0x0014 }
    t.r3 = 0x0842 := by decide

/-- VE20: `R1 = R1 rol R2 (n = 31)`. -/
theorem test_VE20 :
    let t := after [(0x000100, 0xE36A)] { start with r1 := 0x8421, r2 := 0x001F }
    t.r1 = 0xC210 := by decide

/-- VE22: `R1 = R1 ror R2 (n = 31)`. -/
theorem test_VE22 :
    let t := after [(0x000100, 0xE37A)] { start with r1 := 0x8421, r2 := 0x001F }
    t.r1 = 0x0843 := by decide

/-- VO1: `R1 += [BP+2]`. -/
theorem test_VO1 :
    let t := after [(0x000100, 0x0202), (0x001002, 0x0041)] { start with r1 := 0x0001, bp := 0x1000 }
    t.r1 = 0x0042 := by decide

/-- VO2: `R1 += [BP+63] (offset wraps in 16 bits)`. -/
theorem test_VO2 :
    let t := after [(0x00002F, 0x0010), (0x000100, 0x023F)] { start with r1 := 0x0001, bp := 0xFFF0, sr := 0xFC00 }
    t.r1 = 0x0011 := by decide

/-- VO3: `R1 += #5 (DOC's example)`. -/
theorem test_VO3 :
    let t := after [(0x000100, 0x0245)] { start with r1 := 0x7FFF }
    t.r1 = 0x8004 ∧ t.sr = 0x0200 := by decide

/-- VO9: `R2 = DS:[R3++] (carry into DS)`. -/
theorem test_VO9 :
    let t := after [(0x000100, 0x94F3), (0x01FFFF, 0x0001)] { start with r3 := 0xFFFF, sr := 0x0400 }
    t.r2 = 0x0001 ∧ t.r3 = 0x0000 ∧ t.sr = 0x0800 := by decide

/-- VO10: `R2 = DS:[R3--] (borrow from DS)`. -/
theorem test_VO10 :
    let t := after [(0x000100, 0x94EB), (0x010000, 0x0002)] { start with sr := 0x0400 }
    t.r2 = 0x0002 ∧ t.r3 = 0xFFFF ∧ t.sr = 0x0000 := by decide

/-- VO11: `R2 = DS:[++R3] (carry, then access)`. -/
theorem test_VO11 :
    let t := after [(0x000100, 0x94FB), (0x020000, 0x0003)] { start with r3 := 0xFFFF, sr := 0x0400 }
    t.r2 = 0x0003 ∧ t.r3 = 0x0000 ∧ t.sr = 0x0800 := by decide

/-- VO12: `R2 = DS:[R3++] (DS wraps 63 to 0)`. -/
theorem test_VO12 :
    let t := after [(0x000100, 0x94F3), (0x3FFFFF, 0x0004)] { start with r3 := 0xFFFF, sr := 0xFC00 }
    t.r2 = 0x0004 ∧ t.r3 = 0x0000 ∧ t.sr = 0x0000 := by decide

/-- VO14: `R1 = R2 + #0x1234`. -/
theorem test_VO14 :
    let t := after [(0x000100, 0x030A), (0x000101, 0x1234)] { start with r1 := 0x9999, r2 := 0x0001 }
    t.r1 = 0x1235 ∧ t.pc = 0x0102 := by decide

/-- VO15: `R1 = R2 + [0x2000]`. -/
theorem test_VO15 :
    let t := after [(0x000100, 0x0312), (0x000101, 0x2000), (0x002000, 0x0004)]
        { start with r1 := 0x9999, r2 := 0x0001, sr := 0xFC00 }
    t.r1 = 0x0005 := by decide

/-- VO16: `[0x2000] = R2 + R1`. -/
theorem test_VO16 :
    let t := after [(0x000100, 0x031A), (0x000101, 0x2000)] { start with r1 := 0x0004, r2 := 0x0002 }
    t.mem.word 0x002000 = 0x0006 := by decide

/-- VO17: `cmp R2, R1 in the to-memory form: no write`. -/
theorem test_VO17 :
    let t := after [(0x000100, 0x431A), (0x000101, 0x2000)] { start with r1 := 0x0004, r2 := 0x0004 }
    t.sr = 0x0140 := by decide

/-- VO19: `R1 = R2 asr 2 (SB shifts along)`. -/
theorem test_VO19 :
    let t := after [(0x000100, 0x932A)] { start with r2 := 0x8006, sb := 0xF }
    t.r1 = 0xE001 ∧ t.sr = 0x0200 ∧ t.sb = 0xB := by decide

/-- VO20: `R1 = R2 lsl 4`. -/
theorem test_VO20 :
    let t := after [(0x000100, 0x935A)] { start with r2 := 0x1234, sb := 0xA }
    t.r1 = 0x2340 ∧ t.sb = 0x1 := by decide

/-- VO22: `R1 = R2 lsr 1`. -/
theorem test_VO22 :
    let t := after [(0x000100, 0x9362)] { start with r2 := 0x8001, sb := 0x8 }
    t.r1 = 0x4000 ∧ t.sb = 0xC := by decide

/-- VO23: `R1 = R2 rol 4`. -/
theorem test_VO23 :
    let t := after [(0x000100, 0x939A)] { start with r2 := 0x1234, sb := 0xA }
    t.r1 = 0x234A ∧ t.sb = 0x1 := by decide

/-- VO25: `R1 = R2 ror 4`. -/
theorem test_VO25 :
    let t := after [(0x000100, 0x93BA)] { start with r2 := 0x1234, sb := 0xA }
    t.r1 = 0xA123 ∧ t.sr = 0x0200 ∧ t.sb = 0x4 := by decide

/-- VO28: `[++R3] = R3 (r0 read before the pre-increment)`. -/
theorem test_VO28 :
    let t := after [(0x000100, 0xD6DB)] { start with r3 := 0x2000 }
    t.r3 = 0x2001 ∧ t.mem.word 0x002001 = 0x2000 := by decide

/-- VO29: `R3 = [R3++] (destination write wins)`. -/
theorem test_VO29 :
    let t := after [(0x000100, 0x96D3), (0x002000, 0xAAAA)] { start with r3 := 0x2000 }
    t.r3 = 0xAAAA ∧ t.sr = 0x0200 := by decide

/-- VO30: `R1 = [PC++]`. -/
theorem test_VO30 :
    let t := after [(0x000100, 0x92D7), (0x000101, 0x7777)] start
    t.r1 = 0x7777 ∧ t.pc = 0x0102 := by decide

/-- VO33: `(STORE with the imm16 form: illegal; second word not fetched)`. -/
theorem test_VO33 :
    let t := after [(0x000100, 0xD30A), (0x000101, 0x0000)] { start with r1 := 0x0001 }
    t.faulted = some ⟨0xD30A, 0x000100⟩ := by decide

/-- VA2: `R1 += R2`. -/
theorem test_VA2 :
    let t := after [(0x000100, 0x0302)] { start with r1 := 0x8000, r2 := 0x8000 }
    t.r1 = 0x0000 ∧ t.sr = 0x01C0 := by decide

/-- VA6: `R1 += R2, carry`. -/
theorem test_VA6 :
    let t := after [(0x000100, 0x1302)] { start with r1 := 0xFFFF, r2 := 0xFFFF, sr := 0x0040 }
    t.sr = 0x02C0 := by decide

/-- VA9: `R1 -= R2`. -/
theorem test_VA9 :
    let t := after [(0x000100, 0x2302)] { start with r1 := 0x8000, r2 := 0x0001 }
    t.r1 = 0x7FFF ∧ t.sr = 0x00C0 := by decide

/-- VA13: `R1 -= R2, carry (C = 0: borrow)`. -/
theorem test_VA13 :
    let t := after [(0x000100, 0x3302)] { start with r1 := 0x0005, r2 := 0x0003 }
    t.r1 = 0x0001 ∧ t.sr = 0x0040 := by decide

/-- VA16: `cmp R1, R2`. -/
theorem test_VA16 :
    let t := after [(0x000100, 0x4302)] { start with r1 := 0x8000, r2 := 0x7FFF }
    t.sr = 0x00C0 := by decide

/-- VA17: `R1 = -R2`. -/
theorem test_VA17 :
    let t := after [(0x000100, 0x6302)] { start with r1 := 0x1111, r2 := 0x0001, sr := 0x00C0 }
    t.r1 = 0xFFFF ∧ t.sr = 0x02C0 := by decide

/-- VA20: `R1 ^= R2`. -/
theorem test_VA20 :
    let t := after [(0x000100, 0x8302)] { start with r1 := 0xFF00, r2 := 0x0FF0 }
    t.r1 = 0xF0F0 ∧ t.sr = 0x0200 := by decide

/-- VA23: `PC = R2 (no flags)`. -/
theorem test_VA23 :
    let t := after [(0x050100, 0x9F02)] { start with sr := 0x02C5 }
    t.pc = 0x0000 := by decide

/-- VA24: `SR = R2 (result replaces the flags)`. -/
theorem test_VA24 :
    let t := after [(0x000100, 0x9D02)] { start with sr := 0x02C0 }
    t.sr = 0x0000 := by decide

/-- VA25: `R1|= R2`. -/
theorem test_VA25 :
    let t := after [(0x000100, 0xA302)] { start with r1 := 0x0005, r2 := 0x0003 }
    t.r1 = 0x0007 := by decide

/-- VA27: `R1 &= R2`. -/
theorem test_VA27 :
    let t := after [(0x000100, 0xB302)] { start with r1 := 0x00FF, r2 := 0x0F00 }
    t.r1 = 0x0000 ∧ t.sr = 0x0100 := by decide

/-- VA28: `test R1, R2`. -/
theorem test_VA28 :
    let t := after [(0x000100, 0xC302)] { start with r1 := 0x8001, r2 := 0x8000 }
    t.sr = 0x0200 := by decide

/-- VA32: `[0x3000] = R2 (to-memory form)`. -/
theorem test_VA32 :
    let t := after [(0x000100, 0xD31A), (0x000101, 0x3000)] { start with r1 := 0xBEEF, r2 := 0xCAFE }
    t.pc = 0x0102 ∧ t.mem.word 0x003000 = 0xCAFE := by decide

/-- VA34: `[R2] = PC (stores the offset of the next word)`. -/
theorem test_VA34 :
    let t := after [(0x000100, 0xDEC2)] { start with r2 := 0x2000 }
    t.mem.word 0x002000 = 0x0101 := by decide

/-- VA36: `(op0 = 7: illegal)`. -/
theorem test_VA36 :
    let t := after [(0x000100, 0x7302)] start
    t.faulted = some ⟨0x7302, 0x000100⟩ := by decide

/-- VS1: `push R1, R3 to [SP]`. -/
theorem test_VS1 :
    let t := after [(0x000100, 0xD698)] { start with sp := 0x07FF, r1 := 0x1111, r2 := 0x2222, r3 := 0x3333 }
    t.sp = 0x07FC ∧ t.mem.word 0x0007FF = 0x3333 ∧ t.mem.word 0x0007FE = 0x2222 ∧
    t.mem.word 0x0007FD = 0x1111 := by decide

/-- VS2: `pop R1, R3 from [SP]`. -/
theorem test_VS2 :
    let t := after [(0x000100, 0x9098), (0x0007FD, 0x1111), (0x0007FE, 0x2222), (0x0007FF, 0x3333)]
        { start with sp := 0x07FC }
    t.sp = 0x07FF ∧ t.r1 = 0x1111 ∧ t.r2 = 0x2222 ∧ t.r3 = 0x3333 := by decide

/-- VS5: `push R4, BP to [BP] (pointer in the list)`. -/
theorem test_VS5 :
    let t := after [(0x000100, 0xDA95)] { start with r4 := 0x4444, bp := 0x3000 }
    t.bp = 0x2FFE ∧ t.mem.word 0x003000 = 0x3000 ∧ t.mem.word 0x002FFF = 0x4444 := by decide

/-- VS7: `pop R1, R1 from [R1]`. -/
theorem test_VS7 :
    let t := after [(0x000100, 0x9089), (0x002001, 0x5555)] { start with r1 := 0x2000 }
    t.r1 = 0x5555 := by decide

/-- VS8: `pop SR, PC from [SP] (retf)`. -/
theorem test_VS8 :
    let t := after [(0x000100, 0x9A90), (0x0007FE, 0x0401), (0x0007FF, 0x0102)] { start with sp := 0x07FD }
    t.sp = 0x07FF ∧ t.sr = 0x0401 ∧ t.pc = 0x0102 := by decide

/-- VS10: `reti (from IRQ)`. -/
theorem test_VS10 :
    let t := after [(0x000100, 0x9A98), (0x0007FE, 0x0240), (0x0007FF, 0x0300)]
        { start with sp := 0x07FD, sb := 0x5, savedSb0 := 0x9, savedSb2 := 0x3, irq := true, curirq := 4 }
    t.sp = 0x07FF ∧ t.sr = 0x0240 ∧ t.pc = 0x0300 ∧ t.sb = 0x9 ∧ t.savedSb1 = 0x5 ∧ t.irq = false ∧
    t.curirq = 0 := by decide

/-- VS11: `reti (from FIQ)`. -/
theorem test_VS11 :
    let t := after [(0x000100, 0x9A98), (0x0007FE, 0x0240), (0x0007FF, 0x0300)]
        { start with
          sp := 0x07FD
          sb := 0x5
          savedSb0 := 0x9
          savedSb1 := 0x7
          savedSb2 := 0x3
          fiq := true }
    t.sp = 0x07FF ∧ t.sr = 0x0240 ∧ t.pc = 0x0300 ∧ t.sb = 0x9 ∧ t.savedSb2 = 0x5 ∧ t.fiq = false := by decide

/-- VS13: `reti with the line still asserted: re-entered at once`. -/
theorem test_VS13 :
    let t := after [(0x000100, 0x9A98), (0x0007FE, 0x0240), (0x0007FF, 0x0300), (0x00FFFA, 0x0600)]
        { start with sp := 0x07FD, irq := true, enableIrq := true, sirq := 0x004, curirq := 2 }
    t.pc = 0x0600 ∧ t.mem.word 0x0007FF = 0x0300 ∧ t.mem.word 0x0007FE = 0x0240 := by decide

/-- VS18: `(ADD with op1 = 2: illegal)`. -/
theorem test_VS18 :
    let t := after [(0x000100, 0x0288)] start
    t.faulted = some ⟨0x0288, 0x000100⟩ := by decide

/-- VI1: `IRQ3 and IRQ5 pending (DOC's priority property)`. -/
theorem test_VI1 :
    let t := after [(0x000100, 0xF165), (0x00FFFB, 0x0B00)]
        { start with
          sp := 0x07FF
          sr := 0x0240
          sb := 0x5
          savedSb1 := 0xA
          enableIrq := true
          enableFiq := true
          sirq := 0x028 }
    t.sp = 0x07FD ∧ t.sr = 0x0000 ∧ t.pc = 0x0B00 ∧ t.sb = 0xA ∧ t.savedSb0 = 0x5 ∧ t.irq = true ∧
    t.curirq = 3 ∧ t.mem.word 0x0007FF = 0x0101 ∧ t.mem.word 0x0007FE = 0x0240 := by decide

/-- VI2: `FIQ and IRQ0 pending (DOC's priority property)`. -/
theorem test_VI2 :
    let t := after [(0x000100, 0xF165), (0x00FFF6, 0x0400)]
        { start with
          sp := 0x07FF
          sr := 0x0240
          sb := 0x5
          savedSb1 := 0xA
          savedSb2 := 0xC
          enableIrq := true
          enableFiq := true
          sirq := 0x101 }
    t.sp = 0x07FD ∧ t.sr = 0x0000 ∧ t.pc = 0x0400 ∧ t.sb = 0xC ∧ t.savedSb0 = 0x5 ∧ t.fiq = true ∧
    t.mem.word 0x0007FF = 0x0101 ∧ t.mem.word 0x0007FE = 0x0240 := by decide

/-- VI3: `FIQ pending, FIQ disabled, IRQ0 pending and enabled: FIQ shadows`. -/
theorem test_VI3 :
    let t := after [(0x000100, 0xF165)] { start with sp := 0x07FF, enableIrq := true, sirq := 0x101 }
    t.pc = 0x0101 := by decide

/-- VI9: `irq = 1, IRQ0 asserted: no nesting`. -/
theorem test_VI9 :
    let t := after [(0x000100, 0xF165)]
        { start with sp := 0x07FF, irq := true, enableIrq := true, sirq := 0x001, curirq := 2 }
    t.pc = 0x0101 := by decide

/-- VI13: `entry from segment 2 with SP = 0x0000: stack wraps, handler in segment 0`. -/
theorem test_VI13 :
    let t := after [(0x00FFF6, 0x0400), (0x020100, 0xF165)]
        { start with sr := 0x0002, enableFiq := true, sirq := 0x100 }
    t.sp = 0xFFFE ∧ t.sr = 0x0000 ∧ t.pc = 0x0400 ∧ t.fiq = true ∧ t.mem.word 0x000000 = 0x0101 ∧
    t.mem.word 0x00FFFF = 0x0002 := by decide

/-- VI14: `two-word instruction, IRQ4: stacked PC is past the second word`. -/
theorem test_VI14 :
    let t := after [(0x000100, 0x030A), (0x000101, 0x1234), (0x00FFFC, 0x0C00)]
        { start with sp := 0x07FF, r2 := 0x0001, enableIrq := true, sirq := 0x010 }
    t.sp = 0x07FD ∧ t.r1 = 0x1235 ∧ t.pc = 0x0C00 ∧ t.irq = true ∧ t.curirq = 4 ∧
    t.mem.word 0x0007FF = 0x0102 ∧ t.mem.word 0x0007FE = 0x0000 := by decide

/-- VR1: reset, with the word 0x8000 at the vector. -/
theorem test_VR1 : State.deviceReset { start with mem := holding [(0x00FFF7, 0x8000)], sr := 0xFC3F, irq := true } =
    { start with mem := holding [(0x00FFF7, 0x8000)], pc := 0x8000, bus := [.read 0x00FFF7 0x8000] } := by decide

/-- VL1, VL4, VL6: a line raised, a line lowered, BRK ignored. -/
theorem test_VL :
    (start.setInput 3 true).sirq = 0x008 ∧ ({ start with sirq := 0x108 }.setInput 3 false).sirq = 0x100 ∧
    ({ start with sirq := 0x100 }.setInput 9 true).sirq = 0x100 := by decide

/-- The accesses of a PUSH of two registers, in order, after the fetch (R75, R290). -/
theorem test_push_accesses : 
    (after [(0x000100, 0xD690)] { start with sp := 0x07FF, r2 := 0x2222, r3 := 0x3333 }).bus =
      [.read 0x000100 0xD690, .write 0x0007FF 0x3333, .write 0x0007FE 0x2222] := by decide

/-- A latched state takes no step (R310). -/
theorem test_latched : step { start with faulted := some ⟨0xF160, 0x000100⟩ } = .fault (.halted ⟨0xF160, 0x000100⟩) := rfl

/-- `withFetchWord` puts the instruction where the next step fetches. -/
theorem test_withFetchWord :
    (left (step (State.reset.withFetchWord 16 0x0245))).map (·.r1) = some 5 ∧
    (left (step (State.reset.withFetchWord 32 0x1234030A))).map (·.r1) = some 0x1234 := by decide

/-- What the platform answers is read, whatever memory holds: the word fetched is memory's (`none`), the operand at
0x000020 is 0xBEEF (R62). -/
theorem test_reply_over_memory :
    let t := after [(0x000100, 0x93E0), (0x000020, 0x1234)] { start with replies := [none, some 0xBEEF] }
    t.r1 = 0xBEEF ∧ t.mem.word 0x000020 = 0x1234 ∧ t.replies = [] ∧
      t.bus = [.read 0x000100 0x93E0, .read 0x000020 0xBEEF] := by decide

/-- A reset reads its vector as the platform answers (R62, R360). -/
theorem test_reset_reply :
    ({ start with replies := [some 0x8000, none] }.deviceReset).pc = 0x8000 ∧
    ({ start with mem := holding [(0x00FFF7, 0x8000)] }.deviceReset).pc = 0x8000 := by decide

/-! ## Witnesses: the hypotheses of each obligation can be met -/

theorem witness_DecodeOfEncodeIsTheInstruction :
    Instr.wf (.push .sp 1 .pc) = true ∧ Instr.wf (.pop .bp 2 .sp) = true ∧ Instr.wf (.addToA16 .pc .sr 0xFFFF) = true := by
  decide

theorem witness_DecodedWordsAreTheEncoding : decode [0x030A, 0x1234, 7] = .ok (.addImm16 .r1 .r2 0x1234, [7]) := rfl

/-- The first word of the group and the last. -/
theorem witness_JumpGroupDecodes :
    (fieldOp0 0x0E00#16 ≠ 0xF#4 ∧ fieldOpa 0x0E00#16 = 7#3 ∧ fieldOp1 0x0E00#16 < 2#3) ∧
    (fieldOp0 0xEE7F#16 ≠ 0xF#4 ∧ fieldOpa 0xEE7F#16 = 7#3 ∧ fieldOp1 0xEE7F#16 < 2#3) := by decide

/-- The least and the greatest word of each pattern, the fixed words, and an unlisted word. -/
theorem witness_FxxxGroupDecodes :
    ([0xF008#16, 0xFE0F#16, 0xF108#16, 0xFF0F#16, 0xF040#16, 0xF07F#16, 0xFE80#16, 0xFEBF#16, 0xF140#16, 0xF141#16,
      0xF142#16, 0xF143#16, 0xF148#16, 0xF149#16, 0xF14C#16, 0xF14E#16, 0xF165#16, 0xF160#16].all
        fun op => fieldOp0 op == 0xF#4) = true ∧
    ([0xF008#16, 0xFE0F#16].all fun op => op &&& 0xF1F8#16 == 0xF008#16) = true ∧
    ([0xF108#16, 0xFF0F#16].all fun op => op &&& 0xF1F8#16 == 0xF108#16) = true ∧
    ([0xF040#16, 0xF07F#16].all fun op => op &&& 0xFFC0#16 == 0xF040#16) = true ∧
    ([0xFE80#16, 0xFEBF#16].all fun op => op &&& 0xFFC0#16 == 0xFE80#16) = true ∧
    ([0xF008#16, 0xF108#16].all fun p => 0xF160#16 &&& 0xF1F8#16 != p) = true ∧
    ([0xF040#16, 0xFE80#16].all fun p => 0xF160#16 &&& 0xFFC0#16 != p) = true := by decide

theorem witness_ExxxGroupDecodes :
    (fieldOp0 0xE000#16 = 0xE#4 ∧ ¬(fieldOpa 0xE000#16 = 7#3 ∧ fieldOp1 0xE000#16 < 2#3)) ∧
    (fieldOp0 0xEFFF#16 = 0xE#4 ∧ ¬(fieldOpa 0xEFFF#16 = 7#3 ∧ fieldOp1 0xEFFF#16 < 2#3)) := by decide

/-- A stack word at each end of its count, and words outside the slot. -/
theorem witness_RemainingGroupLegality :
    ([0xD088#16, 0xDEB8#16, 0xD090#16, 0x90B8#16, 0x9C88#16, 0x9A98#16, 0x9A99#16, 0x0000#16, 0xDFFF#16,
      0x5302#16].all fun op => fieldOp0 op != 0xF#4 && fieldOp0 op != 0xE#4 &&
        !(fieldOpa op == 7#3 && decide (fieldOp1 op < 2#3))) = true := by decide

theorem witness_TwoWordInstructions :
    decodeOp 0x030A 5 = .ok (.addImm16 .r1 .r2 5) ∧ decodeOp 0xF040 5 = .ok (.call 0 5) ∧
    decodeOp 0x0302 5 = .ok (.addReg .r1 .r2) := ⟨rfl, rfl, rfl⟩

/-- A one-word instruction, and a two-word one at the last address of the space. -/
theorem witness_StepRunsDecodedInstruction :
    (start.faulted = none ∧ Instr.wf .nop = true ∧ fetchWords .nop { start with mem := holding [(0x000100, 0xF165)] } = encode .nop) ∧
    Instr.wf (.call 5 0x2000) = true ∧ fetchWords (.call 5 0x2000)
      { start with sr := 0x003F, pc := 0xFFFF, mem := holding [(0x000000, 0x2000), (0x3FFFFF, 0xF045)] } =
        encode (.call 5 0x2000) := by decide

theorem witness_IllegalWordSetsTheLatch : ∃ e : Reject,
    let s : State := { start with mem := holding [(0x000100, 0xF160)] }
    s.faulted = none ∧ decodeOp (s.reply 0 (busAddr s.lpc)) 0#16 = .error e := ⟨.fxxxUnlisted, rfl, rfl⟩

/-- A latched state, and transitions without a reset. -/
theorem witness_LatchedBlockIsStuckUntilReset :
    ({ start with faulted := some ⟨0xF160, 0x000100⟩ } : State).faulted = some ⟨0xF160, 0x000100⟩ ∧
    ∀ replies, Transition.reset replies ∉ [Transition.setInput 3 true, .step [some 0xF165]] :=
  ⟨rfl, by simp⟩

/-- Both clauses, outside segment 0: a store of the opcode word, and of the second word of a two-word instruction. -/
theorem witness_StoreIsSeenByTheNextFetch :
    let u : State := { start with sr := 0x003F, pc := 0xFFFF, mem := holding [(0x3FFFFF, 0xF165)] }
    let s : State := { start with mem := holding [(0x3FFFFE, 0xF045)] }
    let w : State := { s with sr := 0x003F, pc := 0xFFFE, mem := (s.memWrite 0x3FFFFF 0x2000).mem }
    (u.mem = (start.memWrite 0x3FFFFF 0xF165).mem ∧ PlainReads 1 u ∧ busAddr u.lpc = 0x3FFFFF) ∧
    w.mem = (s.memWrite 0x3FFFFF 0x2000).mem ∧ PlainReads 2 w ∧ busAddr (w.lpc + 1) = 0x3FFFFF ∧
      takesSecondWord w.fetch.op = true :=
  ⟨⟨by decide, plain_start 1, by decide⟩, rfl, plain_start 2, by decide, by decide⟩

/-- A state with the invariant, in which an IRQ is in service. -/
def inService : State :=
  { start with irq := true, curirq := 3, sp := 0x07FD, mem := holding [(0x000100, 0x9A98), (0x0007FE, 0x0240)] }

theorem inv_inService : Inv inService :=
  ⟨by decide, by decide, by decide, by decide, by decide, fun _ h => by cases h⟩

theorem witness_StepKeepsInvariant : Inv inService ∧ ∃ t, step inService = .next t :=
  ⟨inv_inService, _, rfl⟩

theorem witness_TransitionsKeepInvariant :
    Inv inService ∧ ∃ t, run [.step [none, some 0x0240], .setInput 2 true, .reset [], .step []] inService = .next t :=
  ⟨inv_inService, _, next_of_left rfl⟩

theorem witness_StepKeepsPendingMask : ∃ t, step { inService with sirq := 0x1FF } = .next t := ⟨_, rfl⟩

theorem witness_EnablesWrittenOnlyByTheEight : Instr.reti ∉ enableInstrs ∧ ∃ t, exec .reti inService = .next t :=
  ⟨by decide, _, rfl⟩

theorem witness_InServiceStateWrittenOnlyByReturn :
    Instr.intOff ≠ .reti ∧ ∃ t, exec .intOff inService = .next t := ⟨by decide, _, rfl⟩

theorem witness_ShiftBufferWriters :
    writesSb (.addReg .r1 .r2) = false ∧ ∃ t, exec (.addReg .r1 .r2) start = .next t := ⟨rfl, _, rfl⟩

theorem witness_MemoryWrittenOnlyByStoringInstructions :
    storesMemory (.cmpToA16 .r1 .r2 5) = false ∧ storesMemory (.tstbMImm .r1 0) = false ∧
    ∃ t, exec (.cmpToA16 .r1 .r2 5) start = .next t := ⟨rfl, rfl, _, rfl⟩

theorem witness_ReturnFromCallRestoresTheCaller :
    PlainReads 2 { start with sp := 0 } ∧ ∃ t, exec (.call 5 0x2000) { start with sp := 0 } = .next t :=
  ⟨plain_start 2, _, rfl⟩

theorem witness_JumpConditionsAfterCompare : Reg.sr ≠ .pc ∧ Reg.sp ≠ .pc := by decide

theorem witness_BitOperationsOnRegisters :
    bitFormAddr .sr (.rImm 15) start = none ∧ bitFormAddr .sp (.rRs .sp) start = none := by decide

theorem witness_BitOperationsOnMemory :
    bitFormAddr .r1 (.dmImm 15) { start with r1 := 0xFFFF, sr := 0xFC00 } = some 0x3FFFFF ∧
    bitFormAddr .r1 (.mRs .r1) start = some 0 ∧ BitFn.setb ≠ .tstb := by decide

theorem witness_ArithmeticFlagTruth : AluOp.cmp = .sub ∨ AluOp.cmp = .cmp := .inr rfl

theorem witness_TransitionsEnabled : ({ start with faulted := some ⟨0xF160, 0x000100⟩ } : State).faulted ≠ none := by
  decide

theorem witness_DeviceReset : Reg.sp ≠ .pc ∧ Reg.sr ≠ .pc := by decide

theorem witness_AluToMemoryForm : aluWrites .load = true := rfl

theorem witness_RegisterArithmetic : Reg.bp ≠ .sr ∧ Reg.bp ≠ .pc := by decide

theorem witness_RegisterLogic : Reg.sp ≠ .sr ∧ Reg.sp ≠ .pc := by decide

theorem witness_AluDataSegmentForms : Reg.pc ≠ .sr ∧ Reg.sp ≠ .sr := by decide

/-- Both clauses: a base that is not SR, and SR. -/
theorem witness_StoreIndirectForms : Reg.pc ≠ .sr ∧ Reg.sr = .sr := by decide

theorem witness_PushStoresTheRegisters :
    pushLegal .sp 1 = true ∧ pushLegal .r1 2 = true ∧ pushLegal .pc 7 = true := by decide

theorem witness_PopOneRegister : Reg.sr ≠ .pc ∧ Reg.sp ≠ .pc := by decide

theorem witness_PopGoesUpOneRegisterAtATime :
    (popLegal .sp 7 = true ∧ 2 ≤ (7#3).toNat) ∧ popLegal .bp 2 = true ∧ 2 ≤ (2#3).toNat := by decide

theorem witness_PushThenPopIsTheIdentity : PlainReads 1 start := plain_start 1

/-- One register, and the seven from PC down. -/
theorem witness_PopUndoesPush :
    (1 ≤ (1#3).toNat ∧ (1#3).toNat ≤ Reg.r1.num.toNat ∧ (∀ k < (1#3).toNat, regDown .r1 k ≠ .sp) ∧
      PlainReads 7 start ∧ ∃ t, exec (.push .r1 1 .sp) start = .next t) ∧
    (7#3).toNat ≤ Reg.pc.num.toNat ∧ (∀ k < (7#3).toNat, regDown .pc k ≠ .sp) :=
  ⟨⟨by decide, by decide, by decide, plain_start 7, _, rfl⟩, by decide, by decide⟩

/-- The three cases: FIQ in service, IRQ in service, none. -/
theorem witness_ReturnFromInterrupt :
    ({ start with fiq := true } : State).fiq = true ∧ (inService.fiq = false ∧ inService.irq = true) ∧
    start.fiq = false ∧ start.irq = false := by decide

/-- Every IRQ pending too. -/
theorem witness_CheckTakesTheFiq :
    let s : State := { start with sirq := 0x1FF, enableFiq := true }
    s.sirq.getLsbD 8 = true ∧ s.enableFiq = true ∧ s.fiq = false ∧ s.irq = false := by decide

/-- A quiet, enabled block with this pending mask. -/
def pending (mask : BitVec 9) : State := { start with sirq := mask, enableIrq := true }

/-- The greatest line alone, and the least with all the others. -/
theorem witness_CheckTakesTheLeastIrq :
    ((pending 0x080).sirq.getLsbD 8 = false ∧ (pending 0x080).sirq.getLsbD (7#3).toNat = true ∧
      (∀ k < (7#3).toNat, (pending 0x080).sirq.getLsbD k = false) ∧ (pending 0x080).enableIrq = true ∧
      (pending 0x080).irq = false ∧ (pending 0x080).fiq = false) ∧
    ((pending 0x0FF).sirq.getLsbD 8 = false ∧ (pending 0x0FF).sirq.getLsbD (0#3).toNat = true ∧
      (∀ k < (0#3).toNat, (pending 0x0FF).sirq.getLsbD k = false) ∧ (pending 0x0FF).enableIrq = true ∧
      (pending 0x0FF).irq = false ∧ (pending 0x0FF).fiq = false) := by decide

/-- Each clause. -/
theorem witness_CheckRefusesAndShadows :
    (start.sirq = 0 ∧ inService.irq = true) ∧
    ({ start with sirq := 0x101 }.sirq.getLsbD 8 = true ∧ { start with sirq := 0x101 }.enableFiq = false) ∧
    ({ start with sirq := 0x0FF }.sirq.getLsbD 8 = false ∧ { start with sirq := 0x0FF }.enableIrq = false) := by decide

/-- An IRQ that is taken, and a handler that has only moved PC, SB and the flags. -/
theorem witness_ReturnUndoesEntry :
    let s : State := { start with sirq := 0x001, enableIrq := true, sb := 5 }
    let h : State := { s.checkIrqs with pc := 0x4321, sr := 0x0240, sb := 9 }
    s.irq = false ∧ s.fiq = false ∧ s.checkIrqs ≠ s ∧ h.sp = s.checkIrqs.sp ∧
    h.mem.word (segZero s.sp) = s.checkIrqs.mem.word (segZero s.sp) ∧
    h.mem.word (segZero (s.sp - 1)) = s.checkIrqs.mem.word (segZero (s.sp - 1)) ∧
    h.savedSb0 = s.checkIrqs.savedSb0 ∧ h.irq = s.checkIrqs.irq ∧ h.fiq = s.checkIrqs.fiq ∧ PlainReads 2 h :=
  ⟨by decide, by decide, by decide, by decide, by decide, by decide, by decide, by decide, by decide, plain_start 2⟩

/-- The last line that has a bit, the first that has none, and a faulted block. -/
theorem witness_LineInput :
    (start.faulted = none ∧ 8 ≤ 8) ∧ 8 < 9 ∧
    ({ start with faulted := some ⟨0xF160, 0⟩ } : State).faulted ≠ none := by decide

/-- Both clauses: the greatest IRQ line and a NOP; the FIQ line and the instruction that enables it. -/
theorem witness_InterruptTakenAfterTheNextInstruction :
    let s : State := { start with enableIrq := true, mem := holding [(0x000100, 0xF165)] }
    let u : State := { s with sirq := 0x080 }
    let p : State := { start with mem := holding [(0x000100, 0xF14E)] }
    let q : State := { p with sirq := 0x100 }
    (s.faulted = none ∧ s.sirq = 0 ∧ 7 ≤ 8 ∧ s.setInput 7 true = u ∧ Instr.wf .nop = true ∧
      fetchWords .nop u = encode .nop ∧ ∃ t, exec .nop (u.fetched .nop) = .next t ∧
      (if 7 = 8 then t.enableFiq else t.enableIrq) = true ∧ t.irq = false ∧ t.fiq = false) ∧
    p.faulted = none ∧ p.sirq = 0 ∧ 8 ≤ 8 ∧ p.setInput 8 true = q ∧ Instr.wf .fiqOn = true ∧
      fetchWords .fiqOn q = encode .fiqOn ∧ ∃ t, exec .fiqOn (q.fetched .fiqOn) = .next t ∧
      (if 8 = 8 then t.enableFiq else t.enableIrq) = true ∧ t.irq = false ∧ t.fiq = false :=
  ⟨⟨rfl, rfl, by decide, by decide, rfl, by decide, _, rfl, rfl, rfl, rfl⟩,
    rfl, rfl, by decide, by decide, rfl, by decide, _, rfl, rfl, rfl, rfl⟩

end Sys2Proof.Tests
end

section
/-! SUPPORT. The decoder on the words of the encoder: whatever the second word, the opcode word of a well-formed
instruction decodes to it with that second word (30_encoding.md R91 to R104). -/

namespace Sys2Proof

/-! ## The low six bits of an opcode word -/

theorem extract_opWord6 (op0 : BitVec 4) (opa op1 : BitVec 3) (imm6 : BitVec 6) {k n : Nat} (h : k + n ≤ 6) :
    (opWord6 op0 opa op1 imm6).extractLsb' k n = imm6.extractLsb' k n := by
  apply BitVec.eq_of_getLsbD_eq
  intro i hi
  have hlt : k + i < 6 := by omega
  simp only [opWord6, BitVec.getLsbD_extractLsb', BitVec.getLsbD_append, hi, hlt, if_true]

@[simp] theorem fieldRd_opWord (op0 : BitVec 4) (rd : Reg) (op1 opn opb : BitVec 3) :
    fieldRd (opWord op0 rd.num op1 opn opb) = rd := by simp [fieldRd]

@[simp] theorem fieldRs_opWord (op0 : BitVec 4) (opa op1 opn : BitVec 3) (rs : Reg) :
    fieldRs (opWord op0 opa op1 opn rs.num) = rs := by simp [fieldRs]

@[simp] theorem fieldRd_opWord6 (op0 : BitVec 4) (rd : Reg) (op1 : BitVec 3) (imm6 : BitVec 6) :
    fieldRd (opWord6 op0 rd.num op1 imm6) = rd := by simp [fieldRd]

@[simp] theorem fieldRs_opWord6 (op0 : BitVec 4) (opa op1 : BitVec 3) (a : BitVec 3) (rs : Reg) :
    fieldRs (opWord6 op0 opa op1 (a ++ rs.num)) = rs := by
  rw [fieldRs, fieldOpb, extract_opWord6 _ _ _ _ (by omega), extract_append_right, Reg.ofNum_num]

theorem opWord_eq_opWord6 (op0 : BitVec 4) (opa op1 opn opb : BitVec 3) :
    opWord op0 opa op1 opn opb = opWord6 op0 opa op1 (opn ++ opb) := by
  have h6 : fieldImm6 (opWord op0 opa op1 opn opb) = opn ++ opb := by
    apply BitVec.eq_of_getLsbD_eq
    intro i hi
    simp only [fieldImm6, opWord, BitVec.getLsbD_append, BitVec.getLsbD_extractLsb']
    interval_cases i <;> simp
  rw [← opWord6_fields (opWord op0 opa op1 opn opb), fieldOp0_opWord, fieldOpa_opWord, fieldOp1_opWord, h6]

/-- The count or mode field of a word whose `opn` is a bit before it (R92). -/
theorem fieldNn_opWord (op0 : BitVec 4) (opa op1 opb : BitVec 3) (b : BitVec 1) (nn : BitVec 2) :
    fieldNn (opWord op0 opa op1 (b ++ nn) opb) = nn := by
  rw [fieldNn, opWord_eq_opWord6, extract_opWord6 _ _ _ _ (by omega), extract_append_left _ _ (by omega),
    extract_append_right]

/-- Bit 5 of a word is the top bit of `opn` (R91). -/
theorem getLsbD_five_opWord (op0 : BitVec 4) (opa op1 opb : BitVec 3) (b : BitVec 1) (nn : BitVec 2) :
    (opWord op0 opa op1 (b ++ nn) opb).getLsbD 5 = b.getLsbD 0 := by
  simp only [opWord, BitVec.getLsbD_append]
  rfl

/-- Words are equal if their fields are (R91). -/
theorem word_eq_iff (v w : Word) :
    v = w ↔ fieldOp0 v = fieldOp0 w ∧ fieldOpa v = fieldOpa w ∧ fieldOp1 v = fieldOp1 w ∧ fieldImm6 v = fieldImm6 w := by
  constructor
  · rintro rfl
    exact ⟨rfl, rfl, rfl, rfl⟩
  · rintro ⟨h0, ha, h1, h6⟩
    rw [← opWord6_fields v, ← opWord6_fields w, h0, ha, h1, h6]

/-- A masked comparison of the decoder, field by field. -/
theorem masked_opWord6 (op0 : BitVec 4) (opa op1 : BitVec 3) (imm6 : BitVec 6) (mask v : Word) :
    opWord6 op0 opa op1 imm6 &&& mask = v ↔
      op0 &&& fieldOp0 mask = fieldOp0 v ∧ opa &&& fieldOpa mask = fieldOpa v ∧
        op1 &&& fieldOp1 mask = fieldOp1 v ∧ imm6 &&& fieldImm6 mask = fieldImm6 v := by
  have and0 (a b : Word) : fieldOp0 (a &&& b) = fieldOp0 a &&& fieldOp0 b := BitVec.extractLsb'_and
  have anda (a b : Word) : fieldOpa (a &&& b) = fieldOpa a &&& fieldOpa b := BitVec.extractLsb'_and
  have and1 (a b : Word) : fieldOp1 (a &&& b) = fieldOp1 a &&& fieldOp1 b := BitVec.extractLsb'_and
  have and6 (a b : Word) : fieldImm6 (a &&& b) = fieldImm6 a &&& fieldImm6 b := BitVec.extractLsb'_and
  rw [word_eq_iff, and0, anda, and1, and6, fieldOp0_opWord6, fieldOpa_opWord6, fieldOp1_opWord6, fieldImm6_opWord6]

/-! ## The second word -/

/-- The form with its second word replaced, if it has one. -/
def Form.withSecond (w : Word) : Form → Form
  | .imm16 rs _ => .imm16 rs w
  | .a16 rs _ => .a16 rs w
  | .toA16 rs _ => .toA16 rs w
  | f => f

/-- As `Form.withSecond`, for the forms of STORE. -/
def StoreForm.withSecond (w : Word) : StoreForm → StoreForm
  | .a16 rs _ => .a16 rs w
  | .toA16 rs _ => .toA16 rs w
  | f => f

/-- The shape with its second word replaced, if it has one (R90). -/
def Shape.withSecond (w : Word) : Shape → Shape
  | .call seg _ => .call seg w
  | .goto seg _ => .goto seg w
  | .alu op rd f => .alu op rd (f.withSecond w)
  | .store rd f => .store rd (f.withSecond w)
  | σ => σ

/-- The first word of a form's encoding, which names the form. -/
def Form.opcode (op0 : BitVec 4) (rd : Reg) (f : Form) : Word := (encodeForm op0 rd f).headD 0#16

/-- The first word of a shape's encoding. -/
def Shape.opcode (σ : Shape) : Word := σ.encode.headD 0#16

/-- The form of the remaining group that STORE's form is (R272). -/
def StoreForm.toForm : StoreForm → Form
  | .bp6 imm6 => .bp6 imm6
  | .ind ds mode rs => .ind ds mode rs
  | .a16 rs addr => .a16 rs addr
  | .toA16 rs addr => .toA16 rs addr
  | .a6 imm6 => .a6 imm6

theorem StoreForm.asStore_withSecond (f : StoreForm) (w : Word) :
    (f.toForm.withSecond w).asStore = some (f.withSecond w) := by
  cases f <;> rfl

theorem StoreForm.inJumpColumn_toForm (f : StoreForm) : f.toForm.inJumpColumn = f.inJumpColumn := by
  cases f <;> rfl

theorem Shape.opcode_store (rd : Reg) (f : StoreForm) : (Shape.store rd f).opcode = f.toForm.opcode 0xD#4 rd := by
  cases f <;> rfl

/-- Each instruction is the one its shape names. -/
theorem Instr.instr_shape (i : Instr) : i.shape.instr = i := by
  cases i <;> rfl

/-- Each shape is that of the instruction it names. -/
theorem Shape.shape_instr (σ : Shape) : σ.instr.shape = σ := by
  cases σ with
  | mul signed rd rs => cases signed <;> rfl
  | fixed k => cases k <;> rfl
  | jump c back imm6 => cases c <;> rfl
  | bit fn rd f => cases fn <;> cases f <;> rfl
  | rshift fn rd rs => cases fn <;> rfl
  | alu op rd f => cases op <;> cases f <;> rfl
  | store rd f => cases f <;> rfl
  | call | goto | push | pop | reti => rfl

/-- Whether a second word follows does not depend on the word (R90). -/
theorem Shape.takesImm16_withSecond (σ : Shape) (w : Word) :
    (σ.withSecond w).instr.takesImm16 = σ.instr.takesImm16 := by
  simp only [Instr.takesImm16, Shape.shape_instr]
  cases σ with
  | alu op rd f => cases f <;> rfl
  | store rd f => cases f <;> rfl
  | _ => rfl

/-- An encoding is the opcode word alone, or the opcode word and the second word (R90, R93). -/
theorem Shape.encode_cases (σ : Shape) :
    (σ.instr.takesImm16 = false ∧ σ.encode = [σ.opcode] ∧ ∀ w, σ.withSecond w = σ) ∨
      (σ.instr.takesImm16 = true ∧ ∃ w, σ.encode = [σ.opcode, w] ∧ σ.withSecond w = σ) := by
  simp only [Instr.takesImm16, Shape.shape_instr]
  cases σ with
  | call seg addr => exact .inr ⟨rfl, addr, rfl, rfl⟩
  | goto seg addr => exact .inr ⟨rfl, addr, rfl, rfl⟩
  | alu op rd f =>
    cases f with
    | imm16 rs w | a16 rs w | toA16 rs w => exact .inr ⟨rfl, w, rfl, rfl⟩
    | _ => exact .inl ⟨rfl, rfl, fun _ => rfl⟩
  | store rd f =>
    cases f with
    | a16 rs w | toA16 rs w => exact .inr ⟨rfl, w, rfl, rfl⟩
    | _ => exact .inl ⟨rfl, rfl, fun _ => rfl⟩
  | _ => exact .inl ⟨rfl, rfl, fun _ => rfl⟩

/-! ## The dispatch by group (R96) -/

theorem decodeOp_fxxx {op : Word} (imm : Word) (h0 : fieldOp0 op = 0xF#4) : decodeOp op imm = decodeFxxx op imm := by
  rw [decodeOp, if_pos h0]

theorem decodeOp_jump {op : Word} (imm : Word) (h0 : fieldOp0 op ≠ 0xF#4)
    (hj : fieldOpa op = 7#3 ∧ fieldOp1 op < 2#3) : decodeOp op imm = .ok (decodeJump op) := by
  rw [decodeOp, if_neg h0, if_pos hj]

theorem decodeOp_exxx {op : Word} (imm : Word) (h0 : fieldOp0 op = 0xE#4)
    (hj : ¬(fieldOpa op = 7#3 ∧ fieldOp1 op < 2#3)) : decodeOp op imm = decodeExxx op := by
  rw [decodeOp, if_neg (by rw [h0]; decide), if_neg hj, if_pos h0]

theorem decodeOp_remaining {op : Word} (imm : Word) (hF : fieldOp0 op ≠ 0xF#4) (hE : fieldOp0 op ≠ 0xE#4)
    (hj : ¬(fieldOpa op = 7#3 ∧ fieldOp1 op < 2#3)) : decodeOp op imm = decodeRemaining op imm := by
  rw [decodeOp, if_neg hF, if_neg hj, if_neg hE]

/-- Register 7 is PC (R20). -/
theorem Reg.num_eq_seven (r : Reg) : r.num = 7#3 ↔ r = .pc := Reg.num_inj (b := .pc)

/-! ## The Fxxx and the jump group -/

theorem decodeOp_mul (signed : Bool) (rd rs : Reg) (imm : Word) :
    decodeOp (Shape.mul signed rd rs).opcode imm = .ok (.ofMul signed rd rs) := by
  have e : (Shape.mul signed rd rs).opcode =
      opWord6 0xF#4 rd.num (BitVec.ofBool signed ++ 0#2) (1#3 ++ rs.num) := opWord_eq_opWord6 ..
  have hopn : 1#3 ++ rs.num &&& 56#6 = 8#6 := by cases rs <;> rfl
  rw [e, decodeOp_fxxx imm (by simp)]
  cases signed <;> simp [decodeFxxx, masked_opWord6, fieldOp0, fieldOpa, fieldOp1, fieldImm6, hopn, Instr.ofMul]

theorem decodeOp_call (seg : BitVec 6) (addr imm : Word) :
    decodeOp (Shape.call seg addr).opcode imm = .ok (.call seg imm) := by
  show decodeOp (opWord6 0xF#4 0#3 1#3 seg) imm = _
  rw [decodeOp_fxxx imm (by simp), decodeFxxx, fieldImm6_opWord6]
  simp [masked_opWord6, fieldOp0, fieldOpa, fieldOp1, fieldImm6]

theorem decodeOp_goto (seg : BitVec 6) (addr imm : Word) :
    decodeOp (Shape.goto seg addr).opcode imm = .ok (.goto seg imm) := by
  show decodeOp (opWord6 0xF#4 7#3 2#3 seg) imm = _
  rw [decodeOp_fxxx imm (by simp), decodeFxxx, fieldImm6_opWord6]
  simp [masked_opWord6, fieldOp0, fieldOpa, fieldOp1, fieldImm6]

theorem decodeOp_fixed (k : FixedOp) (imm : Word) : decodeOp (Shape.fixed k).opcode imm = .ok (.ofFixed k) := by
  cases k <;> rfl

theorem decodeOp_jumpWord (c : Cond) (back : Bool) (imm6 : BitVec 6) (imm : Word) :
    decodeOp (Shape.jump c back imm6).opcode imm = .ok (.ofJump c back imm6) := by
  show decodeOp (opWord6 c.num 7#3 (0#2 ++ BitVec.ofBool back) imm6) imm = _
  have hcolumn : 0#2 ++ BitVec.ofBool back < 2#3 := by cases back <;> decide
  have hdir : (opWord6 c.num 7#3 (0#2 ++ BitVec.ofBool back) imm6).getLsbD 6 = back := by
    simp only [opWord6, BitVec.getLsbD_append]
    cases back <;> rfl
  rw [decodeOp_jump imm (by simpa using c.num_ne) (by simpa using hcolumn), decodeJump, hdir]
  simp

/-! ## The Exxx group -/

/-- The field `op1` of a bit operation's form (R191). -/
def BitForm.slot : BitForm → BitVec 3
  | .rRs _ => 0#3
  | .rImm _ => 1#3
  | .mRs _ => 4#3
  | .dmRs _ => 5#3
  | .mImm _ => 6#3
  | .dmImm _ => 7#3

/-- The low four bits of a bit operation's form: the bit number, or the register that holds it (R191). -/
def BitForm.source : BitForm → BitVec 4
  | .rRs rs | .mRs rs | .dmRs rs => 0#1 ++ rs.num
  | .rImm off | .mImm off | .dmImm off => off

theorem encodeBit_eq (fn : BitFn) (rd : Reg) (f : BitForm) :
    encodeBit fn rd f = opWord6 0xE#4 rd.num f.slot (fn.num ++ f.source) := by
  have hassoc (rs : Reg) : fn.num ++ 0#1 ++ rs.num = fn.num ++ (0#1 ++ rs.num) := by
    cases fn <;> cases rs <;> rfl
  cases f <;> simp only [encodeBit, BitForm.slot, BitForm.source, hassoc]

theorem BitForm.slot_lt (f : BitForm) : f.slot < 2#3 ↔ f.inJumpColumn = true := by
  cases f <;> simp [BitForm.slot, BitForm.inJumpColumn]

theorem decodeBitFn_opWord6 (fn : BitFn) (op0 : BitVec 4) (opa op1 : BitVec 3) (low : BitVec 4) :
    decodeBitFn (opWord6 op0 opa op1 (fn.num ++ low)) = fn := by
  have hbb : (opWord6 op0 opa op1 (fn.num ++ low)).extractLsb' 4 2 = fn.num := by
    rw [extract_opWord6 _ _ _ _ (by omega), extract_append_left _ _ (by omega)]
    exact extract_self _
  rw [decodeBitFn, hbb]
  cases fn <;> rfl

/-- The decoder reads a bit operation's form off `op1` and, in the slots it shares with the shifts, bit 3. -/
theorem decodeExxx_encodeBit (fn : BitFn) (rd : Reg) (f : BitForm) :
    decodeExxx (encodeBit fn rd f) = .ok (.ofBit fn rd f) := by
  have hreg (rs : Reg) : fn.num ++ (0#1 ++ rs.num) &&& 8#6 = 0#6 := by
    cases fn <;> cases rs <;> rfl
  have hrs (op1 : BitVec 3) (rs : Reg) : fieldRs (opWord6 0xE#4 rd.num op1 (fn.num ++ (0#1 ++ rs.num))) = rs := by
    rw [fieldRs, fieldOpb, extract_opWord6 _ _ _ _ (by omega)]
    cases fn <;> cases rs <;> rfl
  have hoff (op1 : BitVec 3) (off : BitVec 4) : fieldOff (opWord6 0xE#4 rd.num op1 (fn.num ++ off)) = off := by
    rw [fieldOff, extract_opWord6 _ _ _ _ (by omega), extract_append_right]
  rw [encodeBit_eq, decodeExxx]
  cases f <;>
    simp [BitForm.slot, BitForm.source, decodeBitFn_opWord6, hrs, hoff, masked_opWord6, fieldOp0, fieldOpa, fieldOp1,
      fieldImm6, hreg]

theorem decodeOp_bit (fn : BitFn) (rd : Reg) (f : BitForm) (imm : Word) (hwf : (Shape.bit fn rd f).wf = true) :
    decodeOp (Shape.bit fn rd f).opcode imm = .ok (.ofBit fn rd f) := by
  show decodeOp (encodeBit fn rd f) imm = _
  rw [decodeOp_exxx imm (by simp [encodeBit_eq]), decodeExxx_encodeBit]
  rw [encodeBit_eq, fieldOpa_opWord6, fieldOp1_opWord6, Reg.num_eq_seven, BitForm.slot_lt]
  rintro ⟨rfl, hcolumn⟩
  simp [Shape.wf, hcolumn] at hwf

/-- The word of a register-count shift: `lll` lies across `op1` and the low bits (R92). -/
theorem opcode_rshift (fn : ShiftFn) (rd rs : Reg) :
    (Shape.rshift fn rd rs).opcode =
      opWord6 0xE#4 rd.num (2#2 ++ fn.num.extractLsb' 2 1) (fn.num.extractLsb' 0 2 ++ 1#1 ++ rs.num) := by
  cases fn <;> cases rd <;> cases rs <;> rfl

theorem decodeShiftFn_opcode (fn : ShiftFn) (rd rs : Reg) : decodeShiftFn (Shape.rshift fn rd rs).opcode = fn := by
  have hlll : (Shape.rshift fn rd rs).opcode.extractLsb' 4 3 = fn.num := by
    simp only [Shape.opcode, Shape.encode, List.headD_cons]
    rw [extract_append_left _ _ (by omega), extract_append_left _ _ (by omega)]
    exact extract_append_right _ _
  rw [decodeShiftFn, hlll]
  cases fn <;> rfl

theorem decodeOp_rshift (fn : ShiftFn) (rd rs : Reg) (imm : Word) :
    decodeOp (Shape.rshift fn rd rs).opcode imm = .ok (.ofShift fn rd rs) := by
  have hlow : fn.num.extractLsb' 0 2 ++ 1#1 ++ rs.num &&& 8#6 = 8#6 := by
    cases fn <;> cases rs <;> rfl
  have hslot : 2#2 ++ fn.num.extractLsb' 2 1 = 4#3 ∨ 2#2 ++ fn.num.extractLsb' 2 1 = 5#3 := by
    cases fn <;> decide
  have hfn := decodeShiftFn_opcode fn rd rs
  rw [opcode_rshift] at hfn ⊢
  generalize 2#2 ++ fn.num.extractLsb' 2 1 = slot at hfn hslot ⊢
  have hcolumn : ¬slot < 2#3 := by
    rcases hslot with rfl | rfl <;> decide
  rw [decodeOp_exxx imm (by simp) (by simp [hcolumn]), decodeExxx, hfn]
  rcases hslot with rfl | rfl <;>
    simp [masked_opWord6, fieldOp0, fieldOpa, fieldOp1, fieldImm6, hlow]

/-! ## The remaining group -/

/-- In the slot `op1 = 4` the words with the top bit of `opn` set are the form ASR (R99). -/
theorem decodeForm4_asr {op imm : Word} (h : 4 ≤ (fieldOpn op).toNat) :
    decodeForm4 op imm = .asr (fieldNn op) (fieldRs op) := by
  unfold decodeForm4
  split
  case h_5 => rfl
  all_goals omega

section RemainingForms

variable (op0 : BitVec 4) (rd : Reg) (f : Form)

theorem Form.fieldOp0_opcode : fieldOp0 (f.opcode op0 rd) = op0 := by
  cases f <;> simp [Form.opcode, encodeForm]

theorem Form.fieldOpa_opcode : fieldOpa (f.opcode op0 rd) = rd.num := by
  cases f <;> simp [Form.opcode, encodeForm]

theorem Form.fieldRd_opcode : fieldRd (f.opcode op0 rd) = rd := by
  rw [fieldRd, Form.fieldOpa_opcode, Reg.ofNum_num]

theorem Form.fieldOp1_opcode_lt : fieldOp1 (f.opcode op0 rd) < 2#3 ↔ f.inJumpColumn = true := by
  cases f <;> simp [Form.opcode, encodeForm, Form.inJumpColumn]

/-- The opcode word of a form that has an encoding is no jump's (R96). -/
theorem Form.not_jump_opcode (hwf : (!(f.inJumpColumn && rd == .pc)) = true) :
    ¬(fieldOpa (f.opcode op0 rd) = 7#3 ∧ fieldOp1 (f.opcode op0 rd) < 2#3) := by
  rw [Form.fieldOpa_opcode, Form.fieldOp1_opcode_lt, Reg.num_eq_seven]
  rintro ⟨rfl, hcolumn⟩
  simp [hcolumn] at hwf

/-- The decoder reads a form off its opcode word, with whatever second word it is given (R99). -/
theorem decodeForm_opcode (imm : Word) : decodeForm (f.opcode op0 rd) imm = some (f.withSecond imm) := by
  cases f with
  | ind ds mode rs =>
    have hmode : decodeIndMode (opWord op0 rd.num 3#3 (BitVec.ofBool ds ++ mode.num) rs.num) = mode := by
      rw [decodeIndMode, fieldNn_opWord]
      cases mode <;> rfl
    have hds : (opWord op0 rd.num 3#3 (BitVec.ofBool ds ++ mode.num) rs.num).getLsbD 5 = ds := by
      rw [getLsbD_five_opWord]
      cases ds <;> rfl
    simp only [Form.opcode, encodeForm, List.headD_cons, decodeForm, fieldOp1_opWord, hmode, hds, fieldRs_opWord]
    rfl
  | asr nn rs =>
    have hopn : 4 ≤ (1#1 ++ nn).toNat := by
      revert nn; decide
    have hform := decodeForm4_asr (op := opWord op0 rd.num 4#3 (1#1 ++ nn) rs.num) (imm := imm)
      (by rwa [fieldOpn_opWord])
    rw [fieldNn_opWord, fieldRs_opWord] at hform
    simp only [Form.opcode, encodeForm, List.headD_cons, decodeForm, fieldOp1_opWord, hform]
    rfl
  | lsl nn rs | lsr nn rs | rol nn rs | ror nn rs =>
    simp only [Form.opcode, encodeForm, List.headD_cons, decodeForm, fieldOp1_opWord, fieldNn_opWord,
      getLsbD_five_opWord, fieldRs_opWord]
    rfl
  | _ => simp [Form.opcode, encodeForm, decodeForm, decodeForm4, Form.withSecond]

end RemainingForms

theorem decodeOp_alu (op : AluOp) (rd : Reg) (f : Form) (imm : Word) (hwf : (Shape.alu op rd f).wf = true) :
    decodeOp (Shape.alu op rd f).opcode imm = .ok (.ofAlu op rd (f.withSecond imm)) := by
  show decodeOp (f.opcode op.num rd) imm = _
  obtain ⟨hE, hF, -⟩ := op.num_ne
  have hop0 := f.fieldOp0_opcode op.num rd
  rw [decodeOp_remaining imm (by rw [hop0]; exact hF) (by rw [hop0]; exact hE) (f.not_jump_opcode _ _ hwf),
    decodeRemaining, decodeForm_opcode, hop0, decodeAluOp_num, Form.fieldRd_opcode]

theorem decodeOp_store (rd : Reg) (f : StoreForm) (imm : Word) (hwf : (Shape.store rd f).wf = true) :
    decodeOp (Shape.store rd f).opcode imm = .ok (.ofStore rd (f.withSecond imm)) := by
  have hop0 := f.toForm.fieldOp0_opcode 0xD#4 rd
  rw [Shape.wf, ← f.inJumpColumn_toForm] at hwf
  rw [Shape.opcode_store, decodeOp_remaining imm (by rw [hop0]; decide) (by rw [hop0]; decide)
    (f.toForm.not_jump_opcode _ _ hwf), decodeRemaining, decodeForm_opcode, hop0, (decodeAluOp_store _).mpr rfl,
    Form.fieldRd_opcode]
  simp only [StoreForm.asStore_withSecond]

/-! ## PUSH, POP and RETI -/

/-- The words with `op1 = 2` are the stack instructions' (R220, R294). -/
theorem decodeOp_stackSlot (op0 : BitVec 4) (opa opn opb : BitVec 3) (imm : Word) (hF : op0 ≠ 0xF#4)
    (hE : op0 ≠ 0xE#4) :
    decodeOp (opWord op0 opa 2#3 opn opb) imm = decodeStack (opWord op0 opa 2#3 opn opb) := by
  rw [decodeOp_remaining imm (by simpa using hF) (by simpa using hE) (by simp), decodeRemaining, decodeForm,
    fieldOp1_opWord]
  rfl

theorem decodeOp_push (rd : Reg) (n : BitVec 3) (rb : Reg) (imm : Word) (hwf : pushLegal rd n = true) :
    decodeOp (Shape.push rd n rb).opcode imm = .ok (.push rd n rb) := by
  show decodeOp (opWord 0xD#4 rd.num 2#3 n rb.num) imm = _
  have hreti : opWord 0xD#4 rd.num 2#3 n rb.num ≠ 0x9A98#16 := fun h =>
    absurd (congrArg fieldOp0 h) (by rw [fieldOp0_opWord]; decide)
  rw [decodeOp_stackSlot _ _ _ _ _ (by decide) (by decide), decodeStack, if_neg hreti, if_pos (by simp [hwf])]
  simp

/-- The word 0x9A98 has the fields of a POP of three registers above BP, one more than there are (R292). -/
theorem decodeOp_pop (rd : Reg) (n : BitVec 3) (rb : Reg) (imm : Word) (hwf : popLegal rd n = true) :
    decodeOp (Shape.pop rd n rb).opcode imm = .ok (.pop rd n rb) := by
  show decodeOp (opWord 0x9#4 rd.num 2#3 n rb.num) imm = _
  have hreti : opWord 0x9#4 rd.num 2#3 n rb.num ≠ 0x9A98#16 := by
    intro h
    have hn : n = 3#3 := (fieldOpn_opWord ..).symm.trans (congrArg fieldOpn h)
    have hrd : rd = .bp := (fieldRd_opWord ..).symm.trans (congrArg fieldRd h)
    subst hn hrd
    exact absurd hwf (by decide)
  rw [decodeOp_stackSlot _ _ _ _ _ (by decide) (by decide), decodeStack, if_neg hreti, if_neg (by simp),
    if_pos (by simp [hwf])]
  simp

/-! ## Every instruction -/

/-- The opcode word of a well-formed shape decodes to it, with whatever second word it is given (R93, R96). -/
theorem decodeOp_opcode (σ : Shape) (imm : Word) (hwf : σ.wf = true) :
    decodeOp σ.opcode imm = .ok (σ.withSecond imm).instr := by
  cases σ with
  | mul signed rd rs => exact decodeOp_mul signed rd rs imm
  | call seg addr => exact decodeOp_call seg addr imm
  | goto seg addr => exact decodeOp_goto seg addr imm
  | fixed k => exact decodeOp_fixed k imm
  | jump c back imm6 => exact decodeOp_jumpWord c back imm6 imm
  | bit fn rd f => exact decodeOp_bit fn rd f imm hwf
  | rshift fn rd rs => exact decodeOp_rshift fn rd rs imm
  | push rd n rb => exact decodeOp_push rd n rb imm hwf
  | pop rd n rb => exact decodeOp_pop rd n rb imm hwf
  | reti => rfl
  | alu op rd f => exact decodeOp_alu op rd f imm hwf
  | store rd f => exact decodeOp_store rd f imm hwf

/-- The opcode word of a well-formed instruction says whether its second word follows (R90). -/
theorem takesSecondWord_opcode (i : Instr) (hwf : i.wf = true) : takesSecondWord i.shape.opcode = i.takesImm16 := by
  rw [takesSecondWord, decodeOp_opcode _ _ hwf]
  exact (i.shape.takesImm16_withSecond 0#16).trans (congrArg _ i.instr_shape)

theorem decode_oneWord {op : Word} (rest : List Word) (h : takesSecondWord op = false) :
    decode (op :: rest) = (decodeOp op 0#16).map (·, rest) := by
  simp [decode, h]

theorem decode_twoWords {op : Word} (imm : Word) (rest : List Word) (h : takesSecondWord op = true) :
    decode (op :: imm :: rest) = (decodeOp op imm).map (·, rest) := by
  simp [decode, h]

/-- Decoding the words of a well-formed instruction gives it back, with the words after it left over. -/
theorem decode_encode_append (i : Instr) (rest : List Word) (hwf : i.wf = true) :
    decode (encode i ++ rest) = .ok (i, rest) := by
  have htakes := takesSecondWord_opcode i hwf
  have hop (imm : Word) := decodeOp_opcode i.shape imm hwf
  have hcases := i.shape.encode_cases
  rw [i.instr_shape] at hcases
  rw [encode]
  rcases hcases with ⟨hone, hwords, hsame⟩ | ⟨htwo, w, hwords, hsame⟩
  · rw [hwords, List.singleton_append, decode_oneWord rest (htakes.trans hone), hop, hsame, i.instr_shape]
    rfl
  · rw [hwords, List.cons_append, List.singleton_append, decode_twoWords w rest (htakes.trans htwo), hop, hsame,
      i.instr_shape]
    rfl

end Sys2Proof
end

section
/-! SUPPORT. The fetch of an instruction's words, the completion of every instruction, and the step made of them
(00_scope.md R10). -/

namespace Sys2Proof.Machine

/-- Every instruction answers a next state (R311). -/
theorem exec_next (i : Instr) (s : State) : ∃ t, exec i s = .next t := by
  rw [exec_by_shape]
  cases i.shape with
  | mul signed rd rs =>
    obtain ⟨v, h⟩ := exec_ofMul signed rd rs s
    exact ⟨_, h⟩
  | fixed k =>
    obtain ⟨irq, fiq, h⟩ := exec_ofFixed k s
    exact ⟨_, h⟩
  | jump c back imm6 => exact ⟨_, (exec_ofJump c back imm6 s).trans (jumpIf_eq _ _ _ _)⟩
  | bit fn rd f =>
    rw [Shape.instr, exec_ofBit]
    cases bitFormAddr rd f s with
    | none => exact ⟨_, bitOnReg_eq fn rd _ s⟩
    | some a => exact ⟨_, bitOnMem_eq fn a _ s⟩
  | rshift fn rd rs =>
    rcases exec_ofShift fn rd rs s with ⟨v, h⟩ | ⟨v, h⟩
    · exact ⟨_, h⟩
    · exact ⟨_, h⟩
  | alu op rd f => exact ⟨_, exec_ofAlu op rd f s⟩
  | store rd f =>
    obtain ⟨b, a, v, h, -⟩ := storeInstr_eq rd f s
    exact ⟨_, (exec_ofStore rd f s).trans h⟩
  | call | goto | push | pop | reti => exact ⟨_, rfl⟩

/-- The fetch where the platform answers with an instruction whose opcode word announces its second word: the words of
that instruction, and the state in which it begins (R10, R93). -/
theorem State.fetch_eq_fetched (s : State) (i : Instr)
    (h : takesSecondWord (s.reply 0 (busAddr s.lpc)) = i.takesImm16) :
    s.fetch = { op := s.reply 0 (busAddr s.lpc), words := fetchWords i s, st := s.fetched i } := by
  cases htakes : i.takesImm16 with
  | false =>
    rw [s.fetch_oneWord (h.trans htakes), fetchWords, State.fetched, fetchReads, htakes]
    rfl
  | true =>
    rw [s.fetch_twoWords (h.trans htakes), fetchWords, State.fetched, fetchReads, htakes]
    rfl

/-- A well-formed instruction found at the program counter is fetched as it is (R10, R62). -/
theorem State.fetch_of_fetchWords {s : State} {i : Instr} (hwf : i.wf = true) (hwords : fetchWords i s = encode i) :
    s.fetch = { op := i.shape.opcode, words := encode i, st := s.fetched i } := by
  have hop : s.reply 0 (busAddr s.lpc) = i.shape.opcode := congrArg (List.headD · 0#16) hwords
  rw [s.fetch_eq_fetched i (hop ▸ takesSecondWord_opcode i hwf), hop, hwords]

/-- A step whose fetch decodes to an instruction is that instruction and one interrupt check (R10, R324). -/
theorem State.runStep_of_decode {s : State} {i : Instr} {rest : List Word} (h : decode s.fetch.words = .ok (i, rest)) :
    s.runStep = Result.thenCheckIrqs (exec i s.fetch.st) := by
  simp only [State.runStep, h]

/-- Settles O9: the fetched words are the instruction's encoding, which decodes to it, and every instruction answers a
next state for the interrupt check. -/
theorem stepRunsDecodedInstruction : Obligations.StepRunsDecodedInstruction := by
  unfold Obligations.StepRunsDecodedInstruction
  intro s i hs hwf hwords
  obtain ⟨t, ht⟩ := exec_next i (s.fetched i)
  have hfetch := State.fetch_of_fetchWords hwf hwords
  have hdecode : decode s.fetch.words = .ok (i, []) := by
    simpa [hfetch] using decode_encode_append i [] hwf
  refine ⟨t, ht, ?_⟩
  rw [step_running hs, State.runStep_of_decode hdecode, hfetch, ht]
  rfl

end Sys2Proof.Machine
end

section
/-! SUPPORT. Every instruction, fetch and interrupt entry as a run of register writes and of memory accesses below word
address 2^22 (20_memory.md R60), and what such a run keeps. -/

namespace Sys2Proof.Machine

/-! ## Addresses below 2^22 -/

/-- Bus address bit 22 is 0 (R60). -/
abbrev LowAddr (a : Addr) : Prop := a.getLsbD 22 = false

theorem lowAddr_iff (a : Addr) : LowAddr a ↔ a.toNat < 2 ^ 22 := by
  have hlt := a.isLt
  rw [LowAddr, BitVec.getLsbD, Nat.testBit_eq_decide_div_mod_eq, decide_eq_false_iff_not]
  omega

theorem lowAddr_segZero (off : Word) : LowAddr (segZero off) := by
  have hlt := off.isLt
  rw [lowAddr_iff, toNat_segZero]
  omega

theorem lowAddr_busAddr (a : ProgAddr) : LowAddr (busAddr a) := by
  rw [lowAddr_iff, toNat_busAddr]
  exact a.isLt

theorem lowAddr_a6Addr (imm6 : BitVec 6) : LowAddr (a6Addr imm6) := by
  have hlt := imm6.isLt
  rw [lowAddr_iff, a6Addr, BitVec.toNat_setWidth]
  omega

theorem lowAddr_irqVector (line : BitVec 3) : LowAddr (irqVector line) := by
  revert line; decide

theorem lowAddr_indAddr (ds : Bool) (rs : Reg) (s : State) : LowAddr (indAddr ds rs s) := by
  cases ds
  · exact lowAddr_segZero _
  · exact lowAddr_busAddr _

theorem lowAddr_bitFormAddr {rd : Reg} {f : BitForm} {s : State} {a : Addr} (h : bitFormAddr rd f s = some a) :
    LowAddr a := by
  cases f with
  | rRs rs | rImm off => cases h
  | mRs rs | mImm off => cases h; exact lowAddr_segZero _
  | dmRs rs | dmImm off => cases h; exact lowAddr_busAddr _

/-! ## Plain runs -/

/-- One register write, or one memory access below word address 2^22. -/
inductive PlainOp (s : State) : State → Prop where
  | setReg (r : Reg) (v : Word) : PlainOp s (s.setReg r v)
  | read (a : Addr) (low : LowAddr a) : PlainOp s (s.memRead a).2
  | write (a : Addr) (v : Word) (low : LowAddr a) : PlainOp s (s.memWrite a v)

/-- From `s` to `t` there are only register writes and memory accesses below word address 2^22. -/
abbrev PlainRun : State → State → Prop := Relation.ReflTransGen PlainOp

section Extend

variable {s t : State} (h : PlainRun s t)
include h

theorem PlainRun.setReg (r : Reg) (v : Word) : PlainRun s (t.setReg r v) := h.tail (.setReg r v)

theorem PlainRun.read {a : Addr} (low : LowAddr a) : PlainRun s (t.memRead a).2 := h.tail (.read a low)

theorem PlainRun.write {a : Addr} (v : Word) (low : LowAddr a) : PlainRun s (t.memWrite a v) := h.tail (.write a v low)

theorem PlainRun.advPc (k : Int) : PlainRun s (t.advPc k) :=
  (h.setReg .pc (t.advPc k).pc).setReg .sr (t.advPc k).sr

theorem PlainRun.setMr (v : BitVec 32) : PlainRun s (t.setMr v) :=
  (h.setReg .r4 (t.setMr v).r4).setReg .r3 (t.setMr v).r3

theorem PlainRun.bitFlag (off : BitVec 4) (v : Word) : PlainRun s (bitFlag off v t) := h.setReg .sr _

theorem PlainRun.push (v : Word) (r : Reg) : PlainRun s (t.push v r) := (h.write v (lowAddr_segZero _)).setReg r _

theorem PlainRun.popTo (d r : Reg) : PlainRun s (t.popTo d r) :=
  ((h.setReg r _).read (lowAddr_segZero _)).setReg d _

theorem PlainRun.bumpUp (ds : Bool) (rs : Reg) : PlainRun s (bumpUp ds rs t) := by
  simp only [Machine.bumpUp]
  split
  · exact (h.setReg _ _).setReg _ _
  · exact h.setReg _ _

theorem PlainRun.bumpDown (ds : Bool) (rs : Reg) : PlainRun s (bumpDown ds rs t) := by
  simp only [Machine.bumpDown]
  split
  · exact (h.setReg _ _).setReg _ _
  · exact h.setReg _ _

theorem PlainRun.indBefore (ds : Bool) (mode : IndMode) (rs : Reg) : PlainRun s (indBefore ds mode rs t) := by
  cases mode with
  | preInc => exact h.bumpUp ds rs
  | plain | postDec | postInc => exact h

theorem PlainRun.indAfter (ds : Bool) (mode : IndMode) (rs : Reg) : PlainRun s (indAfter ds mode rs t) := by
  cases mode with
  | postDec => exact h.bumpDown ds rs
  | postInc => exact h.bumpUp ds rs
  | plain | preInc => exact h

end Extend

theorem pushRegs_plainRun (n : Nat) (r rb : Reg) {s t : State} (h : PlainRun s t) : PlainRun s (pushRegs n r rb t) := by
  induction n generalizing r t with
  | zero => exact h
  | succ n ih => exact ih _ (h.push _ rb)

theorem popRegs_plainRun (n : Nat) (r rb : Reg) {s t : State} (h : PlainRun s t) : PlainRun s (popRegs n r rb t) := by
  induction n generalizing r t with
  | zero => exact h
  | succ n ih => exact ih _ (h.popTo _ rb)

/-! ## What a plain run keeps -/

theorem PlainRun.control {s t : State} (h : PlainRun s t) : SameControl s t := by
  induction h with
  | refl => exact .refl s
  | tail _ op ih =>
    refine ih.trans ?_
    cases op with
    | setReg r v => exact State.setReg_control _ r v
    | read a => exact State.memRead_control _ a
    | write a v => exact State.memWrite_control _ a v

theorem PlainRun.sb {s t : State} (h : PlainRun s t) : t.sb = s.sb := by
  induction h with
  | refl => rfl
  | tail _ op ih =>
    refine Eq.trans ?_ ih
    cases op with
    | setReg r v => exact State.setReg_sb _ r v
    | read a | write a => rfl

/-- The part of the invariant about memory and the accesses made (R60): canonical form, and nothing at or above word
address 2^22. -/
structure LowStorage (s : State) : Prop where
  memWf : s.mem.wf = true
  memLow : ∀ c ∈ s.mem, c.1 < 2 ^ 23
  busLow : ∀ a ∈ s.bus, LowAddr a.addr

theorem Inv.storage {s : State} (h : Inv s) : LowStorage s := ⟨h.memWf, h.memLow, h.busLow⟩

theorem LowStorage.congr {s t : State} (h : LowStorage s) (hm : t.mem = s.mem) (hb : t.bus = s.bus) : LowStorage t := by
  obtain ⟨hwf, hlow, hbus⟩ := h
  exact ⟨hm ▸ hwf, hm ▸ hlow, hb ▸ hbus⟩

theorem LowStorage.read {s : State} (h : LowStorage s) {a : Addr} (low : LowAddr a) : LowStorage (s.memRead a).2 := by
  refine ⟨h.memWf, h.memLow, fun b hb => ?_⟩
  rw [State.memRead_bus, List.mem_append, List.mem_singleton] at hb
  rcases hb with hb | rfl
  · exact h.busLow b hb
  · exact low

/-- The two cells of a word below word address 2^22 lie below byte address 2^23. -/
theorem LowStorage.write {s : State} (h : LowStorage s) {a : Addr} (v : Word) (low : LowAddr a) :
    LowStorage (s.memWrite a v) := by
  refine ⟨s.memWrite_wf a v h.memWf, fun c hc => ?_, fun b hb => ?_⟩
  · have ha := (lowAddr_iff a).mp low
    have hbyte : byteAddr a = 2 * a.toNat := rfl
    rcases Memory.mem_setWord _ _ _ _ hc with hc | hc | hc
    · omega
    · omega
    · exact h.memLow c hc
  · rw [State.memWrite_bus, List.mem_append, List.mem_singleton] at hb
    rcases hb with hb | rfl
    · exact h.busLow b hb
    · exact low

theorem PlainRun.storage {s t : State} (h : PlainRun s t) (hs : LowStorage s) : LowStorage t := by
  induction h with
  | refl => exact hs
  | tail _ op ih =>
    cases op with
    | setReg r v => exact ih.congr (State.setReg_mem _ r v) (State.setReg_bus _ r v)
    | read a low => exact ih.read low
    | write a v low => exact ih.write v low

/-! ## The shared meanings as plain runs -/

/-- An operand form is a plain run, after the change of SB where it is a shifted one (R36, R220). -/
theorem evalForm_plainRun (rd : Reg) (f : Form) (s : State) :
    ∃ sb, PlainRun { s with sb := sb } (evalForm rd f s).st ∧ (Form.shifts f = false → sb = s.sb) := by
  cases f with
  | asr nn rs | lsl nn rs | lsr nn rs | rol nn rs | ror nn rs => exact ⟨_, .refl, fun h => by cases h⟩
  | bp6 imm6 => exact ⟨s.sb, .read .refl (lowAddr_segZero _), fun _ => rfl⟩
  | a6 imm6 => exact ⟨s.sb, .read .refl (lowAddr_a6Addr imm6), fun _ => rfl⟩
  | a16 rs addr => exact ⟨s.sb, .read (.advPc .refl 1) (lowAddr_segZero addr), fun _ => rfl⟩
  | imm16 rs imm | toA16 rs addr => exact ⟨s.sb, .advPc .refl 1, fun _ => rfl⟩
  | imm6 imm6 | reg rs => exact ⟨s.sb, .refl, fun _ => rfl⟩
  | ind ds mode rs =>
    have hbefore : PlainRun s (indBefore ds mode rs s) := .indBefore .refl ds mode rs
    exact ⟨s.sb, (hbefore.read (lowAddr_indAddr ds rs _)).indAfter ds mode rs, fun _ => rfl⟩

/-- The ALU operation after its form is a plain run: SR, then the result (R260). -/
theorem applyAlu_plainRun (op : AluOp) (rd : Reg) (o : Operands) (low : ∀ ea, o.dest = .mem ea → LowAddr ea) :
    PlainRun o.st (applyAlu op rd o) := by
  have hflags (sr : Word) : PlainRun o.st (if rd = .pc then o.st else { o.st with sr := sr }) := by
    split
    · exact .refl
    · exact .setReg .refl .sr sr
  simp only [applyAlu]
  split
  · split
    · exact (hflags _).setReg rd _
    · next ea hdest => exact (hflags _).write _ (low ea hdest)
  · exact hflags _

theorem evalForm_dest_low (rd : Reg) (f : Form) (s : State) (ea : Addr) (h : (evalForm rd f s).dest = .mem ea) :
    LowAddr ea := by
  rw [evalForm_dest] at h
  split at h
  · cases h; exact lowAddr_segZero _
  · cases h

theorem storeInstr_plainRun (rd : Reg) (f : StoreForm) (s : State) :
    ∃ t, storeInstr rd f s = .next t ∧ PlainRun s t := by
  cases f with
  | bp6 imm6 => exact ⟨_, rfl, .write .refl _ (lowAddr_segZero _)⟩
  | a6 imm6 => exact ⟨_, rfl, .write .refl _ (lowAddr_a6Addr imm6)⟩
  | a16 rs addr | toA16 rs addr => exact ⟨_, rfl, .write (.advPc .refl 1) _ (lowAddr_segZero addr)⟩
  | ind ds mode rs =>
    have hbase : PlainRun s (indAfter ds mode rs (indBefore ds mode rs s)) := .indAfter (.indBefore .refl ..) ..
    exact ⟨_, rfl, hbase.write _ (lowAddr_indAddr ds rs _)⟩

theorem bitOnReg_plainRun (fn : BitFn) (rd : Reg) (off : BitVec 4) (s : State) :
    ∃ t, bitOnReg fn rd off s = .next t ∧ PlainRun s t :=
  ⟨_, bitOnReg_eq fn rd off s, .setReg (.bitFlag .refl off _) rd _⟩

theorem bitOnMem_plainRun (fn : BitFn) {a : Addr} (low : LowAddr a) (off : BitVec 4) (s : State) :
    ∃ t, bitOnMem fn a off s = .next t ∧ PlainRun s t := by
  refine ⟨_, bitOnMem_eq fn a off s, ?_⟩
  have hread : PlainRun s (bitFlag off (s.reply 0 a) (s.afterRead a)) := .bitFlag (.read .refl low) off _
  split
  · exact hread
  · exact hread.write _ low

/-! ## What an instruction can do -/

/-- All that an instruction can do beyond registers and memory: SB in the shifted forms (R36), the enables in the eight
enable instructions (R34), the return from interrupt in RETI (R292). -/
inductive InstrEffect (i : Instr) (s : State) : State → Prop where
  | plain {t : State} (run : PlainRun s t) : InstrEffect i s t
  | shifted {t : State} (sb : BitVec 4) (writes : writesSb i = true) (run : PlainRun { s with sb := sb } t) :
    InstrEffect i s t
  | enables (irq fiq : Bool) (mem : i ∈ enableInstrs) : InstrEffect i s { s with enableIrq := irq, enableFiq := fiq }
  | reti (eq : i = .reti) : InstrEffect i s s.returnInterrupt

theorem exec_ofShape_effect (σ : Shape) (s : State) : ∃ t, exec σ.instr s = .next t ∧ InstrEffect σ.instr s t := by
  cases σ with
  | mul signed rd rs =>
    obtain ⟨v, h⟩ := exec_ofMul signed rd rs s
    exact ⟨_, h, .plain (.setMr .refl v)⟩
  | call seg addr =>
    have hpushed := ((PlainRun.advPc (.refl (a := s)) 1).push (s.advPc 1).pc .sp).push (s.advPc 1).sr .sp
    exact ⟨_, rfl, .plain ((hpushed.setReg .pc addr).setReg .sr _)⟩
  | goto seg addr => exact ⟨_, rfl, .plain ((PlainRun.setReg .refl .pc addr).setReg .sr _)⟩
  | fixed k =>
    cases k with
    | nop => exact ⟨_, rfl, .plain .refl⟩
    | _ => exact ⟨_, rfl, .enables _ _ (by decide)⟩
  | jump c back imm6 =>
    refine ⟨_, (exec_ofJump c back imm6 s).trans (jumpIf_eq _ _ _ _), .plain ?_⟩
    split
    · exact .advPc .refl _
    · exact .refl
  | bit fn rd f =>
    rw [Shape.instr, exec_ofBit]
    cases ha : bitFormAddr rd f s with
    | none =>
      obtain ⟨t, h, hrun⟩ := bitOnReg_plainRun fn rd (bitFormOff f s) s
      exact ⟨t, h, .plain hrun⟩
    | some a =>
      obtain ⟨t, h, hrun⟩ := bitOnMem_plainRun fn (lowAddr_bitFormAddr ha) (bitFormOff f s) s
      exact ⟨t, h, .plain hrun⟩
  | rshift fn rd rs =>
    rcases exec_ofShift fn rd rs s with ⟨v, h⟩ | ⟨v, h⟩
    · exact ⟨_, h, .plain (.setReg .refl rd v)⟩
    · exact ⟨_, h, .plain (.setMr .refl v)⟩
  | push rd n rb => exact ⟨_, rfl, .plain (pushRegs_plainRun _ rd rb .refl)⟩
  | pop rd n rb => exact ⟨_, rfl, .plain (popRegs_plainRun _ rd rb .refl)⟩
  | reti => exact ⟨_, rfl, .reti rfl⟩
  | alu op rd f =>
    refine ⟨_, exec_ofAlu op rd f s, ?_⟩
    obtain ⟨sb, hform, hsb⟩ := evalForm_plainRun rd f s
    have hrun := hform.trans (applyAlu_plainRun op rd _ (evalForm_dest_low rd f s))
    have hwrites : writesSb (Shape.alu op rd f).instr = Form.shifts f := by rw [writesSb, Shape.shape_instr]
    cases hf : Form.shifts f with
    | true => exact .shifted sb (hwrites.trans hf) hrun
    | false => cases hsb hf; exact .plain hrun
  | store rd f =>
    obtain ⟨t, h, hrun⟩ := storeInstr_plainRun rd f s
    exact ⟨t, (exec_ofStore rd f s).trans h, .plain hrun⟩

theorem exec_effect {i : Instr} {s t : State} (h : exec i s = .next t) : InstrEffect i s t := by
  obtain ⟨u, hu, heffect⟩ := exec_ofShape_effect i.shape s
  rw [i.instr_shape] at hu heffect
  cases h.symm.trans hu
  exact heffect

end Sys2Proof.Machine
end

section
/-! SUPPORT. A step taken apart: the fetch, the instruction, the interrupt check or the fault (00_scope.md R10); and the
invariant kept by each of them. -/

namespace Sys2Proof

/-! ## An illegal opcode word (R103) -/

/-- The form an opcode word selects does not depend on the second word, but for holding it (R99). -/
theorem decodeForm_second (op imm : Word) : decodeForm op imm = (decodeForm op 0#16).map (Form.withSecond imm) := by
  have h4 : decodeForm4 op imm = (decodeForm4 op 0#16).withSecond imm := by
    unfold decodeForm4
    split <;> rfl
  unfold decodeForm
  split
  case h_5 => rw [h4]; rfl
  case h_6 | h_7 => split <;> rfl
  all_goals rfl

/-- Whether a form names a memory destination does not depend on its second word (R238). -/
theorem Form.asStore_withSecond (f : Form) (w : Word) :
    (f.withSecond w).asStore = f.asStore.map (StoreForm.withSecond w) := by
  cases f <;> rfl

theorem decodeFxxx_error {op imm : Word} {e : Reject} (h : decodeFxxx op imm = .error e) :
    decodeFxxx op 0#16 = .error e := by
  rw [decodeFxxx] at h ⊢
  split_ifs at h ⊢
  exact h

theorem decodeRemaining_error {op imm : Word} {e : Reject} (h : decodeRemaining op imm = .error e) :
    decodeRemaining op 0#16 = .error e := by
  rw [decodeRemaining, decodeForm_second] at h
  rw [decodeRemaining]
  cases hform : decodeForm op 0#16 with
  | none => simpa [hform] using h
  | some f =>
    rcases hop : decodeAluOp (fieldOp0 op) with _ | (_ | alu)
    · simpa [hform, hop] using h
    · cases hstore : f.asStore with
      | none => simpa [hform, hop, hstore, Form.asStore_withSecond] using h
      | some g => simp [hform, hop, hstore, Form.asStore_withSecond] at h
    · simp [hform, hop] at h

/-- The opcode word alone says whether it is illegal, and why (R103). -/
theorem decodeOp_error {op imm : Word} {e : Reject} (h : decodeOp op imm = .error e) : decodeOp op 0#16 = .error e := by
  unfold decodeOp at h ⊢
  split at h
  · next hF => simpa only [if_pos hF] using decodeFxxx_error h
  · next hF =>
    rw [if_neg hF]
    split at h
    · cases h
    · next hjump =>
      rw [if_neg hjump]
      split at h
      · next hE => simpa only [if_pos hE] using h
      · next hE => simpa only [if_neg hE] using decodeRemaining_error h

end Sys2Proof

namespace Sys2Proof.Machine

theorem error_of_map_error {α β : Type} {f : α → β} {x : Except Reject α} {e : Reject} (h : x.map f = .error e) :
    x = .error e := by
  cases x with
  | error d => cases h; rfl
  | ok a => cases h

/-- The words that a fetch finds are no instruction only where the opcode word is illegal (R103, R104). -/
theorem State.fetch_error {s : State} {e : Reject} (h : decode s.fetch.words = .error e) :
    decodeOp s.fetch.op 0#16 = .error e := by
  cases htakes : takesSecondWord (s.reply 0 (busAddr s.lpc)) with
  | false =>
    rw [s.fetch_oneWord htakes] at h ⊢
    rw [decode_oneWord [] htakes] at h
    exact error_of_map_error h
  | true =>
    rw [s.fetch_twoWords htakes] at h ⊢
    rw [decode_twoWords _ [] htakes] at h
    exact decodeOp_error (error_of_map_error h)

/-! ## The parts of a step -/

theorem State.fetch_plainRun (s : State) : PlainRun { s with bus := [] } s.fetch.st := by
  have hread : PlainRun { s with bus := [] } ((({ s with bus := [] } : State).memRead (busAddr s.lpc)).2.advPc 1) :=
    .advPc (.read .refl (lowAddr_busAddr _)) 1
  rw [State.fetch]
  split
  · exact hread.read (lowAddr_busAddr _)
  · exact hread

/-- A step of a block that is not faulted: the decoded instruction and the interrupt check, or the fault (R10, R310). -/
theorem step_cases {s t : State} (h : step s = .next t) :
    (∃ i u, exec i s.fetch.st = .next u ∧ t = u.checkIrqs) ∨
      ∃ e, decodeOp s.fetch.op 0#16 = .error e ∧ t = s.fetch.st.raiseUnimplemented s.fetch.op s.lpc := by
  cases hs : s.faulted with
  | some d => rw [step_latched hs] at h; cases h
  | none =>
    rw [step_running hs, State.runStep] at h
    cases hd : decode s.fetch.words with
    | error e =>
      rw [hd] at h
      cases h
      exact .inr ⟨e, State.fetch_error hd, rfl⟩
    | ok p =>
      obtain ⟨u, hu⟩ := exec_next p.1 s.fetch.st
      rw [hd] at h
      simp only [hu] at h
      cases h
      exact .inl ⟨p.1, u, hu, rfl⟩

/-- The pushes and the read of an interrupt entry (R327, R328). -/
theorem State.enterInterrupt_plainRun (s : State) (handlerSb : BitVec 4) {vector : Addr} (low : LowAddr vector) :
    PlainRun { s with savedSb0 := s.sb, sb := handlerSb } (s.enterInterrupt handlerSb vector) := by
  obtain ⟨u, hu⟩ : ∃ u : State, u = { s with savedSb0 := s.sb, sb := handlerSb } := ⟨_, rfl⟩
  have hpushed : PlainRun u ((u.push u.pc .sp).push u.sr .sp) := .push (.push .refl _ .sp) _ .sp
  rw [← hu, State.enterInterrupt, ← hu]
  exact ((hpushed.read low).setReg .pc (State.memRead _ vector).1).setReg .sr 0

/-- The pops of the return from interrupt (R292). -/
theorem State.returnPops_plainRun (s : State) : PlainRun s ((s.popTo .sr .sp).popTo .pc .sp) :=
  .popTo (.popTo .refl .sr .sp) .pc .sp

/-! ## The invariant -/

/-- The invariant from its parts, where the fault latch is kept. -/
theorem Inv.of_parts {s t : State} (hs : Inv s) (storage : LowStorage t) (exclusive : ¬(t.irq = true ∧ t.fiq = true))
    (curirqIdle : t.irq = false → t.curirq = 0#3) (faulted : t.faulted = s.faulted) : Inv t :=
  ⟨storage.memWf, storage.memLow, exclusive, curirqIdle, storage.busLow, faulted ▸ hs.latchIllegal⟩

theorem Inv.plainRun {s t : State} (hs : Inv s) (h : PlainRun s t) : Inv t := by
  have hc := h.control
  refine hs.of_parts (h.storage hs.storage) ?_ ?_ hc.faulted
  · rw [hc.irq, hc.fiq]
    exact hs.exclusive
  · rw [hc.irq, hc.curirq]
    exact hs.curirqIdle

theorem Inv.fetch {s : State} (hs : Inv s) : Inv s.fetch.st := by
  have hfresh : LowStorage { s with bus := [] } := ⟨hs.memWf, hs.memLow, fun a ha => by cases ha⟩
  exact (hs.of_parts hfresh hs.exclusive hs.curirqIdle rfl).plainRun s.fetch_plainRun

theorem Inv.raiseUnimplemented {s : State} (hs : Inv s) {op : Word} {e : Reject} (h : decodeOp op 0#16 = .error e)
    (addr : ProgAddr) : Inv (s.raiseUnimplemented op addr) := by
  refine ⟨hs.memWf, hs.memLow, hs.exclusive, hs.curirqIdle, hs.busLow, fun d hd => ⟨e, ?_⟩⟩
  cases hd
  exact h

/-- RETI leaves nothing in service that was not so before, and `curirq` zero (R292, R332). -/
theorem Inv.returnInterrupt {s : State} (hs : Inv s) : Inv s.returnInterrupt := by
  have hpops := hs.plainRun s.returnPops_plainRun
  have hstorage := hpops.storage
  have hlatch := s.returnPops_plainRun.control.faulted
  rcases s.returnInterrupt_cases with ⟨-, e⟩ | ⟨-, -, e⟩ | ⟨-, -, e⟩ <;> rw [e]
  · exact hs.of_parts (hstorage.congr rfl rfl) (by simp) (fun _ => rfl) hlatch
  · exact hs.of_parts (hstorage.congr rfl rfl) (by simp) (fun _ => rfl) hlatch
  · exact hs.of_parts (hstorage.congr rfl rfl) hpops.exclusive (fun _ => rfl) hlatch

theorem Inv.enterInterrupt {s : State} (hs : Inv s) (handlerSb : BitVec 4) {vector : Addr} (low : LowAddr vector) :
    Inv (s.enterInterrupt handlerSb vector) := by
  have hswapped : Inv { s with savedSb0 := s.sb, sb := handlerSb } :=
    hs.of_parts (hs.storage.congr rfl rfl) hs.exclusive hs.curirqIdle rfl
  exact hswapped.plainRun (s.enterInterrupt_plainRun handlerSb low)

/-- An entry is taken only with nothing in service, so the two in-service bits stay exclusive (R327, R328). -/
theorem Inv.checkIrqs {s : State} (hs : Inv s) : Inv s.checkIrqs := by
  rcases s.checkIrqs_cases with e | ⟨-, -, -, hirq, e⟩ | ⟨line, -, -, -, -, hfiq, e⟩ <;> rw [e]
  · exact hs
  · have hservice : Inv { s with fiq := true } :=
      hs.of_parts (hs.storage.congr rfl rfl) (by simp [hirq]) hs.curirqIdle rfl
    exact hservice.enterInterrupt _ (by decide)
  · have hservice : Inv { s with irq := true } :=
      hs.of_parts (hs.storage.congr rfl rfl) (by simp [hfiq]) (by simp) rfl
    have hentered := hservice.enterInterrupt s.savedSb1 (lowAddr_irqVector line)
    obtain ⟨-, hirq, -, -⟩ := State.enterInterrupt_enters { s with irq := true } s.savedSb1 (irqVector line)
    exact hentered.of_parts (hentered.storage.congr rfl rfl) hentered.exclusive (by simp [hirq]) rfl

/-- Every instruction keeps the invariant. -/
theorem Inv.exec {i : Instr} {s t : State} (hs : Inv s) (h : exec i s = .next t) : Inv t := by
  cases exec_effect h with
  | plain run => exact hs.plainRun run
  | shifted sb _ run =>
    have hshifted : Inv { s with sb := sb } :=
      hs.of_parts (hs.storage.congr rfl rfl) hs.exclusive hs.curirqIdle rfl
    exact hshifted.plainRun run
  | enables irq fiq _ => exact hs.of_parts (hs.storage.congr rfl rfl) hs.exclusive hs.curirqIdle rfl
  | reti _ => exact hs.returnInterrupt

/-- Settles O16: the fetch, the instruction, the interrupt check and the fault each keep the invariant. -/
theorem stepKeepsInvariant : Obligations.StepKeepsInvariant := by
  unfold Obligations.StepKeepsInvariant
  intro s t hs h
  rcases step_cases h with ⟨i, u, hu, rfl⟩ | ⟨e, he, rfl⟩
  · exact (hs.fetch.exec hu).checkIrqs
  · exact hs.fetch.raiseUnimplemented he s.lpc

end Sys2Proof.Machine
end

section
/-! SUPPORT. What the control state outlives: which instructions write the enables, the in-service state, the pending
mask and SB (10_state.md R34 to R39); the fault latch, the program counter, the stack primitives and reset. -/

namespace Sys2Proof.Machine

/-! ## Who writes the control state -/

/-- A plain run after a change of SB leaves the rest of the control state. -/
theorem PlainRun.control_of_sb {s t : State} {sb : BitVec 4} (h : PlainRun { s with sb := sb } t) :
    SameControl s t := by
  have hsb : SameControl s { s with sb := sb } := ⟨rfl, rfl, rfl, rfl, rfl, rfl, rfl, rfl, rfl, rfl⟩
  exact hsb.trans h.control

/-- The control state is written by the enable instructions and RETI alone (R34, R35). -/
theorem exec_control {i : Instr} {s t : State} (h : exec i s = .next t) (henables : i ∉ enableInstrs)
    (hreti : i ≠ .reti) : SameControl s t := by
  cases exec_effect h with
  | plain run => exact run.control
  | shifted sb _ run => exact run.control_of_sb
  | enables irq fiq mem => exact absurd mem henables
  | reti eq => exact absurd eq hreti

/-- RETI leaves the enables and the pending mask (R292, R330). -/
theorem State.returnInterrupt_keeps (s : State) :
    s.returnInterrupt.enableIrq = s.enableIrq ∧ s.returnInterrupt.enableFiq = s.enableFiq ∧
      s.returnInterrupt.sirq = s.sirq := by
  have hc := s.returnPops_plainRun.control
  rcases s.returnInterrupt_cases with ⟨-, e⟩ | ⟨-, -, e⟩ | ⟨-, -, e⟩ <;> rw [e] <;>
    exact ⟨hc.enableIrq, hc.enableFiq, hc.sirq⟩

/-- The interrupt check leaves the enables and the pending mask, handler entered or not (R322, R327, R328). -/
theorem State.checkIrqs_keeps (s : State) :
    s.checkIrqs.enableIrq = s.enableIrq ∧ s.checkIrqs.enableFiq = s.enableFiq ∧ s.checkIrqs.sirq = s.sirq := by
  rcases s.checkIrqs_cases with e | ⟨-, -, -, -, e⟩ | ⟨line, -, -, -, -, -, e⟩ <;> rw [e]
  · exact ⟨rfl, rfl, rfl⟩
  · obtain ⟨h, -⟩ := State.enterInterrupt_enters { s with fiq := true } s.savedSb2 fiqVector
    exact ⟨h.enableIrq, h.enableFiq, h.sirq⟩
  · obtain ⟨h, -⟩ := State.enterInterrupt_enters { s with irq := true } s.savedSb1 (irqVector line)
    exact ⟨h.enableIrq, h.enableFiq, h.sirq⟩

theorem exec_enables {i : Instr} {s t : State} (h : exec i s = .next t) (henables : i ∉ enableInstrs) :
    t.enableIrq = s.enableIrq ∧ t.enableFiq = s.enableFiq := by
  by_cases hreti : i = .reti
  · subst hreti
    cases h
    obtain ⟨hirq, hfiq, -⟩ := s.returnInterrupt_keeps
    exact ⟨hirq, hfiq⟩
  · have hc := exec_control h henables hreti
    exact ⟨hc.enableIrq, hc.enableFiq⟩

theorem exec_sirq {i : Instr} {s t : State} (h : exec i s = .next t) : t.sirq = s.sirq := by
  cases exec_effect h with
  | plain run => exact run.control.sirq
  | shifted sb _ run => exact run.control_of_sb.sirq
  | enables irq fiq _ => rfl
  | reti _ =>
    obtain ⟨-, -, hsirq⟩ := s.returnInterrupt_keeps
    exact hsirq

/-- Settles O19: the effect of an instruction, of the interrupt check, of a line event and of reset on the enables. -/
theorem enablesWrittenOnlyByTheEight : Obligations.EnablesWrittenOnlyByTheEight := by
  unfold Obligations.EnablesWrittenOnlyByTheEight
  refine ⟨fun i s t hi h => exec_enables h hi, fun s => ?_, fun s line b => ?_, fun s => ⟨rfl, rfl⟩⟩
  · obtain ⟨hirq, hfiq, -⟩ := s.checkIrqs_keeps
    exact ⟨hirq, hfiq⟩
  · rw [s.setInput_frame line b]
    exact ⟨rfl, rfl⟩

/-- Settles O20: the fetch, the instruction, the interrupt check and the fault each leave the pending mask. -/
theorem stepKeepsPendingMask : Obligations.StepKeepsPendingMask := by
  unfold Obligations.StepKeepsPendingMask
  intro s t h
  have hfetch : s.fetch.st.sirq = s.sirq := s.fetch_plainRun.control.sirq
  rcases step_cases h with ⟨i, u, hu, rfl⟩ | ⟨e, -, rfl⟩
  · obtain ⟨-, -, hcheck⟩ := u.checkIrqs_keeps
    rw [hcheck, exec_sirq hu, hfetch]
  · exact hfetch

/-- Settles O21: the enable instructions write the enables alone, and the others but RETI no control state. -/
theorem inServiceStateWrittenOnlyByReturn : Obligations.InServiceStateWrittenOnlyByReturn := by
  unfold Obligations.InServiceStateWrittenOnlyByReturn
  intro i s t hreti h
  have of_run (hc : SameControl s t) : t.irq = s.irq ∧ t.fiq = s.fiq ∧ t.curirq = s.curirq ∧
      t.savedSb0 = s.savedSb0 ∧ t.savedSb1 = s.savedSb1 ∧ t.savedSb2 = s.savedSb2 :=
    ⟨hc.irq, hc.fiq, hc.curirq, hc.savedSb0, hc.savedSb1, hc.savedSb2⟩
  cases exec_effect h with
  | plain run => exact of_run run.control
  | shifted sb _ run => exact of_run run.control_of_sb
  | enables irq fiq _ => exact ⟨rfl, rfl, rfl, rfl, rfl, rfl⟩
  | reti eq => exact absurd eq hreti

/-- Settles O22: a plain run leaves SB, and the enable instructions do. -/
theorem shiftBufferWriters : Obligations.ShiftBufferWriters := by
  unfold Obligations.ShiftBufferWriters
  intro i s t hi h
  cases exec_effect h with
  | plain run => exact run.sb
  | shifted sb writes _ => rw [hi] at writes; cases writes
  | enables irq fiq _ => rfl
  | reti eq => subst eq; cases hi

/-! ## The fault latch -/

/-- A line event of a faulted block is ignored (R322). -/
theorem State.setInput_latched {s : State} {d : FaultRecord} (h : s.faulted = some d) (line : Nat) (b : Bool) :
    s.setInput line b = s := by simp [State.setInput, h]

/-- Settles O11: by induction on the transitions, each a line event that changes nothing or a step that is refused. -/
theorem latchedBlockIsStuckUntilReset : Obligations.LatchedBlockIsStuckUntilReset := by
  unfold Obligations.LatchedBlockIsStuckUntilReset
  intro s d hs
  refine ⟨step_latched hs, fun ts => ?_, rfl⟩
  induction ts with
  | nil => exact fun _ => .inl rfl
  | cons u us ih =>
    intro hnoReset
    cases u with
    | step replies =>
      have hstep : transition (.step replies) s = .fault (.halted d) := step_latched hs
      exact .inr (by rw [run, hstep])
    | setInput line b =>
      have hrun : run (.setInput line b :: us) s = run us (s.setInput line b) := rfl
      rw [hrun, State.setInput_latched hs]
      exact ih fun replies hmem => hnoReset replies (List.mem_cons_of_mem _ hmem)
    | reset replies => exact absurd List.mem_cons_self (hnoReset replies)

/-! ## The program counter -/

/-- Moving a 22-bit address, as a number (R25). -/
theorem toNat_add_ofInt (a : ProgAddr) (k : Int) : (a + BitVec.ofInt 22 k).toNat = ((a.toNat + k) % 2 ^ 22).toNat := by
  rw [BitVec.toNat_add, BitVec.toNat_ofInt]
  omega

/-- Settles O14, from the lemmas about `advPc` field by field. -/
theorem programCounterAdvances : Obligations.ProgramCounterAdvances := by
  unfold Obligations.ProgramCounterAdvances
  intro s k
  have hregs : SameRegsBut [.sr, .pc] s (s.advPc k) := fun r hr => by
    rw [List.mem_cons, List.mem_singleton, not_or] at hr
    exact s.advPc_reg k r hr.1 hr.2
  refine ⟨?_, s.advPc_srDs k, s.advPc_flags k, hregs, .of_eq (s.advPc_mem k),
    .of_eq (s.advPc_bus k) (s.advPc_replies k), s.advPc_sb k, s.advPc_control k⟩
  rw [s.advPc_lpc, toNat_add_ofInt]

/-! ## Push and pop through one register -/

@[simp] theorem State.pop_fst (s : State) (r : Reg) : (s.pop r).1 = s.reply 0 (segZero (s.reg r + 1)) := by
  rw [s.pop_eq]

@[simp] theorem State.pop_mem (s : State) (r : Reg) : (s.pop r).2.mem = s.mem := by simp [State.pop]

/-- A register after a pop: the stack register is one higher (R32). -/
@[simp] theorem State.pop_reg (s : State) (r q : Reg) :
    (s.pop r).2.reg q = if q = r then s.reg r + 1 else s.reg q := by simp [State.pop]

/-- Settles O48: the pop reads where the push wrote, the register going down and up by one modulo 2^16. -/
theorem pushThenPopIsTheIdentity : Obligations.PushThenPopIsTheIdentity := by
  unfold Obligations.PushThenPopIsTheIdentity
  intro s v r
  have hback : (s.push v r).reg r + 1 = s.reg r := by
    rw [State.push_reg, if_pos rfl, BitVec.sub_add_cancel]
  have hregs (q : Reg) : ((s.push v r).pop r).2.reg q = s.reg q := by
    rw [State.pop_reg, hback, State.push_reg]
    split
    · next hq => rw [hq]
    · rfl
  refine ⟨fun hplain => ?_, hregs r, fun q _ => hregs q, .of_setWord (v := v) ?_⟩
  · have hafter : PlainReads 1 (s.push v r) := hplain.congr (s.push_replies v r)
    rw [State.pop_fst, hback, hafter.reply Nat.zero_lt_one, State.push_mem, Memory.word_setWord_self]
  · rw [State.pop_mem, State.push_mem]

/-! ## The ALU with destination SR or PC, and reset -/

/-- The register form of an ALU operation (R228, R260). -/
theorem exec_ofAlu_reg (op : AluOp) (rd rs : Reg) (s : State) :
    ∃ t, exec (.ofAlu op rd (.reg rs)) s = .next t ∧ AluToRegister op rd (s.reg rd) (s.reg rs) s t :=
  ⟨_, exec_ofAlu op rd (.reg rs) s, applyAlu_toRegister op rd (evalForm rd (.reg rs) s) rfl⟩

/-- Settles O38: the effect of R260 on a register destination, read at SR and PC. -/
theorem aluDestinationStatusOrProgramCounter : Obligations.AluDestinationStatusOrProgramCounter := by
  unfold Obligations.AluDestinationStatusOrProgramCounter
  intro op rs s
  constructor
  · obtain ⟨t, ht, h⟩ := exec_ofAlu_reg op .sr rs s
    have hothers : SameRegsBut [.sr] s t := fun r hr => by
      have hne : r ≠ .sr := by simpa using hr
      simp [h.regs r, hne]
    refine ⟨t, ht, ?_, hothers, h.mem, h.accesses, h.sb, h.control⟩
    simpa using h.regs .sr
  · obtain ⟨t, ht, h⟩ := exec_ofAlu_reg op .pc rs s
    have hothers : SameRegsBut [.pc] s t := fun r hr => by
      have hne : r ≠ .pc := by simpa using hr
      simp [h.regs r, hne]
    refine ⟨t, ht, hothers .sr (by decide), ?_, hothers, h.mem, h.accesses, h.sb, h.control⟩
    simpa using h.regs .pc

/-- Settles O59: a reset is the read of its vector and the reset values over the memory as it was (R360). -/
theorem deviceReset : Obligations.DeviceReset := by
  unfold Obligations.DeviceReset
  intro s
  have hreset : s.deviceReset = .resetWith s.mem (s.replies.drop 1) (s.reply 0 resetVector) := rfl
  rw [hreset]
  refine ⟨.of_eq rfl, rfl, fun r hr => ?_, rfl, rfl, rfl, rfl, rfl, rfl, rfl, rfl, rfl, rfl, rfl⟩
  cases r with
  | pc => exact absurd rfl hr
  | _ => rfl

end Sys2Proof.Machine
end

section
/-! SUPPORT. Memory as the store of the instruction stream: what a fetch reads after a write (20_memory.md R73), and
which instructions leave memory as it was (R65, R75). -/

namespace Sys2Proof.Machine

/-! ## A fetch after a store (R73) -/

/-- The opcode word of a fetch is the answer to its first read (R10). -/
theorem State.fetch_op (s : State) : s.fetch.op = s.reply 0 (busAddr s.lpc) := by
  cases htakes : takesSecondWord (s.reply 0 (busAddr s.lpc)) with
  | false => rw [s.fetch_oneWord htakes]
  | true => rw [s.fetch_twoWords htakes]

/-- The words of a fetch whose opcode word announces a second word: its own and the one after it (R93). -/
theorem State.fetch_words_of_second {s : State} (h : takesSecondWord s.fetch.op = true) :
    s.fetch.words = [s.fetch.op, s.reply 1 (busAddr (s.lpc + 1))] := by
  rw [s.fetch_op] at h ⊢
  rw [s.fetch_twoWords h]

/-- Settles O15: both words of a fetch are plain answers, which are the word last written. -/
theorem storeIsSeenByTheNextFetch : Obligations.StoreIsSeenByTheNextFetch := by
  unfold Obligations.StoreIsSeenByTheNextFetch
  intro s u a v hmem
  have hword : u.mem.word a = v := by rw [hmem, State.memWrite_mem, Memory.word_setWord_self]
  refine ⟨fun hplain ha => ?_, fun hplain ha htakes => ?_⟩
  · rw [u.fetch_op, hplain.reply Nat.zero_lt_one, ha, hword]
  · rw [State.fetch_words_of_second htakes, hplain.reply Nat.one_lt_two, ha, hword]

/-! ## Instructions that store nothing (R65, R75) -/

/-- An ALU operation leaves memory where its destination is a register or it writes no result (R231, R260). -/
theorem applyAlu_mem (op : AluOp) (rd : Reg) (o : Operands) (h : o.dest = .reg ∨ aluWrites op = false) :
    (applyAlu op rd o).mem = o.st.mem := by
  have hflags (sr : Word) : (if rd = .pc then o.st else { o.st with sr := sr }).mem = o.st.mem := by
    split <;> rfl
  simp only [applyAlu]
  rcases h with h | h
  · rw [h]
    split
    · rw [State.setReg_mem, hflags]
    · exact hflags _
  · rw [h]
    exact hflags _

/-- An ALU instruction that stores nothing has a register destination or writes no result. -/
theorem storesMemory_ofAlu {op : AluOp} {rd : Reg} {f : Form} (h : storesMemory (Shape.alu op rd f).instr = false)
    (s : State) : (evalForm rd f s).dest = .reg ∨ aluWrites op = false := by
  rw [storesMemory, Shape.shape_instr] at h
  cases f with
  | toA16 rs addr => exact .inr h
  | _ => exact .inl rfl

/-- The bit operation that has a memory target and stores nothing is TSTB (R192). -/
theorem storesMemory_ofBit {fn : BitFn} {rd : Reg} {f : BitForm} {s : State} {a : Addr}
    (h : storesMemory (Shape.bit fn rd f).instr = false) (ha : bitFormAddr rd f s = some a) : fn = .tstb := by
  rw [storesMemory, Shape.shape_instr] at h
  cases f with
  | rRs rs | rImm off => cases ha
  | _ => simpa using h

/-- RETI only reads memory (R292). -/
theorem State.returnInterrupt_mem (s : State) : s.returnInterrupt.mem = s.mem := by
  have hpops : ((s.popTo .sr .sp).popTo .pc .sp).mem = s.mem := by simp
  rcases s.returnInterrupt_cases with ⟨-, e⟩ | ⟨-, -, e⟩ | ⟨-, -, e⟩ <;> rw [e] <;> exact hpops

theorem exec_ofShape_mem (σ : Shape) (s : State) (h : storesMemory σ.instr = false) :
    ∃ t, exec σ.instr s = .next t ∧ t.mem = s.mem := by
  cases σ with
  | mul signed rd rs =>
    obtain ⟨v, e⟩ := exec_ofMul signed rd rs s
    exact ⟨_, e, s.setMr_mem v⟩
  | fixed k =>
    obtain ⟨irq, fiq, e⟩ := exec_ofFixed k s
    exact ⟨_, e, rfl⟩
  | jump c back imm6 =>
    refine ⟨_, (exec_ofJump c back imm6 s).trans (jumpIf_eq _ _ _ _), ?_⟩
    split <;> rfl
  | bit fn rd f =>
    rw [Shape.instr, exec_ofBit]
    cases ha : bitFormAddr rd f s with
    | none => exact ⟨_, bitOnReg_eq fn rd _ s, State.setReg_mem _ rd _⟩
    | some a =>
      cases storesMemory_ofBit h ha
      exact ⟨_, bitOnMem_eq .tstb a _ s, rfl⟩
  | rshift fn rd rs =>
    rcases exec_ofShift fn rd rs s with ⟨v, e⟩ | ⟨v, e⟩
    · exact ⟨_, e, s.setReg_mem rd v⟩
    · exact ⟨_, e, s.setMr_mem v⟩
  | alu op rd f =>
    have happly := applyAlu_mem op rd (evalForm rd f s) (storesMemory_ofAlu h s)
    exact ⟨_, exec_ofAlu op rd f s, happly.trans (evalForm_mem rd f s)⟩
  | goto seg addr => exact ⟨_, rfl, rfl⟩
  | pop rd n rb => exact ⟨_, rfl, popRegs_mem _ rd rb s⟩
  | reti => exact ⟨_, rfl, s.returnInterrupt_mem⟩
  | call | push | store => rw [storesMemory, Shape.shape_instr] at h; cases h

/-- Not only each byte but the representation of memory stays. -/
theorem exec_mem {i : Instr} {s t : State} (hi : storesMemory i = false) (h : exec i s = .next t) : t.mem = s.mem := by
  obtain ⟨u, hu, hmem⟩ := exec_ofShape_mem i.shape s (by rwa [i.instr_shape])
  rw [i.instr_shape] at hu
  cases h.symm.trans hu
  exact hmem

/-- Settles O23: whatever its shape, such an instruction leaves the memory as a whole, so every byte of it. -/
theorem memoryWrittenOnlyByStoringInstructions : Obligations.MemoryWrittenOnlyByStoringInstructions := by
  unfold Obligations.MemoryWrittenOnlyByStoringInstructions
  intro i s t hi h
  exact .of_eq (exec_mem hi h)

end Sys2Proof.Machine
end

section
/-! SUPPORT. The words of the decoder against the encoder: every word that the decoder accepts is the opcode word of a
well-formed instruction, so that its encoding is the words it was read from (30_encoding.md R90 to R104). -/

namespace Sys2Proof

/-! ## A word by its fields (R91) -/

/-- A word is made of three fields, the second naming a register, and the low six bits. -/
theorem exists_opWord6 (op : Word) : ∃ (op0 : BitVec 4) (rd : Reg) (op1 : BitVec 3) (imm6 : BitVec 6),
    op = opWord6 op0 rd.num op1 imm6 :=
  ⟨fieldOp0 op, fieldRd op, fieldOp1 op, fieldImm6 op, by rw [fieldRd, Reg.num_ofNum, opWord6_fields]⟩

/-- A word is made of its five fields, two of which name registers. -/
theorem exists_opWord (op : Word) : ∃ (op0 : BitVec 4) (rd : Reg) (op1 opn : BitVec 3) (rs : Reg),
    op = opWord op0 rd.num op1 opn rs.num :=
  ⟨fieldOp0 op, fieldRd op, fieldOp1 op, fieldOpn op, fieldRs op,
    by rw [fieldRd, fieldRs, Reg.num_ofNum, Reg.num_ofNum, opWord_fields]⟩

@[simp] theorem and_ones_three (a : BitVec 3) : a &&& 7#3 = a := BitVec.and_allOnes

@[simp] theorem and_ones_four (a : BitVec 4) : a &&& 15#4 = a := BitVec.and_allOnes

/-- The words of CALL, by their fields (R130). -/
theorem callMask_iff (op : Word) :
    op &&& 0xFFC0#16 = 0xF040#16 ↔ fieldOp0 op = 0xF#4 ∧ fieldOpa op = 0#3 ∧ fieldOp1 op = 1#3 := by
  obtain ⟨op0, rd, op1, imm6, rfl⟩ := exists_opWord6 op
  rw [fieldOp0_opWord6, fieldOpa_opWord6, fieldOp1_opWord6]
  simp [masked_opWord6, fieldOp0, fieldOpa, fieldOp1, fieldImm6]

/-- The words of GOTO, by their fields (R130). -/
theorem gotoMask_iff (op : Word) :
    op &&& 0xFFC0#16 = 0xFE80#16 ↔ fieldOp0 op = 0xF#4 ∧ fieldOpa op = 7#3 ∧ fieldOp1 op = 2#3 := by
  obtain ⟨op0, rd, op1, imm6, rfl⟩ := exists_opWord6 op
  rw [fieldOp0_opWord6, fieldOpa_opWord6, fieldOp1_opWord6]
  simp [masked_opWord6, fieldOp0, fieldOpa, fieldOp1, fieldImm6]

/-- Where `opn` is 1, the low six bits hold only a register's number besides it (R130). -/
theorem exists_rs_of_opn_one (imm6 : BitVec 6) (h : imm6 &&& 56#6 = 8#6) : ∃ rs : Reg, imm6 = 1#3 ++ rs.num := by
  refine ⟨.ofNum (imm6.extractLsb' 0 3), ?_⟩
  rw [Reg.num_ofNum]
  revert imm6
  decide

/-- Every value of the field `bb` is a bit operation's (R190). -/
theorem BitFn.exists_num (bb : BitVec 2) : ∃ fn : BitFn, fn.num = bb :=
  match bb with
  | 0#2 => ⟨.tstb, rfl⟩
  | 1#2 => ⟨.setb, rfl⟩
  | 2#2 => ⟨.clrb, rfl⟩
  | 3#2 => ⟨.invb, rfl⟩

/-- Every value of the field `lll` is a shift's (R190). -/
theorem ShiftFn.exists_num (lll : BitVec 3) : ∃ fn : ShiftFn, fn.num = lll :=
  match lll with
  | 0#3 => ⟨.asr, rfl⟩
  | 1#3 => ⟨.asror, rfl⟩
  | 2#3 => ⟨.lsl, rfl⟩
  | 3#3 => ⟨.lslor, rfl⟩
  | 4#3 => ⟨.lsr, rfl⟩
  | 5#3 => ⟨.lsror, rfl⟩
  | 6#3 => ⟨.rol, rfl⟩
  | 7#3 => ⟨.ror, rfl⟩

/-- Every value of the field `mm` is an indirect mode's (R92). -/
theorem IndMode.exists_num (mm : BitVec 2) : ∃ mode : IndMode, mode.num = mm :=
  match mm with
  | 0#2 => ⟨.plain, rfl⟩
  | 1#2 => ⟨.postDec, rfl⟩
  | 2#2 => ⟨.postInc, rfl⟩
  | 3#2 => ⟨.preInc, rfl⟩

/-- The low six bits of a bit operation's word are the field `bb` and four bits that tell the bit number (R190). -/
theorem exists_bitFn_low (imm6 : BitVec 6) : ∃ (fn : BitFn) (low : BitVec 4), imm6 = fn.num ++ low := by
  have hsplit : imm6 = imm6.extractLsb' 4 2 ++ imm6.extractLsb' 0 4 := by
    revert imm6
    decide
  obtain ⟨fn, hfn⟩ := BitFn.exists_num (imm6.extractLsb' 4 2)
  exact ⟨fn, _, hfn ▸ hsplit⟩

/-- In the four low bits of a bit operation that takes its bit number from a register, the top bit is 0 (R191). -/
theorem exists_rs_of_bit_three_clear (fn : BitFn) (low : BitVec 4) (h : fn.num ++ low &&& 8#6 = 0#6) :
    ∃ rs : Reg, low = 0#1 ++ rs.num := by
  refine ⟨.ofNum (low.extractLsb' 0 3), ?_⟩
  rw [Reg.num_ofNum]
  revert low
  cases fn <;> decide

theorem exists_bool_nn (opn : BitVec 3) : ∃ (b : Bool) (nn : BitVec 2), opn = BitVec.ofBool b ++ nn :=
  ⟨opn.getLsbD 2, opn.extractLsb' 0 2, by revert opn; decide⟩

/-- The slot `op1` of a shift's word holds the top bit of `lll`, the low bits the rest of it (R190). -/
theorem exists_shiftFn (slot : BitVec 3) (imm6 : BitVec 6) (hslot : slot &&& 6#3 = 4#3) (hlow : imm6 &&& 8#6 = 8#6) :
    ∃ (fn : ShiftFn) (rs : Reg), slot = 2#2 ++ fn.num.extractLsb' 2 1 ∧
      imm6 = fn.num.extractLsb' 0 2 ++ 1#1 ++ rs.num := by
  have hsplit : slot = 2#2 ++ (slot.extractLsb' 0 1 ++ imm6.extractLsb' 4 2).extractLsb' 2 1 ∧
      imm6 = (slot.extractLsb' 0 1 ++ imm6.extractLsb' 4 2).extractLsb' 0 2 ++ 1#1 ++ imm6.extractLsb' 0 3 := by
    revert slot imm6
    decide
  obtain ⟨fn, hfn⟩ := ShiftFn.exists_num (slot.extractLsb' 0 1 ++ imm6.extractLsb' 4 2)
  exact ⟨fn, .ofNum (imm6.extractLsb' 0 3), by rwa [hfn, Reg.num_ofNum]⟩

/-- The words outside the slot `op1 = 2` are the opcode words of the thirteen forms (R99). -/
theorem exists_form (op : Word) (h : fieldOp1 op ≠ 2#3) :
    ∃ f : Form, f.opcode (fieldOp0 op) (fieldRd op) = op := by
  obtain ⟨op0, rd, op1, opn, rs, rfl⟩ := exists_opWord op
  rw [fieldOp1_opWord] at h
  rw [fieldOp0_opWord, fieldRd_opWord]
  obtain ⟨b, nn, hopn⟩ := exists_bool_nn opn
  match op1 with
  | 0#3 => exact ⟨.bp6 (opn ++ rs.num), (opWord_eq_opWord6 ..).symm⟩
  | 1#3 => exact ⟨.imm6 (opn ++ rs.num), (opWord_eq_opWord6 ..).symm⟩
  | 2#3 => exact absurd rfl h
  | 3#3 =>
    obtain ⟨mode, rfl⟩ := IndMode.exists_num nn
    exact ⟨.ind b mode rs, by rw [hopn]; rfl⟩
  | 4#3 =>
    cases b with
    | true => exact ⟨.asr nn rs, by rw [hopn]; rfl⟩
    | false =>
      match nn with
      | 0#2 => exact ⟨.reg rs, by rw [hopn]; rfl⟩
      | 1#2 => exact ⟨.imm16 rs 0#16, by rw [hopn]; rfl⟩
      | 2#2 => exact ⟨.a16 rs 0#16, by rw [hopn]; rfl⟩
      | 3#2 => exact ⟨.toA16 rs 0#16, by rw [hopn]; rfl⟩
  | 5#3 =>
    cases b with
    | false => exact ⟨.lsl nn rs, by rw [hopn]; rfl⟩
    | true => exact ⟨.lsr nn rs, by rw [hopn]; rfl⟩
  | 6#3 =>
    cases b with
    | false => exact ⟨.rol nn rs, by rw [hopn]; rfl⟩
    | true => exact ⟨.ror nn rs, by rw [hopn]; rfl⟩
  | 7#3 => exact ⟨.a6 (opn ++ rs.num), (opWord_eq_opWord6 ..).symm⟩

/-! ## Every legal word is the opcode word of a well-formed instruction -/

/-- The fixed words of the Fxxx group are those of `FixedOp` (R101). -/
theorem exists_fixedOp {op : Word} {i : Instr} (h : decodeFixed op = .ok i) : ∃ k : FixedOp, k.word = op := by
  rw [decodeFixed] at h
  split_ifs at h with h1 h2 h3 h4 h5 h6 h7 h8 h9
  · exact ⟨.intOff, h1.symm⟩
  · exact ⟨.intIrq, h2.symm⟩
  · exact ⟨.intFiq, h3.symm⟩
  · exact ⟨.intFiqIrq, h4.symm⟩
  · exact ⟨.irqOff, h5.symm⟩
  · exact ⟨.irqOn, h6.symm⟩
  · exact ⟨.fiqOff, h7.symm⟩
  · exact ⟨.fiqOn, h8.symm⟩
  · exact ⟨.nop, h9.symm⟩

/-- Every legal word of the Fxxx group is a well-formed instruction's (R130). -/
theorem exists_shape_of_decodeFxxx {op imm : Word} {i : Instr} (h : decodeFxxx op imm = .ok i) :
    ∃ σ : Shape, σ.wf = true ∧ σ.opcode = op := by
  rw [decodeFxxx] at h
  split_ifs at h with hmulu hmuls hcall hgoto
  · obtain ⟨op0, rd, op1, imm6, rfl⟩ := exists_opWord6 op
    obtain ⟨rfl, rfl, hopn⟩ : op0 = 0xF#4 ∧ op1 = 0#3 ∧ imm6 &&& 56#6 = 8#6 := by
      simpa [masked_opWord6, fieldOp0, fieldOpa, fieldOp1, fieldImm6] using hmulu
    obtain ⟨rs, rfl⟩ := exists_rs_of_opn_one imm6 hopn
    exact ⟨.mul false rd rs, rfl, opWord_eq_opWord6 ..⟩
  · obtain ⟨op0, rd, op1, imm6, rfl⟩ := exists_opWord6 op
    obtain ⟨rfl, rfl, hopn⟩ : op0 = 0xF#4 ∧ op1 = 4#3 ∧ imm6 &&& 56#6 = 8#6 := by
      simpa [masked_opWord6, fieldOp0, fieldOpa, fieldOp1, fieldImm6] using hmuls
    obtain ⟨rs, rfl⟩ := exists_rs_of_opn_one imm6 hopn
    exact ⟨.mul true rd rs, rfl, opWord_eq_opWord6 ..⟩
  · obtain ⟨h0, hopa, h1⟩ := (callMask_iff op).mp hcall
    refine ⟨.call (fieldImm6 op) 0#16, rfl, ?_⟩
    show opWord6 0xF#4 0#3 1#3 (fieldImm6 op) = op
    rw [← h0, ← hopa, ← h1, opWord6_fields]
  · obtain ⟨h0, hopa, h1⟩ := (gotoMask_iff op).mp hgoto
    refine ⟨.goto (fieldImm6 op) 0#16, rfl, ?_⟩
    show opWord6 0xF#4 7#3 2#3 (fieldImm6 op) = op
    rw [← h0, ← hopa, ← h1, opWord6_fields]
  · obtain ⟨k, hk⟩ := exists_fixedOp h
    exact ⟨.fixed k, rfl, hk⟩

/-- Every word of the jump group is a jump's, its direction in bit 6 (R100). -/
theorem exists_shape_of_jump {op : Word} (h0 : fieldOp0 op ≠ 0xF#4) (hj : fieldOpa op = 7#3 ∧ fieldOp1 op < 2#3) :
    ∃ σ : Shape, σ.wf = true ∧ σ.opcode = op := by
  obtain ⟨hopa, hop1⟩ := hj
  have hcolumn : 0#2 ++ BitVec.ofBool ((fieldOp1 op).getLsbD 0) = fieldOp1 op := by
    generalize fieldOp1 op = op1 at hop1 ⊢
    revert op1
    decide
  refine ⟨.jump (decodeCond (fieldOp0 op)) ((fieldOp1 op).getLsbD 0) (fieldImm6 op), rfl, ?_⟩
  show opWord6 (decodeCond (fieldOp0 op)).num 7#3 (0#2 ++ BitVec.ofBool ((fieldOp1 op).getLsbD 0)) (fieldImm6 op) = op
  rw [num_decodeCond _ h0, hcolumn, ← hopa, opWord6_fields]

/-- An operation whose word has `opa = 7` and `op1 < 2` has no encoding; any other has (R96). -/
theorem not_inJumpColumn_pc {column : Bool} {rd : Reg} (h : ¬(rd.num = 7#3 ∧ column = true)) :
    (!(column && rd == .pc)) = true := by
  rw [Reg.num_eq_seven] at h
  cases column with
  | false => rfl
  | true => simpa using h

/-- The opcode words of the bit operations outside the jump group (R96, R191). -/
theorem exists_shape_of_bit (fn : BitFn) (rd : Reg) (f : BitForm) (hj : ¬(rd.num = 7#3 ∧ f.slot < 2#3)) :
    ∃ σ : Shape, σ.wf = true ∧ σ.opcode = opWord6 0xE#4 rd.num f.slot (fn.num ++ f.source) := by
  rw [BitForm.slot_lt] at hj
  exact ⟨.bit fn rd f, not_inJumpColumn_pc hj, encodeBit_eq fn rd f⟩

/-- Every legal word of the Exxx group is a well-formed instruction's (R190). -/
theorem exists_shape_of_decodeExxx {op : Word} {i : Instr} (h0 : fieldOp0 op = 0xE#4)
    (hj : ¬(fieldOpa op = 7#3 ∧ fieldOp1 op < 2#3)) (h : decodeExxx op = .ok i) :
    ∃ σ : Shape, σ.wf = true ∧ σ.opcode = op := by
  obtain ⟨op0, rd, op1, imm6, rfl⟩ := exists_opWord6 op
  obtain ⟨fn, low, rfl⟩ := exists_bitFn_low imm6
  rw [fieldOpa_opWord6, fieldOp1_opWord6] at hj
  rw [fieldOp0_opWord6] at h0
  subst h0
  rw [decodeExxx] at h
  split_ifs at h with hrRs hrImm hmRs hdmRs hmImm hdmImm hshift
  · obtain ⟨rfl, hlow⟩ : op1 = 0#3 ∧ fn.num ++ low &&& 8#6 = 0#6 := by
      simpa [masked_opWord6, fieldOp0, fieldOpa, fieldOp1, fieldImm6] using hrRs
    obtain ⟨rs, rfl⟩ := exists_rs_of_bit_three_clear fn low hlow
    exact exists_shape_of_bit fn rd (.rRs rs) hj
  · obtain rfl : op1 = 1#3 := by
      simpa [masked_opWord6, fieldOp0, fieldOpa, fieldOp1, fieldImm6] using hrImm
    exact exists_shape_of_bit fn rd (.rImm low) hj
  · obtain ⟨rfl, hlow⟩ : op1 = 4#3 ∧ fn.num ++ low &&& 8#6 = 0#6 := by
      simpa [masked_opWord6, fieldOp0, fieldOpa, fieldOp1, fieldImm6] using hmRs
    obtain ⟨rs, rfl⟩ := exists_rs_of_bit_three_clear fn low hlow
    exact exists_shape_of_bit fn rd (.mRs rs) hj
  · obtain ⟨rfl, hlow⟩ : op1 = 5#3 ∧ fn.num ++ low &&& 8#6 = 0#6 := by
      simpa [masked_opWord6, fieldOp0, fieldOpa, fieldOp1, fieldImm6] using hdmRs
    obtain ⟨rs, rfl⟩ := exists_rs_of_bit_three_clear fn low hlow
    exact exists_shape_of_bit fn rd (.dmRs rs) hj
  · obtain rfl : op1 = 6#3 := by
      simpa [masked_opWord6, fieldOp0, fieldOpa, fieldOp1, fieldImm6] using hmImm
    exact exists_shape_of_bit fn rd (.mImm low) hj
  · obtain rfl : op1 = 7#3 := by
      simpa [masked_opWord6, fieldOp0, fieldOpa, fieldOp1, fieldImm6] using hdmImm
    exact exists_shape_of_bit fn rd (.dmImm low) hj
  · obtain ⟨hslot, hlow⟩ : op1 &&& 6#3 = 4#3 ∧ fn.num ++ low &&& 8#6 = 8#6 := by
      simpa [masked_opWord6, fieldOp0, fieldOpa, fieldOp1, fieldImm6] using hshift
    obtain ⟨sh, rs, rfl, himm6⟩ := exists_shiftFn op1 _ hslot hlow
    exact ⟨.rshift sh rd rs, rfl, by rw [himm6, opcode_rshift]⟩

/-! ## Which words of the remaining group are legal -/

theorem decodeAluOp_some (n : BitVec 4) (op : AluOp) : decodeAluOp n = some (some op) ↔ op.num = n := by
  revert n
  cases op <;> decide

/-- The words with `op1 = 2` select no form (R220). -/
theorem decodeRemaining_stackSlot {op : Word} (imm : Word) (h : fieldOp1 op = 2#3) :
    decodeRemaining op imm = decodeStack op := by
  rw [decodeRemaining, decodeForm, h]
  rfl

/-- The legal words with `op1 = 2` (R290, R291, R292, R294). -/
theorem decodeStack_ok_iff (op : Word) :
    (∃ i, decodeStack op = .ok i) ↔
      op = 0x9A98#16 ∨ (fieldOp0 op = 0xD#4 ∧ pushLegal (fieldRd op) (fieldOpn op) = true) ∨
        (fieldOp0 op = 0x9#4 ∧ popLegal (fieldRd op) (fieldOpn op) = true) := by
  rw [decodeStack]
  split_ifs with hreti hpush hpop
  · exact ⟨fun _ => .inl hreti, fun _ => ⟨_, rfl⟩⟩
  · exact ⟨fun _ => .inr (.inl hpush), fun _ => ⟨_, rfl⟩⟩
  · exact ⟨fun _ => .inr (.inr hpop), fun _ => ⟨_, rfl⟩⟩
  · simp [hreti, hpush, hpop]

theorem Form.toForm_of_asStore {f : Form} {g : StoreForm} (h : f.asStore = some g) : g.toForm = f := by
  cases f <;> cases h <;> rfl

/-- The forms that name memory, by the fields of their words (R238). -/
theorem Form.asStore_isSome_iff (op0 : BitVec 4) (rd : Reg) (f : Form) :
    f.asStore.isSome = true ↔
      fieldOp1 (f.opcode op0 rd) = 0#3 ∨ fieldOp1 (f.opcode op0 rd) = 3#3 ∨ fieldOp1 (f.opcode op0 rd) = 7#3 ∨
        (fieldOp1 (f.opcode op0 rd) = 4#3 ∧
          (fieldOpn (f.opcode op0 rd) = 2#3 ∨ fieldOpn (f.opcode op0 rd) = 3#3)) := by
  cases f with
  | asr nn rs =>
    have hopn : 1#1 ++ nn ≠ 2#3 ∧ 1#1 ++ nn ≠ 3#3 := by
      revert nn
      decide
    simp [Form.asStore, Form.opcode, encodeForm, hopn]
  | _ => simp [Form.asStore, Form.opcode, encodeForm]

/-- The legal words of a form: those of a named operation, and of STORE where the form names memory (R238, R273). -/
theorem decodeRemaining_opcode_ok_iff (op0 : BitVec 4) (rd : Reg) (f : Form) (imm : Word) :
    (∃ i, decodeRemaining (f.opcode op0 rd) imm = .ok i) ↔
      decodeAluOp op0 ≠ none ∧ (op0 = 0xD#4 → f.asStore.isSome = true) := by
  simp only [decodeRemaining, decodeForm_opcode, Form.fieldOp0_opcode, Form.asStore_withSecond]
  rcases hop : decodeAluOp op0 with _ | (_ | alu)
  · simp
  · have hD : op0 = 0xD#4 := (decodeAluOp_store op0).mp hop
    cases f.asStore <;> simp [hD]
  · have hD : op0 ≠ 0xD#4 := fun h => by rw [(decodeAluOp_store op0).mpr h] at hop; cases hop
    simp [hD]

/-- Every legal word of the remaining group is a well-formed instruction's (R103). -/
theorem exists_shape_of_decodeRemaining {op imm : Word} {i : Instr} (hj : ¬(fieldOpa op = 7#3 ∧ fieldOp1 op < 2#3))
    (h : decodeRemaining op imm = .ok i) : ∃ σ : Shape, σ.wf = true ∧ σ.opcode = op := by
  by_cases hstack : fieldOp1 op = 2#3
  · rw [decodeRemaining_stackSlot imm hstack] at h
    rcases (decodeStack_ok_iff op).mp ⟨i, h⟩ with hreti | ⟨h0, hpush⟩ | ⟨h0, hpop⟩
    · exact ⟨.reti, rfl, hreti.symm⟩
    · refine ⟨.push (fieldRd op) (fieldOpn op) (fieldRs op), hpush, ?_⟩
      show opWord 0xD#4 (fieldRd op).num 2#3 (fieldOpn op) (fieldRs op).num = op
      rw [fieldRd, fieldRs, Reg.num_ofNum, Reg.num_ofNum, ← h0, ← hstack, opWord_fields]
    · refine ⟨.pop (fieldRd op) (fieldOpn op) (fieldRs op), hpop, ?_⟩
      show opWord 0x9#4 (fieldRd op).num 2#3 (fieldOpn op) (fieldRs op).num = op
      rw [fieldRd, fieldRs, Reg.num_ofNum, Reg.num_ofNum, ← h0, ← hstack, opWord_fields]
  · obtain ⟨f, hf⟩ := exists_form op hstack
    generalize fieldOp0 op = op0 at hf
    generalize fieldRd op = rd at hf
    subst hf
    rw [Form.fieldOpa_opcode, Form.fieldOp1_opcode_lt] at hj
    obtain ⟨hnamed, hstore⟩ := (decodeRemaining_opcode_ok_iff op0 rd f imm).mp ⟨i, h⟩
    rcases hop : decodeAluOp op0 with _ | (_ | alu)
    · exact absurd hop hnamed
    · have hD : op0 = 0xD#4 := (decodeAluOp_store op0).mp hop
      obtain ⟨g, hg⟩ := Option.isSome_iff_exists.mp (hstore hD)
      obtain rfl := Form.toForm_of_asStore hg
      rw [g.inJumpColumn_toForm] at hj
      exact ⟨.store rd g, not_inJumpColumn_pc hj, by rw [Shape.opcode_store, hD]⟩
    · exact ⟨.alu alu rd f, not_inJumpColumn_pc hj, by rw [← (decodeAluOp_some op0 alu).mp hop]; rfl⟩

/-! ## Every legal word -/

/-- Every legal word is the opcode word of a well-formed instruction (R97, R103). -/
theorem exists_shape_of_decodeOp {op imm : Word} {i : Instr} (h : decodeOp op imm = .ok i) :
    ∃ σ : Shape, σ.wf = true ∧ σ.opcode = op := by
  by_cases hF : fieldOp0 op = 0xF#4
  · exact exists_shape_of_decodeFxxx ((decodeOp_fxxx imm hF).symm.trans h)
  by_cases hj : fieldOpa op = 7#3 ∧ fieldOp1 op < 2#3
  · exact exists_shape_of_jump hF hj
  by_cases hE : fieldOp0 op = 0xE#4
  · exact exists_shape_of_decodeExxx hE hj ((decodeOp_exxx imm hE hj).symm.trans h)
  · exact exists_shape_of_decodeRemaining hj ((decodeOp_remaining imm hF hE hj).symm.trans h)

theorem Shape.wf_withSecond (σ : Shape) (w : Word) : (σ.withSecond w).wf = σ.wf := by
  cases σ with
  | alu op rd f => cases f <;> rfl
  | store rd f => cases f <;> rfl
  | _ => rfl

theorem Shape.opcode_withSecond (σ : Shape) (w : Word) : (σ.withSecond w).opcode = σ.opcode := by
  cases σ with
  | alu op rd f => cases f <;> rfl
  | store rd f => cases f <;> rfl
  | _ => rfl

/-- The words of a shape that has been given its second word (R93). -/
theorem Shape.encode_withSecond (σ : Shape) (w : Word) :
    (σ.withSecond w).encode = if σ.instr.takesImm16 = true then [σ.opcode, w] else [σ.opcode] := by
  simp only [Instr.takesImm16, Shape.shape_instr]
  cases σ with
  | alu op rd f => cases f <;> rfl
  | store rd f => cases f <;> rfl
  | _ => rfl

/-- A decoded instruction is the well-formed one whose words are the opcode word and, where it takes one, the second
word it was given (R93, R97). -/
theorem decodeOp_ok {op imm : Word} {i : Instr} (h : decodeOp op imm = .ok i) :
    i.wf = true ∧ i.shape.opcode = op ∧ encode i = if i.takesImm16 = true then [op, imm] else [op] := by
  obtain ⟨σ, hwf, rfl⟩ := exists_shape_of_decodeOp h
  cases (decodeOp_opcode σ imm hwf).symm.trans h
  rw [Instr.wf, encode, Shape.shape_instr, Shape.wf_withSecond, Shape.opcode_withSecond, Shape.encode_withSecond,
    Shape.takesImm16_withSecond]
  exact ⟨hwf, rfl, rfl⟩

theorem ok_of_map_ok {x : Except Reject Instr} {r rest : List Word} {i : Instr}
    (h : x.map (·, r) = .ok (i, rest)) : x = .ok i ∧ r = rest := by
  cases x with
  | error e => cases h
  | ok j => cases h; exact ⟨rfl, rfl⟩

/-- The decoder on a list of words: one word or two, as the opcode word says (R93). -/
theorem decode_cases {ws rest : List Word} {i : Instr} (h : decode ws = .ok (i, rest)) :
    (∃ op, takesSecondWord op = false ∧ ws = op :: rest ∧ decodeOp op 0#16 = .ok i) ∨
      ∃ op imm, takesSecondWord op = true ∧ ws = op :: imm :: rest ∧ decodeOp op imm = .ok i := by
  cases ws with
  | nil => cases h
  | cons op tail =>
    cases htakes : takesSecondWord op with
    | false =>
      rw [decode_oneWord tail htakes] at h
      obtain ⟨hop, rfl⟩ := ok_of_map_ok h
      exact .inl ⟨op, htakes, rfl, hop⟩
    | true =>
      cases tail with
      | nil => simp [decode, htakes] at h
      | cons imm tail =>
        rw [decode_twoWords imm tail htakes] at h
        obtain ⟨hop, rfl⟩ := ok_of_map_ok h
        exact .inr ⟨op, imm, htakes, rfl, hop⟩

/-- The opcode word an instruction was decoded from says whether its second word follows (R90). -/
theorem takesSecondWord_of_decodeOp {op imm : Word} {i : Instr} (h : decodeOp op imm = .ok i) :
    takesSecondWord op = i.takesImm16 := by
  obtain ⟨hwf, rfl, -⟩ := decodeOp_ok h
  exact takesSecondWord_opcode i hwf

/-! ## Which instructions take a second word -/

/-- The forms that take a second word, by the fields of their words (R90). -/
theorem Form.takesImm16_iff (op0 : BitVec 4) (rd : Reg) (f : Form) :
    f.takesImm16 = true ↔
      fieldOp1 (f.opcode op0 rd) = 4#3 ∧
        (fieldOpn (f.opcode op0 rd) = 1#3 ∨ fieldOpn (f.opcode op0 rd) = 2#3 ∨
          fieldOpn (f.opcode op0 rd) = 3#3) := by
  cases f with
  | asr nn rs =>
    have hopn : 1#1 ++ nn ≠ 1#3 ∧ 1#1 ++ nn ≠ 2#3 ∧ 1#1 ++ nn ≠ 3#3 := by
      revert nn
      decide
    simp [Form.takesImm16, Form.opcode, encodeForm, hopn]
  | _ => simp [Form.takesImm16, Form.opcode, encodeForm]

/-- The opcode words that a second word follows, by their fields: the ALU operations and STORE with `op1 = 4` and `opn`
1, 2 or 3, CALL and GOTO (R90). -/
def TwoWordFields (op : Word) : Prop :=
  (fieldOp0 op ≠ 0xE#4 ∧ fieldOp0 op ≠ 0xF#4 ∧ fieldOp1 op = 4#3 ∧
      (fieldOpn op = 1#3 ∨ fieldOpn op = 2#3 ∨ fieldOpn op = 3#3)) ∨
    op &&& 0xFFC0#16 = 0xF040#16 ∨ op &&& 0xFFC0#16 = 0xFE80#16

/-- CALL and GOTO are told by `op1` within the Fxxx group, the others by `op1` and `opn` (R90, R130). -/
theorem TwoWordFields.op1 {op : Word} (h : TwoWordFields op) :
    (fieldOp0 op = 0xF#4 ∧ (fieldOp1 op = 1#3 ∨ fieldOp1 op = 2#3)) ∨
      (fieldOp0 op ≠ 0xE#4 ∧ fieldOp0 op ≠ 0xF#4 ∧ fieldOp1 op = 4#3 ∧
        (fieldOpn op = 1#3 ∨ fieldOpn op = 2#3 ∨ fieldOpn op = 3#3)) := by
  rcases h with hform | hcall | hgoto
  · exact .inr hform
  · obtain ⟨h0, -, h1⟩ := (callMask_iff op).mp hcall
    exact .inl ⟨h0, .inl h1⟩
  · obtain ⟨h0, -, h1⟩ := (gotoMask_iff op).mp hgoto
    exact .inl ⟨h0, .inr h1⟩

/-- In the remaining group they are the words of the forms that take a second word (R90, R99). -/
theorem twoWordFields_opcode_iff {op0 : BitVec 4} (hE : op0 ≠ 0xE#4) (hF : op0 ≠ 0xF#4) (rd : Reg) (f : Form) :
    TwoWordFields (f.opcode op0 rd) ↔ f.takesImm16 = true := by
  have h0 := f.fieldOp0_opcode op0 rd
  rw [f.takesImm16_iff op0 rd]
  constructor
  · intro h
    rcases h.op1 with ⟨hfar, -⟩ | ⟨-, -, hfields⟩
    · exact absurd (h0.symm.trans hfar) hF
    · exact hfields
  · intro hfields
    exact .inl ⟨by rwa [h0], by rwa [h0], hfields⟩

/-- Outside the forms, a word whose `op1` is neither CALL's nor GOTO's in the Fxxx group, or is not 4 outside it, is
followed by no second word (R90). -/
theorem not_twoWordFields {op : Word} (hF : fieldOp0 op = 0xF#4 → fieldOp1 op ≠ 1#3 ∧ fieldOp1 op ≠ 2#3)
    (hother : fieldOp0 op ≠ 0xE#4 → fieldOp0 op ≠ 0xF#4 → fieldOp1 op ≠ 4#3) : ¬TwoWordFields op := by
  intro h
  rcases h.op1 with ⟨h0, h1 | h1⟩ | ⟨h0, h0', h1, -⟩
  · exact (hF h0).1 h1
  · exact (hF h0).2 h1
  · exact hother h0 h0' h1

/-- An instruction takes a second word where the fields of its opcode word say so (R90). -/
theorem Shape.takesImm16_iff (σ : Shape) : σ.instr.takesImm16 = true ↔ TwoWordFields σ.opcode := by
  simp only [Instr.takesImm16, Shape.shape_instr]
  cases σ with
  | mul signed rd rs =>
    refine iff_of_false Bool.false_ne_true (not_twoWordFields (fun _ => ?_) ?_)
    · cases signed <;> simp [Shape.opcode, Shape.encode]
    · simp [Shape.opcode, Shape.encode]
  | call seg addr =>
    refine iff_of_true rfl (.inr (.inl ((callMask_iff _).mpr ?_)))
    simp [Shape.opcode, Shape.encode]
  | goto seg addr =>
    refine iff_of_true rfl (.inr (.inr ((gotoMask_iff _).mpr ?_)))
    simp [Shape.opcode, Shape.encode]
  | fixed k =>
    exact iff_of_false Bool.false_ne_true (not_twoWordFields (by cases k <;> decide) (by cases k <;> decide))
  | jump c back imm6 =>
    refine iff_of_false Bool.false_ne_true (not_twoWordFields ?_ fun _ _ => ?_)
    · simp [Shape.opcode, Shape.encode, c.num_ne]
    · cases back <;> simp [Shape.opcode, Shape.encode]
  | bit fn rd f =>
    have hE : fieldOp0 (Shape.bit fn rd f).opcode = 0xE#4 := by simp [Shape.opcode, Shape.encode, encodeBit_eq]
    exact iff_of_false Bool.false_ne_true (not_twoWordFields (by simp [hE]) (by simp [hE]))
  | rshift fn rd rs =>
    have hE : fieldOp0 (Shape.rshift fn rd rs).opcode = 0xE#4 := by simp [opcode_rshift]
    exact iff_of_false Bool.false_ne_true (not_twoWordFields (by simp [hE]) (by simp [hE]))
  | push rd n rb | pop rd n rb =>
    refine iff_of_false Bool.false_ne_true (not_twoWordFields ?_ fun _ _ => ?_)
    all_goals simp [Shape.opcode, Shape.encode]
  | reti => exact iff_of_false Bool.false_ne_true (not_twoWordFields (by decide) (by decide))
  | alu op rd f =>
    obtain ⟨hE, hF, -⟩ := op.num_ne
    exact (twoWordFields_opcode_iff hE hF rd f).symm
  | store rd f =>
    have htakes : f.toForm.takesImm16 = f.takesImm16 := by cases f <;> rfl
    rw [Shape.opcode_store, twoWordFields_opcode_iff (by decide) (by decide), htakes]

/-! ## The statements -/

/-- Settles O1: the opcode word of each shape decodes to it, and its second word is the one that follows. -/
theorem decodeOfEncodeIsTheInstruction : Obligations.DecodeOfEncodeIsTheInstruction := by
  unfold Obligations.DecodeOfEncodeIsTheInstruction
  exact decode_encode_append

/-- Settles O2: the opcode word is that of a well-formed shape, which decodes to itself, so it is what was decoded. -/
theorem decodedWordsAreTheEncoding : Obligations.DecodedWordsAreTheEncoding := by
  unfold Obligations.DecodedWordsAreTheEncoding
  intro ws rest i h
  rcases decode_cases h with ⟨op, htakes, rfl, hop⟩ | ⟨op, imm, htakes, rfl, hop⟩
  all_goals
    obtain ⟨hwf, -, hwords⟩ := decodeOp_ok hop
    rw [← takesSecondWord_of_decodeOp hop, htakes] at hwords
    exact ⟨hwf, by rw [hwords]; rfl⟩

/-- Settles O3: each of the group's fifteen values of `op0` is a condition's, and the decoder rejects none of it. -/
theorem jumpGroupDecodes : Obligations.JumpGroupDecodes := by
  unfold Obligations.JumpGroupDecodes
  intro op imm h0 hopa hop1
  exact ⟨decodeCond (fieldOp0 op), num_decodeCond _ h0, decodeOp_jump imm h0 ⟨hopa, hop1⟩⟩

/-- Settles O6: with `op1 = 2` the stack instructions' bounds decide; any other word is that of a form, and legal where
its operation is named and, for STORE, its form names memory. -/
theorem remainingGroupLegality : Obligations.RemainingGroupLegality := by
  unfold Obligations.RemainingGroupLegality
  intro op imm hF hE hj
  rw [decodeOp_remaining imm hF hE hj]
  split_ifs with hstack
  · have hopa : (fieldOpa op).toNat < 2 ^ 3 := (fieldOpa op).isLt
    have hbound : (fieldOpn op).toNat + (fieldOpa op).toNat ≤ 7 ↔ (fieldOpn op).toNat ≤ 7 - (fieldOpa op).toNat := by
      omega
    rw [decodeRemaining_stackSlot imm hstack, decodeStack_ok_iff]
    simp only [pushLegal, popLegal, decide_eq_true_eq, fieldRd, Reg.num_ofNum, hbound]
  · obtain ⟨f, hf⟩ := exists_form op hstack
    have hlegal := decodeRemaining_opcode_ok_iff (fieldOp0 op) (fieldRd op) f imm
    rw [f.asStore_isSome_iff (fieldOp0 op) (fieldRd op), hf] at hlegal
    rw [hlegal, ne_eq, decodeAluOp_none]
    simp [hF, hE, and_assoc]

/-- Settles O7: the word is the opcode word of the instruction, whose shape decides both. -/
theorem twoWordInstructions : Obligations.TwoWordInstructions := by
  unfold Obligations.TwoWordInstructions
  intro op imm i h
  obtain ⟨-, rfl, -⟩ := decodeOp_ok h
  have hfields := i.shape.takesImm16_iff
  rw [i.instr_shape] at hfields
  exact ⟨takesSecondWord_of_decodeOp h, hfields⟩

end Sys2Proof
end

section
/-! SUPPORT. The decoder on the Fxxx group, pattern by pattern (40_fxxx_group.md R130, R144): the patterns exclude each
other by the bits that their masks share. -/

namespace Sys2Proof

/-- Two masked patterns that differ in a bit that both masks look at have no word in common. -/
theorem masked_ne {op mask v mask' v' : Word} (h : op &&& mask = v) (hdiff : v &&& mask' ≠ v' &&& mask) :
    op &&& mask' ≠ v' := by
  intro h'
  apply hdiff
  calc v &&& mask' = op &&& mask &&& mask' := by rw [h]
    _ = op &&& mask' &&& mask := by ac_rfl
    _ = v' &&& mask := by rw [h']

section Patterns

variable {op : Word} (imm : Word)

theorem decodeFxxx_mulUs (h : op &&& 0xF1F8#16 = 0xF008#16) :
    decodeFxxx op imm = .ok (.mulUs (fieldRd op) (fieldRs op)) := by
  rw [decodeFxxx, if_pos h]

theorem decodeFxxx_mulSs (h : op &&& 0xF1F8#16 = 0xF108#16) :
    decodeFxxx op imm = .ok (.mulSs (fieldRd op) (fieldRs op)) := by
  rw [decodeFxxx, if_neg (masked_ne h (by decide)), if_pos h]

theorem decodeFxxx_call (h : op &&& 0xFFC0#16 = 0xF040#16) : decodeFxxx op imm = .ok (.call (fieldImm6 op) imm) := by
  rw [decodeFxxx, if_neg (masked_ne h (by decide)), if_neg (masked_ne h (by decide)), if_pos h]

theorem decodeFxxx_goto (h : op &&& 0xFFC0#16 = 0xFE80#16) : decodeFxxx op imm = .ok (.goto (fieldImm6 op) imm) := by
  rw [decodeFxxx, if_neg (masked_ne h (by decide)), if_neg (masked_ne h (by decide)),
    if_neg (masked_ne h (by decide)), if_pos h]

/-- Each fixed word of the group is its instruction's, whatever the second word (R101, R130). -/
theorem decodeOp_of_fixedWord (k : FixedOp) (h : op = k.word) : decodeOp op imm = .ok (.ofFixed k) :=
  h ▸ decodeOp_fixed k imm

end Patterns

/-- Decoding the words of a well-formed instruction gives it back. -/
theorem decode_encode (i : Instr) (hwf : i.wf = true) : decode (encode i) = .ok (i, []) := by
  simpa using decode_encode_append i [] hwf

theorem decode_fixedWord (k : FixedOp) : decode [k.word] = .ok (.ofFixed k, []) := by
  have hwf : (Instr.ofFixed k).wf = true := by cases k <;> rfl
  have hwords : encode (.ofFixed k) = [k.word] := by cases k <;> rfl
  exact hwords ▸ decode_encode (.ofFixed k) hwf

/-- Settles O4: each pattern decodes past those before it, which it excludes; a word of none of them passes every
test. -/
theorem fxxxGroupDecodes : Obligations.FxxxGroupDecodes := by
  unfold Obligations.FxxxGroupDecodes
  intro op imm h0
  have hgroup := decodeOp_fxxx imm h0
  refine ⟨fun h => hgroup.trans (decodeFxxx_mulUs imm h), fun h => hgroup.trans (decodeFxxx_mulSs imm h),
    fun h => hgroup.trans (decodeFxxx_call imm h), fun h => hgroup.trans (decodeFxxx_goto imm h),
    decodeOp_of_fixedWord imm .intOff, decodeOp_of_fixedWord imm .intIrq, decodeOp_of_fixedWord imm .intFiq,
    decodeOp_of_fixedWord imm .intFiqIrq, decodeOp_of_fixedWord imm .irqOff, decodeOp_of_fixedWord imm .irqOn,
    decodeOp_of_fixedWord imm .fiqOff, decodeOp_of_fixedWord imm .fiqOn, decodeOp_of_fixedWord imm .nop,
    fun hnone => ?_⟩
  simp only [not_or] at hnone
  simp only [hgroup, decodeFxxx, decodeFixed, hnone, if_false]

end Sys2Proof
end

section
/-! SUPPORT. What the instructions of the Fxxx group do (40_fxxx_group.md section 2): the product in MR, the far
transfers as a write of the 22-bit program counter, CALL's two pushes and the two pops of `retf`, the interrupt
enables. -/

namespace Sys2Proof.Machine

/-! ## The multiplies (R131, R132) -/

/-- The word of a multiply: `op1` and `opn` side by side (R92). -/
theorem opWord_eq_append (op0 : BitVec 4) (opa op1 opn opb : BitVec 3) :
    opWord op0 opa op1 opn opb = op0 ++ opa ++ (op1 ++ opn) ++ opb :=
  congrArg (· ++ opb) (BitVec.append_assoc (x₁ := op0 ++ opa) (x₂ := op1) (x₃ := opn))

/-- The product of a 16-bit number, signed or unsigned, and a signed one fits in 32 signed bits. -/
theorem product_bounds {x y : Int} (hx : -2 ^ 15 ≤ x ∧ x < 2 ^ 16) (hy : -2 ^ 15 ≤ y ∧ y < 2 ^ 15) :
    -2 ^ 31 ≤ x * y ∧ x * y < 2 ^ 31 := by
  have habs : |x * y| ≤ (2 ^ 16 - 1) * 2 ^ 15 := by
    rw [abs_mul]
    exact mul_le_mul (abs_le.mpr (by omega)) (abs_le.mpr (by omega)) (abs_nonneg y) (by decide)
  obtain ⟨hlow, hhigh⟩ := abs_le.mp habs
  omega

theorem toInt_bounds (v : Word) : -2 ^ 15 ≤ v.toInt ∧ v.toInt < 2 ^ 15 := ⟨v.le_toInt, v.toInt_lt⟩

/-- MR holds an exact product: nothing of it is lost modulo 2^32. -/
theorem State.toInt_mr_setMr_product (s : State) {x y : Int} (hx : -2 ^ 15 ≤ x ∧ x < 2 ^ 16)
    (hy : -2 ^ 15 ≤ y ∧ y < 2 ^ 15) : (s.setMr (BitVec.ofInt 32 (x * y))).mr.toInt = x * y := by
  obtain ⟨hlow, hhigh⟩ := product_bounds hx hy
  rw [State.mr_setMr]
  exact BitVec.toInt_ofInt_eq_self (by decide) hlow hhigh

/-- Writing MR writes no other register. -/
theorem State.setMr_others (s : State) (v : BitVec 32) : SameRegsBut [.r3, .r4] s (s.setMr v) := fun r hr => by
  rw [List.mem_cons, List.mem_singleton, not_or] at hr
  exact s.setMr_reg v r hr.1 hr.2

theorem State.setMr_control (s : State) (v : BitVec 32) : SameControl s (s.setMr v) :=
  ⟨rfl, rfl, rfl, rfl, rfl, rfl, rfl, rfl, rfl, rfl⟩

/-- Settles O24: either product is below 2^31 in absolute value, so MR holds it exactly. -/
theorem multipliesGiveTheExactProduct : Obligations.MultipliesGiveTheExactProduct := by
  unfold Obligations.MultipliesGiveTheExactProduct
  intro rd rs s
  have hunsigned : -2 ^ 15 ≤ ((s.reg rd).toNat : Int) ∧ ((s.reg rd).toNat : Int) < 2 ^ 16 := by
    have := (s.reg rd).isLt
    omega
  have hsigned : -2 ^ 15 ≤ (s.reg rd).toInt ∧ (s.reg rd).toInt < 2 ^ 16 := by
    have := toInt_bounds (s.reg rd)
    omega
  have hrs := toInt_bounds (s.reg rs)
  exact ⟨congrArg ([·]) (opWord_eq_append ..), congrArg ([·]) (opWord_eq_append ..),
    ⟨_, rfl, s.toInt_mr_setMr_product hunsigned hrs, s.setMr_others _, .of_eq rfl, .of_eq rfl rfl, rfl,
      s.setMr_control _⟩,
    ⟨_, rfl, s.toInt_mr_setMr_product hsigned hrs, s.setMr_others _, .of_eq rfl, .of_eq rfl rfl, rfl,
      s.setMr_control _⟩⟩

/-! ## A write of the program counter (R24, R25) -/

@[simp] theorem offset_segOff (seg : BitVec 6) (off : Word) : (segOff seg off).extractLsb' 0 16 = off :=
  extract_append_right seg off

@[simp] theorem segment_segOff (seg : BitVec 6) (off : Word) : (segOff seg off).extractLsb' 16 6 = seg :=
  (extract_append_left seg off (Nat.le_refl 16)).trans (extract_self seg)

theorem SameFlags.of_eq {s t : State} (h : t.sr = s.sr) : SameFlags s t := by constructor <;> rw [h]

theorem State.setLpc_flags (s : State) (n : ProgAddr) : SameFlags s (s.setLpc n) := by constructor <;> simp

theorem State.setLpc_control (s : State) (n : ProgAddr) : SameControl s (s.setLpc n) :=
  ⟨rfl, rfl, rfl, rfl, rfl, rfl, rfl, rfl, rfl, rfl⟩

/-- A write of the program counter writes no register but SR and PC. -/
theorem State.setLpc_others (s : State) (n : ProgAddr) : SameRegsBut [.sr, .pc] s (s.setLpc n) := fun r hr => by
  cases r with
  | sr | pc => simp at hr
  | _ => rfl

/-- The offset goes to PC, the segment to CS. -/
theorem State.setLpc_segOff (s : State) (seg : BitVec 6) (off : Word) :
    s.setLpc (segOff seg off) = { s with pc := off, sr := withCs seg s.sr } := by
  rw [State.setLpc, offset_segOff, segment_segOff]

/-- GOTO is a write of the program counter (R134). -/
theorem exec_goto (seg : BitVec 6) (addr : Word) (s : State) :
    exec (.goto seg addr) s = .next (s.setLpc (segOff seg addr)) := by
  rw [State.setLpc_segOff]
  rfl

/-- Settles O26: GOTO writes the program counter, whose high bits are in SR, and nothing else. -/
theorem gotoJumpsFar : Obligations.GotoJumpsFar := by
  unfold Obligations.GotoJumpsFar
  intro seg addr s
  exact ⟨_, exec_goto seg addr s, s.setLpc_lpc _, srDs_withCs _ _, s.setLpc_flags _, s.setLpc_others _, .of_eq rfl,
    .of_eq rfl rfl, rfl, s.setLpc_control _⟩

/-! ## PC and SR pushed through SP (R290) -/

theorem State.sp_push (s : State) (v : Word) : (s.push v .sp).sp = s.sp - 1 := s.push_reg v .sp .sp

theorem State.sr_push (s : State) (v : Word) : (s.push v .sp).sr = s.sr := s.push_reg v .sp .sr

theorem State.push_sameMem (s : State) (v : Word) (r : Reg) : SameMemBut [segZero (s.reg r)] s (s.push v r) :=
  .of_setWord (s.push_mem v r)

/-- The run of two pushes from PC down, as the far call makes it (R133). -/
theorem pushRegs_pc_sr (s : State) : pushRegs 2 .pc .sp s = (s.push s.pc .sp).push s.sr .sp := by
  rw [← s.sr_push s.pc]
  rfl

theorem pushRegs_pc_sr_mem (s : State) :
    (pushRegs 2 .pc .sp s).mem = (s.mem.setWord (segZero s.sp) s.pc).setWord (segZero (s.sp - 1)) s.sr := by
  rw [pushRegs_pc_sr, State.push_mem, State.push_mem, State.reg_sp, State.reg_sp, State.sp_push]

/-- SR stands below PC on the stack. -/
theorem pushRegs_pc_sr_words (s : State) :
    (pushRegs 2 .pc .sp s).mem.word (segZero s.sp) = s.pc ∧
      (pushRegs 2 .pc .sp s).mem.word (segZero (s.sp - 1)) = s.sr := by
  have hne : s.sp ≠ s.sp - 1 := by bv_omega
  rw [pushRegs_pc_sr_mem]
  refine ⟨?_, Memory.word_setWord_self ..⟩
  rw [Memory.word_setWord, if_neg (by simpa using hne), Memory.word_setWord_self]

theorem pushRegs_pc_sr_sameMem (s : State) :
    SameMemBut [segZero s.sp, segZero (s.sp - 1)] s (pushRegs 2 .pc .sp s) := by
  rw [pushRegs_pc_sr, ← s.sp_push s.pc]
  exact (s.push_sameMem s.pc .sp).trans ((s.push s.pc .sp).push_sameMem s.sr .sp)

theorem pushRegs_pc_sr_performs (s : State) :
    Performs [.write (segZero s.sp) s.pc, .write (segZero (s.sp - 1)) s.sr] s (pushRegs 2 .pc .sp s) := by
  rw [pushRegs_pc_sr, ← s.sp_push s.pc]
  exact (s.push_performs s.pc .sp).trans ((s.push s.pc .sp).push_performs s.sr .sp)

/-! ## CALL (R133) -/

/-- CALL: the program counter past the second word, PC and SR pushed, the program counter to the target. -/
theorem exec_call (seg : BitVec 6) (addr : Word) (s : State) :
    exec (.call seg addr) s =
      .next ((pushRegs 2 .pc .sp (s.setLpc (s.lpc + 1))).setLpc (segOff seg addr)) := by
  rw [State.setLpc_segOff, pushRegs_pc_sr]
  rfl

/-- Settles O25: the return address is the program counter when PC and SR are pushed; the pushes write memory and SP,
the two writes of the program counter SR and PC. -/
theorem callPushesReturnAndJumps : Obligations.CallPushesReturnAndJumps := by
  unfold Obligations.CallPushesReturnAndJumps
  intro seg addr s
  let returning := s.setLpc (s.lpc + 1)
  let pushed := pushRegs 2 .pc .sp returning
  have hpush : SameRegsBut [.sp] returning pushed := pushRegs_others 2 .pc .sp returning
  have hsr : pushed.sr = returning.sr := hpush .sr (by decide)
  obtain ⟨hpcWord, hsrWord⟩ := pushRegs_pc_sr_words returning
  have hds : srDs (pushed.setLpc (segOff seg addr)).sr = srDs s.sr := by simp [hsr, returning]
  have hregs : SameRegsBut [.sp, .sr, .pc] s (pushed.setLpc (segOff seg addr)) :=
    (((s.setLpc_others _).trans hpush).trans (pushed.setLpc_others _)).mono (by decide)
  have haccesses := ((Performs.of_eq rfl rfl : Performs [] s returning).trans (pushRegs_pc_sr_performs returning)).trans
    (.of_eq rfl rfl : Performs [] pushed (pushed.setLpc (segOff seg addr)))
  exact ⟨_, exec_call seg addr s, offset_segOff .., by simp, hds,
    ((s.setLpc_flags _).trans (.of_eq hsr)).trans (pushed.setLpc_flags _), pushRegs_rb 2 .pc .sp returning, hpcWord,
    hsrWord, pushRegs_pc_sr_sameMem returning, hregs, haccesses, pushRegs_sb ..,
    ((s.setLpc_control _).trans (pushRegs_control ..)).trans (pushed.setLpc_control _)⟩

/-! ## `retf` (R291, R293) -/

/-- SR and PC popped through SP: the two words above SP, in this order. -/
theorem popRegs_sr_pc_reg (s : State) (q : Reg) :
    (popRegs 2 .bp .sp s).reg q =
      if q = .pc then s.reply 1 (segZero (s.sp + 2))
      else if q = .sr then s.reply 0 (segZero (s.sp + 1))
      else if q = .sp then s.sp + 2 else s.reg q := by
  have htwo : s.sp + 1 + 1 = s.sp + 2 := by bv_omega
  have hsp : (s.popTo .sr .sp).reg .sp = s.sp + 1 := s.popTo_reg .sr .sp .sp
  show ((s.popTo .sr .sp).popTo .pc .sp).reg q = _
  rw [State.popTo_reg, State.popTo_reply, hsp, htwo, State.popTo_reg]
  cases q <;> rfl

/-- The same over plain storage (R70): SR is the word above SP, PC the one above it. -/
theorem popRegs_sr_pc_plain {s : State} (h : PlainReads 2 s) :
    (popRegs 2 .bp .sp s).pc = s.mem.word (segZero (s.sp + 2)) ∧
      (popRegs 2 .bp .sp s).sr = s.mem.word (segZero (s.sp + 1)) ∧
      (popRegs 2 .bp .sp s).sp = s.sp + 2 ∧ SameRegsBut [.sp, .sr, .pc] s (popRegs 2 .bp .sp s) := by
  rw [← h.reply (k := 1) (by decide), ← h.reply (k := 0) (by decide)]
  refine ⟨popRegs_sr_pc_reg s .pc, popRegs_sr_pc_reg s .sr, popRegs_sr_pc_reg s .sp, fun r hr => ?_⟩
  simp only [List.mem_cons, List.not_mem_nil, or_false, not_or] at hr
  obtain ⟨hsp, hsr, hpc⟩ := hr
  rw [popRegs_sr_pc_reg, if_neg hpc, if_neg hsr, if_neg hsp]

/-- Settles O27: `retf` pops the two words that CALL pushed, and what it does not pop CALL has left. -/
theorem returnFromCallRestoresTheCaller : Obligations.ReturnFromCallRestoresTheCaller := by
  unfold Obligations.ReturnFromCallRestoresTheCaller
  intro seg addr s t hplain hcall
  obtain ⟨t', hcall', -, -, -, -, hsp, hpcWord, hsrWord, -, hregs, haccesses, hsb, hcontrol⟩ :=
    callPushesReturnAndJumps seg addr s
  obtain rfl : t' = t := by simpa [hcall'] using hcall
  have hplain' : PlainReads 2 t' := hplain.congr (by simpa [BusAccess.isRead] using haccesses.replies)
  obtain ⟨hpc, hsr, hsp', hrest⟩ := popRegs_sr_pc_plain hplain'
  have htop : t'.sp + 2 = s.sp := by rw [hsp, BitVec.sub_add_cancel]
  have hbelow : t'.sp + 1 = s.sp - 1 := by rw [hsp]; bv_omega
  rw [htop, hpcWord] at hpc
  rw [hbelow, hsrWord] at hsr
  rw [htop] at hsp'
  have hlpc : (popRegs 2 .bp .sp t').lpc = s.lpc + 1 := by rw [State.lpc, hsr, hpc, srCs_withCs, segOff_extract]
  have hds : srDs (popRegs 2 .bp .sp t').sr = srDs s.sr := by rw [hsr, srDs_withCs]
  have hflags : SameFlags s (popRegs 2 .bp .sp t') := by constructor <;> simp [hsr]
  have hothers : SameRegsBut [.sr, .pc] s (popRegs 2 .bp .sp t') := fun r hr => by
    by_cases hrsp : r = .sp
    · rw [hrsp]
      exact hsp'
    · have hr' : r ∉ [.sp, .sr, .pc] := fun hmem => (List.mem_cons.mp hmem).elim hrsp hr
      rw [hrest r hr', hregs r hr']
  exact ⟨decode_encode (.pop .bp 2 .sp) rfl, _, rfl, hlpc, hds, hflags, hothers,
    popRegs_mem .., (popRegs_sb ..).trans hsb, hcontrol.trans (popRegs_control ..)⟩

/-! ## The interrupt enables and NOP (R135 to R143) -/

/-- Settles O28: each word decodes to its instruction, whose meaning is the one write of the enables. -/
theorem interruptEnableInstructions : Obligations.InterruptEnableInstructions := by
  unfold Obligations.InterruptEnableInstructions
  intro s
  exact ⟨⟨decode_fixedWord .intOff, rfl⟩, ⟨decode_fixedWord .intIrq, rfl⟩, ⟨decode_fixedWord .intFiq, rfl⟩,
    ⟨decode_fixedWord .intFiqIrq, rfl⟩, ⟨decode_fixedWord .irqOff, rfl⟩, ⟨decode_fixedWord .irqOn, rfl⟩,
    ⟨decode_fixedWord .fiqOff, rfl⟩, ⟨decode_fixedWord .fiqOn, rfl⟩, ⟨decode_fixedWord .nop, rfl⟩⟩

end Sys2Proof.Machine
end

section
/-! SUPPORT. The jump group (41_jump_group.md): a jump as a write of the 22-bit program counter, and what the flags of a
compare (44_remaining_alu_ops.md R265) say of its two operands. -/

namespace Sys2Proof.Machine

/-! ## A jump as a write of the program counter (R160) -/

/-- Writing the program counter its own value changes nothing. -/
theorem State.setLpc_lpc_self (s : State) : s.setLpc s.lpc = s := by
  rw [State.lpc, State.setLpc_segOff, withCs_self]

/-- The displacement of a jump, modulo 2^22, leads to its target. -/
theorem advPc_displacement (back : Bool) (imm6 : BitVec 6) (s : State) :
    s.advPc (if back then -(imm6.toNat : Int) else (imm6.toNat : Int)) = s.setLpc (jumpTarget back imm6 s) := by
  have hforward : BitVec.ofInt 22 (imm6.toNat : Int) = imm6.setWidth 22 := by
    rw [BitVec.ofInt_natCast, BitVec.ofNat_toNat]
  rw [State.advPc, jumpTarget]
  cases back with
  | false => exact congrArg (fun d => s.setLpc (s.lpc + d)) hforward
  | true =>
    have hback : s.lpc + BitVec.ofInt 22 (-(imm6.toNat : Int)) = s.lpc - imm6.setWidth 22 := by
      rw [BitVec.ofInt_neg, hforward, BitVec.sub_eq_add_neg]
    exact congrArg s.setLpc hback

/-- A jump writes the program counter: its target, or what it was. -/
theorem exec_ofJump_setLpc (c : Cond) (back : Bool) (imm6 : BitVec 6) (s : State) :
    exec (.ofJump c back imm6) s =
      .next (s.setLpc (if condHolds c s.sr then jumpTarget back imm6 s else s.lpc)) := by
  rw [exec_ofJump, jumpIf_eq, advPc_displacement, apply_ite s.setLpc, s.setLpc_lpc_self]

/-- The frame of a jump: that of a write of the program counter. -/
theorem exec_ofJump_goes (c : Cond) (back : Bool) (imm6 : BitVec 6) (s : State) :
    ∃ t, exec (.ofJump c back imm6) s = .next t ∧
      t.lpc = (if condHolds c s.sr then jumpTarget back imm6 s else s.lpc) ∧ srDs t.sr = srDs s.sr ∧ SameFlags s t ∧
      SameRegsBut [.sr, .pc] s t ∧ SameMemBut [] s t ∧ Performs [] s t ∧ t.sb = s.sb ∧ SameControl s t :=
  ⟨_, exec_ofJump_setLpc c back imm6 s, s.setLpc_lpc _, srDs_withCs _ _, s.setLpc_flags _, s.setLpc_others _, .of_eq rfl,
    .of_eq rfl rfl, rfl, s.setLpc_control _⟩

/-- Settles O29: each of the fifteen is the common operation on its own condition. -/
theorem jumpsGoWhereTheirConditionSays : Obligations.JumpsGoWhereTheirConditionSays := by
  unfold Obligations.JumpsGoWhereTheirConditionSays
  intro back imm6 s
  have goes (c : Cond) := exec_ofJump_goes c back imm6 s
  exact ⟨goes .jb, goes .jae, goes .jge, goes .jl, goes .jne, goes .je, goes .jpl, goes .jmi, goes .jbe, goes .ja,
    goes .jle, goes .jg, goes .jvc, goes .jvs, goes .jmp⟩

/-! ## The 17-bit difference (R263, R265) -/

/-- The subtraction of the ALU, as a number: the difference over 2^16, so that bit 16 is set where nothing is
borrowed. -/
theorem toNat_wide_sub (a b : Word) : (wide a + wide (~~~b) + 1).toNat = 2 ^ 16 + a.toNat - b.toNat := by
  have ha := a.isLt
  have hb := b.isLt
  have hone : (1 : BitVec 17).toNat = 1 := rfl
  rw [BitVec.toNat_add, BitVec.toNat_add, toNat_wide, toNat_wide, BitVec.toNat_not, hone]
  omega

theorem setWidth_wide_sub (a b : Word) : (wide a + wide (~~~b) + 1).setWidth 16 = a - b := by
  apply BitVec.eq_of_toNat_eq
  have hb := b.isLt
  rw [BitVec.toNat_setWidth, toNat_wide_sub, BitVec.toNat_sub]
  omega

theorem getLsbD_wide_sub_carry (a b : Word) : (wide a + wide (~~~b) + 1).getLsbD 16 = true ↔ b.toNat ≤ a.toNat := by
  have ha := a.isLt
  rw [BitVec.getLsbD, Nat.testBit_eq_decide_div_mod_eq, decide_eq_true_iff, toNat_wide_sub]
  omega

theorem getLsbD_wide_sub_sign (a b : Word) : (wide a + wide (~~~b) + 1).getLsbD 15 = (a - b).msb := by
  rw [BitVec.msb_eq_getLsbD_last, ← setWidth_wide_sub, BitVec.getLsbD_setWidth]
  rfl

/-- The signed difference is exact where its sign is that of the order of the operands. -/
theorem toInt_sub_eq_iff (a b : Word) :
    (a - b).toInt = a.toInt - b.toInt ↔ ((a - b).toInt < 0 ↔ a.toInt < b.toInt) := by
  have ha := toInt_bounds a
  have hb := toInt_bounds b
  rw [BitVec.toInt_sub, Int.bmod]
  omega

/-! ## The flags of a compare (R29, R265) -/

/-- What the four flags of `sr` say after a compare of `a` with `b`. -/
structure ComparedFlags (a b sr : Word) : Prop where
  negative : srN sr = true ↔ (a - b).toInt < 0
  zero : srZ sr = true ↔ a = b
  less : srS sr = true ↔ a.toInt < b.toInt
  carry : srC sr = true ↔ b.toNat ≤ a.toNat

/-- The flag update of a subtraction makes them so. -/
theorem comparedFlags_updateNZSC (a b sr : Word) :
    ComparedFlags a b (updateNZSC (wide a + wide (~~~b) + 1) a (~~~b) sr) where
  negative := by rw [srN_updateNZSC, getLsbD_wide_sub_sign, BitVec.msb_eq_toInt, decide_eq_true_iff]
  zero := by rw [srZ_updateNZSC, setWidth_wide_sub, beq_iff_eq, BitVec.sub_eq_iff_eq_add, BitVec.zero_add]
  less := by rw [srS_updateNZSC, BitVec.not_not, decide_eq_true_iff]
  carry := by rw [srC_updateNZSC, getLsbD_wide_sub_carry]

/-- `cmp Rd, Rs` (R265) sets the flags unless `Rd` is PC. -/
theorem exec_cmpReg_flags (rd rs : Reg) (s : State) (hpc : rd ≠ .pc) :
    ∃ t, exec (.cmpReg rd rs) s = .next t ∧ ComparedFlags (s.reg rd) (s.reg rs) t.sr := by
  obtain ⟨t, ht, h⟩ := exec_ofAlu_reg .cmp rd rs s
  have hsr : t.sr = aluFlags .cmp (s.reg rd) (s.reg rs) (aluValue .cmp (s.reg rd) (s.reg rs) (srC s.sr)) s.sr := by
    simpa [aluWrites, hpc] using h.regs .sr
  exact ⟨t, ht, hsr ▸ comparedFlags_updateNZSC ..⟩

/-! ## The conditions after a compare (R161 to R174) -/

namespace ComparedFlags

variable {a b sr : Word} (h : ComparedFlags a b sr)

include h

theorem jae : condHolds .jae sr = true ↔ b.toNat ≤ a.toNat := h.carry

theorem jb : condHolds .jb sr = true ↔ a.toNat < b.toNat :=
  Bool.not_iff_not.trans (h.carry.not.trans Nat.not_le)

theorem jl : condHolds .jl sr = true ↔ a.toInt < b.toInt := h.less

theorem jge : condHolds .jge sr = true ↔ b.toInt ≤ a.toInt :=
  Bool.not_iff_not.trans (h.less.not.trans Int.not_lt)

theorem je : condHolds .je sr = true ↔ a = b := h.zero

theorem jne : condHolds .jne sr = true ↔ a ≠ b := Bool.not_iff_not.trans h.zero.not

theorem jmi : condHolds .jmi sr = true ↔ (a - b).toInt < 0 := h.negative

theorem jpl : condHolds .jpl sr = true ↔ 0 ≤ (a - b).toInt :=
  Bool.not_iff_not.trans (h.negative.not.trans Int.not_lt)

/-- JBE is JE or JB. -/
theorem jbe : condHolds .jbe sr = true ↔ a.toNat ≤ b.toNat := by
  refine (Bool.or_eq_true _ _).to_iff.trans ((or_congr h.je h.jb).trans ?_)
  rw [← BitVec.toNat_inj]
  omega

/-- JA is JNE and JAE. -/
theorem ja : condHolds .ja sr = true ↔ b.toNat < a.toNat := by
  refine (Bool.and_eq_true _ _).to_iff.trans ((and_congr h.jne h.jae).trans ?_)
  rw [Ne, ← BitVec.toNat_inj]
  omega

/-- JLE is JE or JL. -/
theorem jle : condHolds .jle sr = true ↔ a.toInt ≤ b.toInt := by
  refine (Bool.or_eq_true _ _).to_iff.trans ((or_congr h.je h.jl).trans ?_)
  rw [← BitVec.toInt_inj]
  omega

/-- JG is JNE and JGE. -/
theorem jg : condHolds .jg sr = true ↔ b.toInt < a.toInt := by
  refine (Bool.and_eq_true _ _).to_iff.trans ((and_congr h.jne h.jge).trans ?_)
  rw [Ne, ← BitVec.toInt_inj]
  omega

/-- N and S agree: the sign of the difference is that of the order. -/
theorem jvc : condHolds .jvc sr = true ↔ (a - b).toInt = a.toInt - b.toInt := by
  rw [toInt_sub_eq_iff, ← h.negative, ← h.less, ← Bool.eq_iff_iff]
  exact beq_iff_eq

theorem jvs : condHolds .jvs sr = true ↔ (a - b).toInt ≠ a.toInt - b.toInt := Bool.not_iff_not.trans h.jvc.not

end ComparedFlags

/-- Settles O30: the four flags of the compare, read by each condition. -/
theorem jumpConditionsAfterCompare : Obligations.JumpConditionsAfterCompare := by
  unfold Obligations.JumpConditionsAfterCompare
  intro rd rs s hpc
  obtain ⟨t, ht, h⟩ := exec_cmpReg_flags rd rs s hpc
  exact ⟨t, ht, h.jb, h.jae, h.jge, h.jl, h.jne, h.je, h.jpl, h.jmi, h.jbe, h.ja, h.jle, h.jg, h.jvs, h.jvc⟩

end Sys2Proof.Machine
end

section
/-! SUPPORT. The decoder on the Exxx group (42_exxx_group.md R190, R205): the two function fields of its words. -/

namespace Sys2Proof

/-- The bit operation decoded is the one whose number is the field `bb` (R190). -/
theorem num_decodeBitFn (op : Word) : (decodeBitFn op).num = op.extractLsb' 4 2 := by
  rw [decodeBitFn]
  generalize op.extractLsb' 4 2 = bb
  revert bb
  decide

/-- The shift decoded is the one whose number is the field `lll` (R190). -/
theorem num_decodeShiftFn (op : Word) : (decodeShiftFn op).num = op.extractLsb' 4 3 := by
  rw [decodeShiftFn]
  generalize op.extractLsb' 4 3 = lll
  revert lll
  decide

/-- Settles O5: the dispatch reaches the decoder of the group, whose tests are the listed patterns in their order. -/
theorem exxxGroupDecodes : Obligations.ExxxGroupDecodes := by
  unfold Obligations.ExxxGroupDecodes
  intro op imm h0 hj
  exact ⟨decodeBitFn op, decodeShiftFn op, num_decodeBitFn op, num_decodeShiftFn op, decodeOp_exxx imm h0 hj⟩

end Sys2Proof
end

section
/-! SUPPORT. What the instructions of the Exxx group do (42_exxx_group.md): the bit operations as a write of SR and then
of the register or the memory word, the register-count shifts by the numbers that their 32-bit `V` stands for. -/

namespace Sys2Proof.Machine

/-! ## The frames of a register write and of an access -/

theorem State.setReg_others (s : State) (r : Reg) (v : Word) : SameRegsBut [r] s (s.setReg r v) := fun q hq => by
  rw [State.reg_setReg, if_neg (List.mem_singleton.not.mp hq)]

theorem State.setReg_sameMem (s : State) (r : Reg) (v : Word) : SameMemBut [] s (s.setReg r v) :=
  .of_eq (s.setReg_mem r v)

theorem State.setReg_performs (s : State) (r : Reg) (v : Word) : Performs [] s (s.setReg r v) :=
  .of_eq (s.setReg_bus r v) (s.setReg_replies r v)

theorem State.afterRead_others (s : State) (a : Addr) : SameRegsBut [] s (s.afterRead a) :=
  fun r _ => s.afterRead_reg a r

theorem State.afterRead_control (s : State) (a : Addr) : SameControl s (s.afterRead a) := s.memRead_control a

theorem State.memWrite_others (s : State) (a : Addr) (v : Word) : SameRegsBut [] s (s.memWrite a v) :=
  fun r _ => s.memWrite_reg a v r

theorem State.memWrite_sameMem (s : State) (a : Addr) (v : Word) : SameMemBut [a] s (s.memWrite a v) :=
  .of_setWord (s.memWrite_mem a v)

/-! ## The bit operations (R191 to R195) -/

/-- The update of Z is a write of SR. -/
theorem bitFlag_eq_setReg (off : BitVec 4) (v : Word) (s : State) :
    bitFlag off v s = s.setReg .sr (withZ (!v.getLsbD off.toNat) s.sr) := rfl

/-- A bit operation on a register writes SR, then the register as it stands after that. -/
theorem exec_ofBit_register {rd : Reg} {f : BitForm} {s : State} (fn : BitFn) (h : bitFormAddr rd f s = none) :
    let z := withZ (!(s.reg rd).getLsbD (bitFormOff f s).toNat) s.sr
    exec (.ofBit fn rd f) s =
      .next ((s.setReg .sr z).setReg rd (bitResult fn (bitFormOff f s) (if rd = .sr then z else s.reg rd))) := by
  intro z
  rw [exec_ofBit, h]
  refine (bitOnReg_eq fn rd (bitFormOff f s) s).trans ?_
  rw [bitFlag_eq_setReg, State.reg_setReg]

/-- Settles O31: the two writes of the operation, SR and then the register. -/
theorem bitOperationsOnRegisters : Obligations.BitOperationsOnRegisters := by
  unfold Obligations.BitOperationsOnRegisters
  intro fn rd f s h off z old
  let v := bitResult fn (bitFormOff f s) old
  let flagged := s.setReg .sr z
  have hbits (k : Nat) : ((flagged.setReg rd v).reg rd).getLsbD k =
      if k = off then bitAfter fn (old.getLsbD k) else old.getLsbD k := by
    rw [State.reg_setReg, if_pos rfl]
    exact getLsbD_bitResult fn (bitFormOff f s) old k
  have hsr (hrd : rd ≠ .sr) : (flagged.setReg rd v).sr = z := by
    rw [State.setReg_sr, if_neg hrd.symm]
    rfl
  have hregs : SameRegsBut [rd, .sr] s (flagged.setReg rd v) :=
    ((s.setReg_others .sr z).trans (flagged.setReg_others rd v)).mono (List.Perm.swap rd .sr []).subset
  exact ⟨_, exec_ofBit_register fn h, hbits, hsr, hregs,
    (s.setReg_sameMem .sr z).trans (flagged.setReg_sameMem rd v),
    (s.setReg_performs .sr z).trans (flagged.setReg_performs rd v), flagged.setReg_sb rd v,
    (s.setReg_control .sr z).trans (flagged.setReg_control rd v)⟩

/-- Settles O32: the read and the update of Z, after which TSTB is done and the others write the word back. -/
theorem bitOperationsOnMemory : Obligations.BitOperationsOnMemory := by
  unfold Obligations.BitOperationsOnMemory
  intro fn rd f s a ha off old
  let v := bitResult fn (bitFormOff f s) old
  let z := withZ (!old.getLsbD off) s.sr
  let flagged := (s.afterRead a).setReg .sr z
  have hexec : exec (.ofBit fn rd f) s = .next (if fn = .tstb then flagged else flagged.memWrite a v) := by
    rw [exec_ofBit, ha]
    exact bitOnMem_eq fn a (bitFormOff f s) s
  have hbits := getLsbD_bitResult fn (bitFormOff f s) old
  have hregs : SameRegsBut [.sr] s flagged := (s.afterRead_others a).trans (State.setReg_others _ .sr z)
  have hread : Performs [.read a old] s flagged := (s.afterRead_performs a).trans (State.setReg_performs _ .sr z)
  have hcontrol : SameControl s flagged := (s.afterRead_control a).trans (State.setReg_control _ .sr z)
  by_cases hfn : fn = .tstb
  · simp only [hfn, if_true] at hexec ⊢
    exact ⟨flagged, v, hexec, hfn ▸ hbits, fun hne => absurd rfl hne, rfl, hregs, .of_eq rfl, hread, rfl, hcontrol⟩
  · simp only [hfn, if_false] at hexec ⊢
    exact ⟨flagged.memWrite a v, v, hexec, hbits, fun _ => Memory.word_setWord_self .., rfl,
      hregs.trans (flagged.memWrite_others a v), flagged.memWrite_sameMem a v,
      hread.trans (flagged.memWrite_performs a v), rfl, hcontrol.trans (flagged.memWrite_control a v)⟩

/-! ## The 32-bit shift `V` as a number (R196) -/

theorem regShiftCount_eq (rs : Reg) (s : State) : regShiftCount rs s = shiftBy rs s := BitVec.extractLsb'_toNat ..

theorem toInt_asrWide (d : Word) (n : Nat) : (asrWide d n).toInt = d.toInt * 2 ^ 16 / 2 ^ n := by
  rw [asrWide, BitVec.toInt_sshiftRight, BitVec.toInt_append_zero, Int.shiftRight_eq_div_pow, Int.mul_comm]
  norm_cast

theorem toNat_lsrWide (d : Word) (n : Nat) : (lsrWide d n).toNat = d.toNat * 2 ^ 16 / 2 ^ n := by
  rw [lsrWide, BitVec.toNat_ushiftRight, Nat.shiftRight_eq_div_pow, BitVec.toNat_append, BitVec.toNat_zero, Nat.or_zero,
    Nat.shiftLeft_eq]

theorem toNat_lslWide (d : Word) (n : Nat) : (lslWide d n).toNat = d.toNat * 2 ^ n % 2 ^ 32 := by
  rw [lslWide, BitVec.toNat_shiftLeft, Nat.shiftLeft_eq, BitVec.toNat_append, BitVec.toNat_zero, Nat.zero_shiftLeft,
    Nat.zero_or]

theorem toNat_lowHalf (v : BitVec 32) : (lowHalf v).toNat = v.toNat % 2 ^ 16 := BitVec.extractLsb'_toNat ..

theorem toNat_highHalf (v : BitVec 32) : (highHalf v).toNat = v.toNat / 2 ^ 16 := by
  have hv := v.isLt
  rw [highHalf, BitVec.extractLsb'_toNat, Nat.shiftRight_eq_div_pow]
  omega

theorem highHalf_append_lowHalf (v : BitVec 32) : highHalf v ++ lowHalf v = v :=
  (BitVec.extractLsb'_append_extractLsb'_eq_extractLsb' rfl).trans (extract_self v)

theorem toInt_highHalf (v : BitVec 32) : (highHalf v).toInt = v.toInt / 2 ^ 16 := by
  have hlow := (lowHalf v).isLt
  have hv : v.toInt = 2 ^ 16 * (highHalf v).toInt + (lowHalf v).toNat := by
    conv_lhs => rw [← highHalf_append_lowHalf v]
    exact BitVec.toInt_append
  omega

/-! ## The plain shifts (R197, R199, R201) -/

theorem toInt_highHalf_asrWide (d : Word) (n : Nat) : (highHalf (asrWide d n)).toInt = d.toInt / 2 ^ n := by
  calc (highHalf (asrWide d n)).toInt = d.toInt * 2 ^ 16 / 2 ^ n / 2 ^ 16 := by rw [toInt_highHalf, toInt_asrWide]
    _ = d.toInt * 2 ^ 16 / (2 ^ 16 * 2 ^ n) := by
      rw [Int.ediv_ediv_of_nonneg (by positivity), Int.mul_comm (2 ^ n)]
    _ = d.toInt * 2 ^ 16 / 2 ^ 16 / 2 ^ n := (Int.ediv_ediv_of_nonneg (by positivity)).symm
    _ = d.toInt / 2 ^ n := by rw [Int.mul_ediv_cancel _ (by positivity)]

theorem toNat_highHalf_lsrWide (d : Word) (n : Nat) : (highHalf (lsrWide d n)).toNat = d.toNat / 2 ^ n := by
  rw [toNat_highHalf, toNat_lsrWide, Nat.div_right_comm, Nat.mul_div_cancel _ (by positivity)]

theorem toNat_lowHalf_lslWide (d : Word) (n : Nat) : (lowHalf (lslWide d n)).toNat = d.toNat * 2 ^ n % 2 ^ 16 := by
  rw [toNat_lowHalf, toNat_lslWide, Nat.mod_mod_of_dvd _ (by decide)]

/-! ## The rotates (R203, R204) -/

theorem rolWord_eq_rotateLeft (d : Word) (n : Nat) : rolWord d n = d.rotateLeft n := BitVec.rotateLeft_def.symm

theorem rorWord_eq_rotateRight (d : Word) (n : Nat) : rorWord d n = d.rotateRight n := BitVec.rotateRight_def.symm

/-- Bit `k` goes `n` places up, around the end. -/
theorem getLsbD_rolWord (d : Word) (n k : Nat) (hk : k < 16) : (rolWord d n).getLsbD ((k + n) % 16) = d.getLsbD k := by
  rw [rolWord_eq_rotateLeft, BitVec.getLsbD_rotateLeft]
  by_cases hwrap : (k + n) % 16 < n % 16
  · have hsrc : 16 - n % 16 + (k + n) % 16 = k := by omega
    rw [hsrc, decide_eq_true hwrap, cond_true]
  · have hsrc : (k + n) % 16 - n % 16 = k := by omega
    have hlt : (k + n) % 16 < 16 := by omega
    rw [hsrc, decide_eq_false hwrap, cond_false, decide_eq_true hlt, Bool.true_and]

/-- Bit `k` comes from `n` places up, around the end. -/
theorem getLsbD_rorWord (d : Word) (n k : Nat) (hk : k < 16) : (rorWord d n).getLsbD k = d.getLsbD ((k + n) % 16) := by
  rw [rorWord_eq_rotateRight, BitVec.getLsbD_rotateRight]
  by_cases hwrap : k < 16 - n % 16
  · have hsrc : n % 16 + k = (k + n) % 16 := by omega
    rw [hsrc, decide_eq_true hwrap, cond_true]
  · have hsrc : k - (16 - n % 16) = (k + n) % 16 := by omega
    rw [hsrc, decide_eq_false hwrap, cond_false, decide_eq_true hk, Bool.true_and]

/-! ## The register-count shifts -/

theorem encode_ofShift (fn : ShiftFn) (rd rs : Reg) :
    encode (.ofShift fn rd rs) = [0xE#4 ++ rd.num ++ 1#1 ++ 0#1 ++ fn.num ++ 1#1 ++ rs.num] :=
  congrArg Shape.encode (Shape.shape_instr (.rshift fn rd rs))

/-- An instruction that is one register write: the value there, and the frame. -/
theorem exec_setReg_only {i : Instr} {s : State} {rd : Reg} {v : Word} {p : Word → Prop}
    (h : exec i s = .next (s.setReg rd v)) (hv : p v) :
    ∃ t, exec i s = .next t ∧ p (t.reg rd) ∧ SameRegsBut [rd] s t ∧ SameMemBut [] s t ∧ Performs [] s t ∧ t.sb = s.sb ∧
      SameControl s t :=
  ⟨_, h, by rwa [State.reg_setReg, if_pos rfl], s.setReg_others rd v, s.setReg_sameMem rd v,
    s.setReg_performs rd v, s.setReg_sb rd v, s.setReg_control rd v⟩

/-- Settles O33: each shift writes its result to `Rd`; the result as a number, or bit by bit. -/
theorem registerShifts : Obligations.RegisterShifts := by
  unfold Obligations.RegisterShifts
  intro rd rs s only n
  have hn : n = regShiftCount rs s := (regShiftCount_eq rs s).symm
  rw [hn]
  have wrote (fn : ShiftFn) {v : Word} {p : Word → Prop} (h : exec (.ofShift fn rd rs) s = .next (s.setReg rd v))
      (hv : p v) : only (.ofShift fn rd rs) fn.num p := ⟨encode_ofShift fn rd rs, exec_setReg_only h hv⟩
  -- With its body visible, `only` would be unified by unfolding it, which does not tell the predicate.
  clear_value only
  exact ⟨wrote .asr rfl (toInt_highHalf_asrWide ..), wrote .lsr rfl (toNat_highHalf_lsrWide ..),
    wrote .lsl rfl (toNat_lowHalf_lslWide ..), wrote .rol rfl (getLsbD_rolWord _ _),
    wrote .ror rfl (getLsbD_rorWord _ _)⟩

/-- The OR of MR with a value, half by half (R22, R196). -/
theorem State.or_mr_halves (s : State) (v : BitVec 32) :
    (s.setMr (s.mr ||| v)).r4 = s.r4 ||| v.extractLsb' 16 16 ∧
      (s.setMr (s.mr ||| v)).r3 = s.r3 ||| v.extractLsb' 0 16 := by
  rw [State.setMr_r4, State.setMr_r3, BitVec.extractLsb'_or, BitVec.extractLsb'_or, State.mr,
    extract_append_left _ _ (Nat.le_refl 16), extract_append_right]
  exact ⟨congrArg (· ||| _) (extract_self s.r4), rfl⟩

/-- An instruction that is the OR of a value into MR: its two halves, and the frame. -/
theorem exec_orIntoMr_only {i : Instr} {s : State} {v : BitVec 32} {p : BitVec 32 → Prop}
    (h : exec i s = orIntoMr v s) (hv : p v) :
    ∃ t v, exec i s = .next t ∧ p v ∧ t.r4 = s.r4 ||| v.extractLsb' 16 16 ∧ t.r3 = s.r3 ||| v.extractLsb' 0 16 ∧
      SameRegsBut [.r3, .r4] s t ∧ SameMemBut [] s t ∧ Performs [] s t ∧ t.sb = s.sb ∧ SameControl s t := by
  obtain ⟨hhigh, hlow⟩ := s.or_mr_halves v
  exact ⟨_, v, h, hv, hhigh, hlow, s.setMr_others _, .of_eq rfl, .of_eq rfl rfl, rfl, s.setMr_control _⟩

/-- Settles O34: each of the three ORs its `V` into MR; `V` as a number. -/
theorem orShiftsAccumulateIntoMr : Obligations.OrShiftsAccumulateIntoMr := by
  unfold Obligations.OrShiftsAccumulateIntoMr
  intro rd rs s into n
  have hn : n = regShiftCount rs s := (regShiftCount_eq rs s).symm
  rw [hn]
  have ored (fn : ShiftFn) {v : BitVec 32} {p : BitVec 32 → Prop} (h : exec (.ofShift fn rd rs) s = orIntoMr v s)
      (hv : p v) : into (.ofShift fn rd rs) fn.num p := ⟨encode_ofShift fn rd rs, exec_orIntoMr_only h hv⟩
  exact ⟨ored .asror rfl (toInt_asrWide ..), ored .lsror rfl (toNat_lsrWide ..), ored .lslor rfl (toNat_lslWide ..)⟩

end Sys2Proof.Machine
end

section
/-! SUPPORT. The ALU operations by operand form (43_remaining_operands.md): what each form delivers, and so the state
that the effect of R260 is on. -/

namespace Sys2Proof.Machine

/-! ## A form that delivers to a register -/

/-- An ALU operation whose form delivers two operands for a register: the effect of R260 on the form's state. -/
theorem exec_ofAlu_toRegister (op : AluOp) {rd : Reg} {f : Form} {s : State} {r0 r1 : Word} {b : State}
    (h : evalForm rd f s = { r0 := r0, r1 := r1, dest := .reg, st := b }) :
    ∃ t, exec (.ofAlu op rd f) s = .next t ∧ AluToRegister op rd r0 r1 b t := by
  refine ⟨_, exec_ofAlu op rd f s, ?_⟩
  rw [h]
  exact applyAlu_toRegister op rd { r0 := r0, r1 := r1, dest := .reg, st := b } rfl

/-- Settles O39: the four forms change nothing before the result but by their read. -/
theorem aluOneWordForms : Obligations.AluOneWordForms := by
  unfold Obligations.AluOneWordForms
  intro op rd s
  exact ⟨fun _ => exec_ofAlu_toRegister op rfl, fun _ => exec_ofAlu_toRegister op rfl,
    fun _ => exec_ofAlu_toRegister op rfl, fun _ => exec_ofAlu_toRegister op rfl⟩

/-- Settles O43: both forms read `x[Rs]` first and pass the second word. -/
theorem aluTwoWordForms : Obligations.AluTwoWordForms := by
  unfold Obligations.AluTwoWordForms
  intro op rd rs w s
  exact ⟨exec_ofAlu_toRegister op rfl, exec_ofAlu_toRegister op rfl⟩

/-! ## The indirect forms (R223 to R227) -/

/-- A read does not see the registers, so a register write may go before it. -/
theorem State.setReg_afterRead (s : State) (r : Reg) (v : Word) (a : Addr) :
    (s.afterRead a).setReg r v = (s.setReg r v).afterRead a := by cases r <;> rfl

theorem bumpUp_afterRead (ds : Bool) (rs : Reg) (s : State) (a : Addr) :
    bumpUp ds rs (s.afterRead a) = (bumpUp ds rs s).afterRead a := by
  simp only [bumpUp, State.afterRead_reg, State.setReg_afterRead, State.afterRead_sr]
  split <;> rfl

theorem bumpDown_afterRead (ds : Bool) (rs : Reg) (s : State) (a : Addr) :
    bumpDown ds rs (s.afterRead a) = (bumpDown ds rs s).afterRead a := by
  simp only [bumpDown, State.afterRead_reg, State.setReg_afterRead, State.afterRead_sr]
  split <;> rfl

theorem indAfter_afterRead (ds : Bool) (mode : IndMode) (rs : Reg) (s : State) (a : Addr) :
    indAfter ds mode rs (s.afterRead a) = (indAfter ds mode rs s).afterRead a := by
  cases mode with
  | plain | preInc => rfl
  | postDec => exact bumpDown_afterRead ds rs s a
  | postInc => exact bumpUp_afterRead ds rs s a

/-- `s` with the base changed as the mode says (R224 to R227), the access left out. -/
def indMoved (ds : Bool) (mode : IndMode) (rs : Reg) (s : State) : State :=
  indAfter ds mode rs (indBefore ds mode rs s)

theorem indMoved_mem (ds : Bool) (mode : IndMode) (rs : Reg) (s : State) : (indMoved ds mode rs s).mem = s.mem :=
  (indAfter_mem ..).trans (indBefore_mem ..)

theorem indMoved_performs (ds : Bool) (mode : IndMode) (rs : Reg) (s : State) : Performs [] s (indMoved ds mode rs s) :=
  (indBefore_performs ..).trans (indAfter_performs ..)

theorem indMoved_sb (ds : Bool) (mode : IndMode) (rs : Reg) (s : State) : (indMoved ds mode rs s).sb = s.sb :=
  (indAfter_sb ..).trans (indBefore_sb ..)

theorem indMoved_control (ds : Bool) (mode : IndMode) (rs : Reg) (s : State) : SameControl s (indMoved ds mode rs s) :=
  (indBefore_control ..).trans (indAfter_control ..)

/-- A change that makes no access and leaves memory leaves what the platform answers. -/
theorem Performs.reply_eq {s t : State} (h : Performs [] s t) (hm : t.mem = s.mem) (n : Nat) (a : Addr) :
    t.reply n a = s.reply n a := State.reply_congr h.replies hm n a

theorem indMoved_reply (ds : Bool) (mode : IndMode) (rs : Reg) (s : State) (n : Nat) (a : Addr) :
    (indMoved ds mode rs s).reply n a = s.reply n a := (indMoved_performs ds mode rs s).reply_eq (indMoved_mem ..) n a

/-- What an indirect form delivers: the read may be put after both changes of the base. -/
theorem evalForm_ind (rd : Reg) (ds : Bool) (mode : IndMode) (rs : Reg) (s : State) :
    let a := indAddr ds rs (indBefore ds mode rs s)
    evalForm rd (.ind ds mode rs) s =
      { r0 := s.reg rd, r1 := s.reply 0 a, dest := .reg, st := (indMoved ds mode rs s).afterRead a } := by
  intro a
  rw [← (indBefore_performs ds mode rs s).reply_eq (indBefore_mem ..), indMoved, ← indAfter_afterRead]
  rfl

/-- An ALU operation in an indirect form, by the address and the changed base. -/
theorem exec_ofAlu_ind (op : AluOp) (rd : Reg) {ds : Bool} {mode : IndMode} {rs : Reg} {s b : State} {a : Addr}
    (ha : indAddr ds rs (indBefore ds mode rs s) = a) (hb : indMoved ds mode rs s = b) :
    ∃ t, exec (.ofAlu op rd (.ind ds mode rs)) s = .next t ∧
      AluToRegister op rd (s.reg rd) (s.reply 0 a) (b.afterRead a) t := by
  subst ha hb
  exact exec_ofAlu_toRegister op (evalForm_ind rd ds mode rs s)

/-- Settles O40: without `DS:` the change of the base is one register write. -/
theorem aluIndirectForms : Obligations.AluIndirectForms := by
  unfold Obligations.AluIndirectForms
  intro op rd rs s x runs
  have runs_of {mode : IndMode} {off base : Word}
      (ha : indAddr false rs (indBefore false mode rs s) = segZero off)
      (hb : indMoved false mode rs s = s.setReg rs base) : runs mode off base := by
    simp only [runs, State.setReg_afterRead]
    exact exec_ofAlu_ind op rd ha hb
  have hup : indAddr false rs (bumpUp false rs s) = segZero (x + 1) := by
    rw [bumpUp_plain, indAddr, if_neg Bool.false_ne_true, State.reg_setReg, if_pos rfl]
  exact ⟨runs_of rfl (s.setReg_reg rs).symm, runs_of rfl (bumpDown_plain rs s), runs_of rfl (bumpUp_plain rs s),
    runs_of hup (bumpUp_plain rs s)⟩

/-- Settles O41: the change of the base is the move of the pair, the read changes no register. -/
theorem aluDataSegmentForms : Obligations.AluDataSegmentForms := by
  unfold Obligations.AluDataSegmentForms
  intro op rd rs s hrs p runs
  have runs_of {mode : IndMode} {a q : ProgAddr} {m : State}
      (ha : indAddr true rs (indBefore true mode rs s) = busAddr a) (hm : indMoved true mode rs s = m)
      (hpair : segOff (srDs m.sr) (m.reg rs) = q ∧ srCs m.sr = srCs s.sr ∧ SameFlags s m ∧
        SameRegsBut [rs, .sr] s m) : runs mode a q := by
    subst hm
    obtain ⟨hq, hcs, hflags, hregs⟩ := hpair
    obtain ⟨t, ht, h⟩ := exec_ofAlu_ind op rd ha rfl
    have hq' : segOff (srDs ((indMoved true mode rs s).afterRead (busAddr a)).sr)
        (((indMoved true mode rs s).afterRead (busAddr a)).reg rs) = q := by rwa [State.afterRead_reg]
    have hread := (indMoved_performs true mode rs s).trans (State.afterRead_performs _ (busAddr a))
    rw [indMoved_reply] at hread
    exact ⟨_, t, ht, hq', hcs, hflags.trans (.of_eq rfl), hregs.trans (State.afterRead_others _ _),
      .of_eq (indMoved_mem ..), hread, indMoved_sb .., (indMoved_control ..).trans (State.afterRead_control _ _), h⟩
  have hup := bumpUp_pair rs s hrs
  exact ⟨runs_of rfl rfl ⟨rfl, rfl, .refl s, .refl _ s⟩, runs_of rfl rfl (bumpDown_pair rs s hrs),
    runs_of rfl rfl hup, runs_of (congrArg busAddr hup.1) rfl hup⟩

/-- Settles O42: with SR as its own base the change is a write of SR alone. -/
theorem aluDataSegmentBaseStatus : Obligations.AluDataSegmentBaseStatus := by
  unfold Obligations.AluDataSegmentBaseStatus
  intro op rd s up down runs
  have runs_of {mode : IndMode} {off base : Word}
      (ha : indAddr true .sr (indBefore true mode .sr s) = busAddr (segOff (srDs off) off))
      (hb : indMoved true mode .sr s = { s with sr := base }) : runs mode off base := exec_ofAlu_ind op rd ha hb
  have hup : indAddr true .sr (bumpUp true .sr s) = busAddr (segOff (srDs up) up) := by
    rw [bumpUp_status]
    rfl
  exact ⟨runs_of rfl rfl, runs_of rfl (bumpDown_status s), runs_of rfl (bumpUp_status s),
    runs_of hup (bumpUp_status s)⟩

/-! ## The form TOA16 (R231) -/

/-- The flag update of R260 as a write of SR, of its own value where the register is PC. -/
theorem flagUpdate_eq_setReg (rd : Reg) (s : State) (sr : Word) :
    (if rd = .pc then s else { s with sr := sr }) = s.setReg .sr (if rd = .pc then s.sr else sr) := by
  split
  · exact (s.setReg_reg .sr).symm
  · rfl

/-- An ALU operation in the form TOA16: past the second word, SR, then the one write. -/
theorem exec_ofAlu_toA16 (op : AluOp) (rd rs : Reg) (w : Word) (s : State) :
    let v := aluValue op (s.reg rs) (s.reg rd) (srC s.sr)
    let sr := if rd = .pc then (s.advPc 1).sr else aluFlags op (s.reg rs) (s.reg rd) v (s.advPc 1).sr
    let flagged := (s.advPc 1).setReg .sr sr
    exec (.ofAlu op rd (.toA16 rs w)) s =
      .next (if aluWrites op then flagged.memWrite (segZero w) (v.setWidth 16) else flagged) := by
  intro v sr flagged
  rw [exec_ofAlu, aluInstr, applyAlu_toMemory op rd _ _ rfl, flagUpdate_eq_setReg]
  simp only [evalForm, State.advPc_srC]
  rfl

/-- The flags leave CS, and so the program counter (R24). -/
theorem State.lpc_setReg_sr {s : State} {v : Word} (h : srCs v = srCs s.sr) : (s.setReg .sr v).lpc = s.lpc :=
  congrArg (segOff · s.pc) h

/-- Settles O44: the program counter past the second word, SR, and the one write that CMP and TEST leave out. -/
theorem aluToMemoryForm : Obligations.AluToMemoryForm := by
  unfold Obligations.AluToMemoryForm
  intro op rd rs w s
  let v := aluValue op (s.reg rs) (s.reg rd) (srC s.sr)
  let sr := if rd = .pc then (s.advPc 1).sr else aluFlags op (s.reg rs) (s.reg rd) v (s.advPc 1).sr
  let flagged := (s.advPc 1).setReg .sr sr
  have hexec : exec (.ofAlu op rd (.toA16 rs w)) s =
      .next (if aluWrites op then flagged.memWrite (segZero w) (v.setWidth 16) else flagged) :=
    exec_ofAlu_toA16 op rd rs w s
  have hcs : srCs sr = srCs (s.advPc 1).sr := by
    simp only [sr]
    split
    · rfl
    · exact srCs_aluFlags ..
  have hlpc : flagged.lpc = s.lpc + 1 := (State.lpc_setReg_sr hcs).trans (s.advPc_lpc 1)
  have hregs : SameRegsBut [.sr, .pc] s flagged :=
    ((s.setLpc_others _).trans (State.setReg_others _ .sr sr)).mono (by decide)
  have hcontrol : SameControl s flagged := (s.advPc_control 1).trans (State.setReg_control _ .sr sr)
  cases hw : aluWrites op with
  | false =>
    rw [hw] at hexec
    exact ⟨flagged, hexec, fun h => absurd h Bool.false_ne_true, .of_eq rfl, .of_eq rfl rfl, rfl, hlpc, hregs, rfl,
      hcontrol⟩
  | true =>
    rw [hw] at hexec
    have hwrite : Performs [.write (segZero w) (v.setWidth 16)] s (flagged.memWrite (segZero w) (v.setWidth 16)) :=
      (Performs.of_eq rfl rfl : Performs [] s flagged).trans (flagged.memWrite_performs _ _)
    exact ⟨flagged.memWrite (segZero w) (v.setWidth 16), hexec, fun _ => Memory.word_setWord_self .., .of_setWord rfl,
      hwrite, rfl, hlpc, hregs.trans (flagged.memWrite_others _ _), rfl,
      hcontrol.trans (flagged.memWrite_control _ _)⟩

/-! ## The 20 bits of the shifted forms (R232 to R236) -/

/-- The 24-bit intermediate of R232 gives the arithmetic shift of the 20 bits. -/
theorem asrOperand_append {n : Nat} (hn : n ≤ 4) (x : Word) (sb : BitVec 4) :
    (asrOperand n x sb).1 ++ (asrOperand n x sb).2 = (x ++ sb).sshiftRight n := by
  refine (BitVec.extractLsb'_append_extractLsb'_eq_extractLsb' rfl).trans (BitVec.eq_of_getLsbD_eq fun i hi => ?_)
  have hi : i < 20 := hi
  have hmsb : ((x ++ sb).signExtend 24).msb = (x ++ sb).msb := by
    rw [BitVec.msb_eq_toInt, BitVec.msb_eq_toInt, BitVec.toInt_signExtend_of_le (by decide)]
  have hlt : n + i < 24 := by omega
  rw [BitVec.getLsbD_extractLsb', BitVec.getLsbD_sshiftRight, BitVec.getLsbD_sshiftRight, hmsb,
    BitVec.getLsbD_signExtend]
  have h20 : ¬20 ≤ i := by omega
  have h24 : ¬24 ≤ i := by omega
  by_cases hin : n + i < 20
  · simp [hi, hlt, hin, h20, h24]
  · simp [hi, hlt, hin, h20, h24]

theorem asrOperand_toInt {n : Nat} (hn : n ≤ 4) (x : Word) (sb : BitVec 4) :
    ((asrOperand n x sb).1 ++ (asrOperand n x sb).2).toInt = (x ++ sb).toInt / 2 ^ n := by
  rw [asrOperand_append hn, BitVec.toInt_sshiftRight, Int.shiftRight_eq_div_pow]
  norm_cast

theorem lsrOperand_append (n : Nat) (x : Word) (sb : BitVec 4) :
    (lsrOperand n x sb).1 ++ (lsrOperand n x sb).2 = (x ++ sb) >>> n :=
  (BitVec.extractLsb'_append_extractLsb'_eq_extractLsb' rfl).trans (extract_self _)

theorem lsrOperand_toNat (n : Nat) (x : Word) (sb : BitVec 4) :
    ((lsrOperand n x sb).1 ++ (lsrOperand n x sb).2).toNat = (x ++ sb).toNat / 2 ^ n := by
  rw [lsrOperand_append, BitVec.toNat_ushiftRight, Nat.shiftRight_eq_div_pow]

theorem lslOperand_append (n : Nat) (x : Word) (sb : BitVec 4) :
    (lslOperand n x sb).2 ++ (lslOperand n x sb).1 = (((sb ++ x).setWidth 24) <<< n).extractLsb' 0 20 :=
  BitVec.extractLsb'_append_extractLsb'_eq_extractLsb' rfl

theorem lslOperand_toNat (n : Nat) (x : Word) (sb : BitVec 4) :
    ((lslOperand n x sb).2 ++ (lslOperand n x sb).1).toNat = (sb ++ x).toNat * 2 ^ n % 2 ^ 20 := by
  have hlow : (sb ++ x).toNat % 2 ^ 24 = (sb ++ x).toNat := Nat.mod_eq_of_lt (by omega)
  rw [lslOperand_append, BitVec.extractLsb'_toNat, BitVec.toNat_shiftLeft, BitVec.toNat_setWidth, Nat.shiftRight_zero,
    Nat.shiftLeft_eq, hlow, Nat.mod_mod_of_dvd _ (by decide)]

/-- The SB below the 20 bits is what their rotation to the left brings in (R235). -/
theorem rolOperand_append {n : Nat} (hn : n ≤ 4) (x : Word) (sb : BitVec 4) :
    (rolOperand n x sb).2 ++ (rolOperand n x sb).1 = (sb ++ x).rotateLeft n := by
  refine (BitVec.extractLsb'_append_extractLsb'_eq_extractLsb' rfl).trans (BitVec.eq_of_getLsbD_eq fun i hi => ?_)
  have hi : i < 20 := hi
  have hmod : n % 20 = n := by omega
  rw [BitVec.getLsbD_rotateLeft, hmod, BitVec.getLsbD_extractLsb', BitVec.getLsbD_shiftLeft]
  by_cases hin : i < n
  · have hbelow : (sb ++ x ++ sb).getLsbD (4 + i - n) = sb.getLsbD (4 + i - n) := by
      rw [BitVec.getLsbD_append, if_pos (by omega)]
    have htop : (sb ++ x).getLsbD (20 - n + i) = sb.getLsbD (4 + i - n) := by
      rw [BitVec.getLsbD_append, if_neg (by omega)]
      congr 1
      omega
    simp [hi, hin, hbelow, htop, show 4 + i < 24 by omega, show n ≤ 4 + i by omega]
  · have habove : (sb ++ x ++ sb).getLsbD (4 + i - n) = (sb ++ x).getLsbD (i - n) := by
      rw [BitVec.getLsbD_append, if_neg (by omega)]
      congr 1
      omega
    simp [hi, hin, habove, show 4 + i < 24 by omega, show n ≤ 4 + i by omega]

/-- The SB above the 20 bits is what their rotation to the right brings in (R236). -/
theorem rorOperand_append {n : Nat} (hn : n ≤ 4) (x : Word) (sb : BitVec 4) :
    (rorOperand n x sb).1 ++ (rorOperand n x sb).2 = (x ++ sb).rotateRight n := by
  refine (BitVec.extractLsb'_append_extractLsb'_eq_extractLsb' rfl).trans (BitVec.eq_of_getLsbD_eq fun i hi => ?_)
  have hi : i < 20 := hi
  have hmod : n % 20 = n := by omega
  have hassoc : sb ++ x ++ sb = sb ++ (x ++ sb) := BitVec.append_assoc
  rw [BitVec.getLsbD_rotateRight, hmod, BitVec.getLsbD_extractLsb', BitVec.getLsbD_ushiftRight, hassoc]
  by_cases hin : i < 20 - n
  · have hbelow : (sb ++ (x ++ sb)).getLsbD (n + i) = (x ++ sb).getLsbD (n + i) := by
      rw [BitVec.getLsbD_append, if_pos (by omega)]
    simp [hi, hin, hbelow]
  · have habove : (sb ++ (x ++ sb)).getLsbD (n + i) = sb.getLsbD (n + i - 20) := by
      rw [BitVec.getLsbD_append, if_neg (by omega)]
    have hlow : (x ++ sb).getLsbD (i - (20 - n)) = sb.getLsbD (n + i - 20) := by
      rw [BitVec.getLsbD_append, if_pos (by omega)]
      congr 1
      omega
    simp [hi, hin, habove, hlow]

/-- Settles O45: SB is the only part of the state that a shifted form changes; the 20 bits form by form. -/
theorem aluShiftedForms : Obligations.AluShiftedForms := by
  unfold Obligations.AluShiftedForms
  intro op rd rs nn s n x high low runs
  have hn : n ≤ 4 := nn.isLt
  have runs_of {f : Form} {shifted : Word × BitVec 4} {p : Word → BitVec 4 → Prop}
      (h : evalForm rd f s = shiftedOperands (s.reg rd) shifted s) (hp : p shifted.1 shifted.2) : runs f p := by
    obtain ⟨t, ht, heffect⟩ := exec_ofAlu_toRegister op h
    exact ⟨_, _, t, hp, ht, heffect⟩
  -- With its body visible, `runs` would be unified by unfolding it, which does not tell the predicate.
  clear_value runs
  exact ⟨runs_of rfl (asrOperand_toInt hn x s.sb), runs_of rfl (lsrOperand_toNat n x s.sb),
    runs_of rfl (lslOperand_toNat n x s.sb), runs_of rfl (rolOperand_append hn x s.sb),
    runs_of rfl (rorOperand_append hn x s.sb)⟩

end Sys2Proof.Machine
end

section
/-! SUPPORT. The ALU between registers (44_remaining_alu_ops.md R261 to R271): its 17-bit sums and the flags from them
as numbers, and the effect on a destination that is neither SR nor PC. -/

namespace Sys2Proof.Machine

/-! ## The flags of a 17-bit value (R29) -/

theorem getLsbD_fifteen (v : BitVec 17) : v.getLsbD 15 = (v.setWidth 16).msb := by
  rw [BitVec.msb_eq_getLsbD_last, BitVec.getLsbD_setWidth]
  rfl

theorem srZ_updateNZSC_iff (v : BitVec 17) (a b sr : Word) :
    srZ (updateNZSC v a b sr) = true ↔ v.toNat % 2 ^ 16 = 0 := by
  rw [srZ_updateNZSC, beq_iff_eq, ← BitVec.toNat_inj, BitVec.toNat_setWidth]
  rfl

theorem srC_updateNZSC_iff (v : BitVec 17) (a b sr : Word) :
    srC (updateNZSC v a b sr) = true ↔ 2 ^ 16 ≤ v.toNat := by
  have hv := v.isLt
  rw [srC_updateNZSC, BitVec.getLsbD, Nat.testBit_eq_decide_div_mod_eq, decide_eq_true_iff]
  omega

/-- The complement, as a signed number, is one below the negative. -/
theorem toInt_complement (b : Word) : (~~~b).toInt = -b.toInt - 1 := by
  have hb := b.isLt
  rw [BitVec.toInt_eq_toNat_cond, BitVec.toInt_eq_toNat_cond, BitVec.toNat_not]
  omega

theorem srS_updateNZSC_iff (v : BitVec 17) (a b sr : Word) :
    srS (updateNZSC v a b sr) = true ↔ a.toInt + b.toInt < -1 := by
  rw [srS_updateNZSC, decide_eq_true_iff, toInt_complement]
  omega

/-- S of a subtraction, whose helper is given the complement of the subtrahend. -/
theorem srS_updateNZSC_not_iff (v : BitVec 17) (a b sr : Word) :
    srS (updateNZSC v a (~~~b) sr) = true ↔ a.toInt < b.toInt := by
  rw [srS_updateNZSC, BitVec.not_not, decide_eq_true_iff]

/-- What the helper makes of N, Z, C, DS and CS, whatever the words it compares for S. -/
theorem updateNZSC_fields (v : BitVec 17) (a b sr : Word) :
    let after := updateNZSC v a b sr
    srN after = v.getLsbD 15 ∧ (srZ after = true ↔ v.toNat % 2 ^ 16 = 0) ∧ (srC after = true ↔ 2 ^ 16 ≤ v.toNat) ∧
      srDs after = srDs sr ∧ srCs after = srCs sr :=
  ⟨srN_updateNZSC .., srZ_updateNZSC_iff .., srC_updateNZSC_iff .., srDs_updateNZSC .., srCs_updateNZSC ..⟩

/-- Settles O35: the five operations call one helper, the subtractions with the complement of the subtrahend. -/
theorem arithmeticFlagTruth : Obligations.ArithmeticFlagTruth := by
  unfold Obligations.ArithmeticFlagTruth
  intro op a b c sr v after
  refine ⟨?fields, ?sumSign, ?differenceSign, ?borrow⟩
  case fields =>
    rintro (rfl | rfl | rfl | rfl | rfl) <;> exact updateNZSC_fields v a _ sr
  case sumSign =>
    rintro (rfl | rfl) <;> exact srS_updateNZSC_iff v a b sr
  case differenceSign =>
    rintro (rfl | rfl | rfl) <;> exact srS_updateNZSC_not_iff v a b sr
  case borrow =>
    rintro (rfl | rfl) <;> exact (comparedFlags_updateNZSC a b sr).carry

/-! ## The sums with carry (R261 to R264) -/

theorem setWidth_wideBit (c : Bool) : (wideBit c).setWidth 16 = BitVec.ofNat 16 c.toNat := by cases c <;> rfl

theorem toNat_wide_add (a b : Word) : (wide a + wide b).toNat = a.toNat + b.toNat := by
  have ha := a.isLt
  have hb := b.isLt
  rw [BitVec.toNat_add, toNat_wide, toNat_wide]
  omega

theorem setWidth_wide_add (a b : Word) : (wide a + wide b).setWidth 16 = a + b := by
  rw [BitVec.setWidth_add _ _ (by decide), setWidth_wide, setWidth_wide]

theorem toNat_wide_adc (a b : Word) (c : Bool) :
    (wide a + wide b + wideBit c).toNat = a.toNat + b.toNat + c.toNat := by
  have ha := a.isLt
  have hb := b.isLt
  have hc := c.toNat_le
  rw [BitVec.toNat_add, toNat_wide_add, toNat_wideBit]
  omega

theorem setWidth_wide_adc (a b : Word) (c : Bool) :
    (wide a + wide b + wideBit c).setWidth 16 = a + b + BitVec.ofNat 16 c.toNat := by
  rw [BitVec.setWidth_add _ _ (by decide), setWidth_wide_add, setWidth_wideBit]

/-- The carry out of a subtraction with borrow: nothing is borrowed (R264). -/
theorem toNat_wide_sbc_carry (a b : Word) (c : Bool) :
    2 ^ 16 ≤ (wide a + wide (~~~b) + wideBit c).toNat ↔ b.toNat + (1 - c.toNat) ≤ a.toNat := by
  have hb := b.isLt
  have hc := c.toNat_le
  rw [toNat_wide_adc, BitVec.toNat_not]
  omega

/-- A complement added with the carry in is a subtraction of the word and of the borrow in (R264). -/
theorem setWidth_wide_sbc (a b : Word) (c : Bool) :
    (wide a + wide (~~~b) + wideBit c).setWidth 16 = a - b - BitVec.ofNat 16 (1 - c.toNat) := by
  rw [setWidth_wide_adc]
  cases c <;> bv_omega

/-! ## The operations between registers (R228, R260) -/

/-- The register form with a destination that is neither SR nor PC: the result there, SR by the flags, and the frame. -/
theorem exec_ofAlu_reg_frame (op : AluOp) {rd : Reg} (rs : Reg) (s : State) (hsr : rd ≠ .sr) (hpc : rd ≠ .pc) :
    let v := aluValue op (s.reg rd) (s.reg rs) (srC s.sr)
    ∃ t, exec (.ofAlu op rd (.reg rs)) s = .next t ∧
      t.reg rd = (if aluWrites op then v.setWidth 16 else s.reg rd) ∧
      t.sr = aluFlags op (s.reg rd) (s.reg rs) v s.sr ∧ SameRegsBut [rd, .sr] s t ∧ SameMemBut [] s t ∧
      Performs [] s t ∧ t.sb = s.sb ∧ SameControl s t := by
  intro v
  obtain ⟨t, ht, h⟩ := exec_ofAlu_reg op rd rs s
  have hrd : t.reg rd = if aluWrites op then v.setWidth 16 else s.reg rd := by
    simpa [hsr] using h.regs rd
  have hflags : t.sr = aluFlags op (s.reg rd) (s.reg rs) v s.sr := by
    simpa [hsr.symm, hpc] using h.regs .sr
  have hothers : SameRegsBut [rd, .sr] s t := fun r hr => by
    obtain ⟨hne_rd, hne_sr⟩ : r ≠ rd ∧ r ≠ .sr := by simpa using hr
    simp [h.regs r, hne_rd, hne_sr]
  exact ⟨t, ht, hrd, hflags, hothers, h.mem, h.accesses, h.sb, h.control⟩

/-- Settles O36: each operation by its 17-bit value, as a word and by its carry, and by the operands compared for S. -/
theorem registerArithmetic : Obligations.RegisterArithmetic := by
  unfold Obligations.RegisterArithmetic
  intro rd rs s hsr hpc a b cin gives sum sumC dif difC
  have hcin : cin = (srC s.sr).toNat := by
    simp only [cin]
    cases srC s.sr <;> rfl
  have gives_of (op : AluOp) {y value : Word} {carry less : Prop}
      (hflags : ∀ v, aluFlags op a b v s.sr = updateNZSC v a y s.sr)
      (hvalue : (aluValue op a b (srC s.sr)).setWidth 16 = value)
      (hcarry : 2 ^ 16 ≤ (aluValue op a b (srC s.sr)).toNat ↔ carry)
      (hless : ∀ v, srS (updateNZSC v a y s.sr) = true ↔ less) :
      gives (.ofAlu op rd (.reg rs)) (if aluWrites op then value else a) value carry less := by
    obtain ⟨t, ht, hrd, ht_sr, hframe⟩ := exec_ofAlu_reg_frame op rs s hsr hpc
    rw [hvalue] at hrd
    rw [hflags] at ht_sr
    refine ⟨t, ht, hrd, ?_, ?_, ?_, ?_, ?_, ?_, hframe⟩ <;> rw [ht_sr]
    · rw [srN_updateNZSC, getLsbD_fifteen, hvalue]
    · rw [srZ_updateNZSC, hvalue, beq_iff_eq]
    · exact hless _
    · exact (srC_updateNZSC_iff ..).trans hcarry
    · exact srDs_updateNZSC ..
    · exact srCs_updateNZSC ..
  have hadd (v : BitVec 17) := srS_updateNZSC_iff v a b s.sr
  have hsub (v : BitVec 17) := srS_updateNZSC_not_iff v a b s.sr
  have hborrow : 2 ^ 16 ≤ (wide a + wide (~~~b) + 1).toNat ↔ b.toNat ≤ a.toNat := toNat_wide_sbc_carry a b true
  simp only [sum, sumC, dif, difC, hcin]
  exact ⟨gives_of .add (fun _ => rfl) (setWidth_wide_add a b) (by rw [← toNat_wide_add]; rfl) hadd,
    gives_of .adc (fun _ => rfl) (setWidth_wide_adc a b _) (by rw [← toNat_wide_adc]; rfl) hadd,
    gives_of .sub (fun _ => rfl) (setWidth_wide_sub a b) hborrow hsub,
    gives_of .sbc (fun _ => rfl) (setWidth_wide_sbc a b _) (toNat_wide_sbc_carry a b _) hsub,
    gives_of .cmp (fun _ => rfl) (setWidth_wide_sub a b) hborrow hsub⟩

/-- Settles O37: the six operations call the one helper on a 16-bit value. -/
theorem registerLogic : Obligations.RegisterLogic := by
  unfold Obligations.RegisterLogic
  intro rd rs s hsr hpc a b gives
  have gives_of (op : AluOp) {value : Word}
      (hflags : ∀ v, aluFlags op a b v s.sr = updateNZ (v.setWidth 16) s.sr)
      (hvalue : aluValue op a b (srC s.sr) = wide value) :
      gives (.ofAlu op rd (.reg rs)) (if aluWrites op then value else a) value := by
    obtain ⟨t, ht, hrd, ht_sr, hframe⟩ := exec_ofAlu_reg_frame op rs s hsr hpc
    rw [hvalue, setWidth_wide] at hrd
    rw [hflags, hvalue, setWidth_wide] at ht_sr
    refine ⟨t, ht, hrd, ?_, ?_, ?_, ?_, ?_, ?_, hframe⟩ <;> rw [ht_sr]
    · exact srN_updateNZ ..
    · rw [srZ_updateNZ, beq_iff_eq]
    · exact srS_updateNZ ..
    · exact srC_updateNZ ..
    · exact srDs_updateNZ ..
    · exact srCs_updateNZ ..
  have hneg : aluValue .neg a b (srC s.sr) = wide (-b) := congrArg wide (BitVec.zero_sub b)
  exact ⟨gives_of .neg (fun _ => rfl) hneg, gives_of .xor (fun _ => rfl) rfl, gives_of .load (fun _ => rfl) rfl,
    gives_of .or (fun _ => rfl) rfl, gives_of .and (fun _ => rfl) rfl, gives_of .test (fun _ => rfl) rfl⟩

end Sys2Proof.Machine
end

section
/-! SUPPORT. STORE by operand form (44_remaining_alu_ops.md R272): one write, in a state that the form has brought about
by moving registers alone. -/

namespace Sys2Proof.Machine

/-! ## The one write of a STORE -/

/-- From `s` to `b` at most the eight registers have changed. -/
structure MovesRegisters (s b : State) : Prop where
  mem : b.mem = s.mem
  accesses : Performs [] s b
  sb : b.sb = s.sb
  control : SameControl s b

theorem MovesRegisters.refl (s : State) : MovesRegisters s s := ⟨rfl, .refl s, rfl, .refl s⟩

theorem State.advPc_movesRegisters (s : State) (k : Int) : MovesRegisters s (s.advPc k) :=
  ⟨s.advPc_mem k, .of_eq (s.advPc_bus k) (s.advPc_replies k), s.advPc_sb k, s.advPc_control k⟩

theorem indMoved_movesRegisters (ds : Bool) (mode : IndMode) (rs : Reg) (s : State) :
    MovesRegisters s (indMoved ds mode rs s) :=
  ⟨indMoved_mem .., indMoved_performs .., indMoved_sb .., indMoved_control ..⟩

/-- A write after a move of registers: the word is there, it is the one access, and nothing else but the registers has
changed. -/
theorem MovesRegisters.memWrite {s b : State} (h : MovesRegisters s b) (a : Addr) (v : Word) :
    (b.memWrite a v).mem.word a = v ∧ SameMemBut [a] s (b.memWrite a v) ∧ Performs [.write a v] s (b.memWrite a v) ∧
      (b.memWrite a v).sb = s.sb ∧ SameControl s (b.memWrite a v) :=
  ⟨Memory.word_setWord_self .., .of_setWord (by rw [State.memWrite_mem, h.mem]),
    h.accesses.trans (b.memWrite_performs a v), h.sb, h.control.trans (b.memWrite_control a v)⟩

/-! ## The forms BP6, A6, A16 and TOA16 (R221, R230, R231, R237) -/

/-- Settles O46: the one-word forms write in the state as it is, the two-word forms past their second word. -/
theorem storeForms : Obligations.StoreForms := by
  unfold Obligations.StoreForms
  intro rd s stores
  have stores_of {i : Instr} {a : Addr} {v : Word} {b : State} (h : exec i s = .next (b.memWrite a v))
      (hb : MovesRegisters s b) : stores i a v b := by
    obtain ⟨hword, hmem, hwrite, hsb, hcontrol⟩ := hb.memWrite a v
    exact ⟨_, h, hword, hmem, hwrite, b.memWrite_others a v, hsb, hcontrol⟩
  exact ⟨fun _ => stores_of rfl (.refl s), fun _ => stores_of rfl (.refl s),
    fun _ _ => stores_of rfl (s.advPc_movesRegisters 1), fun _ _ => stores_of rfl (s.advPc_movesRegisters 1)⟩

/-! ## The indirect forms (R223 to R227, R239) -/

/-- STORE through a base, by the address and the state in which the base has been changed. -/
theorem exec_storeInd (rd : Reg) {ds : Bool} {mode : IndMode} {rs : Reg} {s b : State} {a : Addr}
    (ha : indAddr ds rs (indBefore ds mode rs s) = a) (hb : indMoved ds mode rs s = b) :
    exec (.storeInd rd ds mode rs) s = .next (b.memWrite a (s.reg rd)) := by
  subst ha hb
  rfl

/-- The address after a pre-increment without `DS:`. -/
theorem indAddr_bumpUp_plain (rs : Reg) (s : State) :
    indAddr false rs (bumpUp false rs s) = segZero (s.reg rs + 1) := by
  rw [bumpUp_plain, indAddr, if_neg Bool.false_ne_true, State.reg_setReg, if_pos rfl]

/-- Settles O47: the write changes no register, so the base is as its change left it. -/
theorem storeIndirectForms : Obligations.StoreIndirectForms := by
  unfold Obligations.StoreIndirectForms
  intro rd rs s x p up down stores base pair
  have stores_of {ds : Bool} {mode : IndMode} {a : Addr} {q : State → Prop} {b : State}
      (ha : indAddr ds rs (indBefore ds mode rs s) = a) (hb : indMoved ds mode rs s = b)
      (hq : q (b.memWrite a (s.reg rd))) : stores ds mode a q := by
    have hmoved : MovesRegisters s b := hb ▸ indMoved_movesRegisters ds mode rs s
    obtain ⟨hword, hmem, hwrite, hsb, hcontrol⟩ := hmoved.memWrite a (s.reg rd)
    exact ⟨_, exec_storeInd rd ha hb, hword, hmem, hwrite, hq, hsb, hcontrol⟩
  have base_of (v : Word) (a : Addr) : base v ((s.setReg rs v).memWrite a (s.reg rd)) :=
    ⟨by rw [State.memWrite_reg, State.reg_setReg, if_pos rfl],
      (s.setReg_others rs v).trans (State.memWrite_others _ _ _)⟩
  have pair_of {q : ProgAddr} {b : State} (a : Addr) (h : segOff (srDs b.sr) (b.reg rs) = q ∧ srCs b.sr = srCs s.sr ∧
      SameFlags s b ∧ SameRegsBut [rs, .sr] s b) : pair q (b.memWrite a (s.reg rd)) := by
    obtain ⟨hq, hcs, hflags, hregs⟩ := h
    exact ⟨by rwa [State.memWrite_reg], hcs, hflags.trans (.of_eq rfl), hregs.trans (State.memWrite_others _ _ _)⟩
  have hsame : s = s.setReg rs x := (s.setReg_reg rs).symm
  refine ⟨stores_of rfl hsame (base_of x _), stores_of rfl (bumpDown_plain rs s) (base_of (x - 1) _),
    stores_of rfl (bumpUp_plain rs s) (base_of (x + 1) _),
    stores_of (indAddr_bumpUp_plain rs s) (bumpUp_plain rs s) (base_of (x + 1) _),
    fun hrs => ?pointer, fun hrs => ?status⟩
  case pointer =>
    have hpair := bumpUp_pair rs s hrs
    exact ⟨stores_of rfl rfl (pair_of _ ⟨rfl, rfl, .refl s, .refl _ s⟩),
      stores_of rfl rfl (pair_of _ (bumpDown_pair rs s hrs)), stores_of rfl rfl (pair_of _ hpair),
      stores_of (congrArg busAddr hpair.1) rfl (pair_of _ hpair)⟩
  case status =>
    subst hrs
    have hup : indAddr true .sr (bumpUp true .sr s) = busAddr (segOff (srDs up) up) := by
      rw [bumpUp_status]
      rfl
    exact ⟨stores_of rfl hsame (base_of x _), stores_of rfl (bumpDown_status s) (base_of down _),
      stores_of rfl (bumpUp_status s) (base_of up _), stores_of hup (bumpUp_status s) (base_of up _)⟩

end Sys2Proof.Machine
end

section
/-! SUPPORT. PUSH and POP (45_remaining_stack.md R290, R291): PUSH as a list of writes by their index, POP as one
register at a time, and the invariant by which a POP takes back what a PUSH has stacked. -/

namespace Sys2Proof.Machine

/-! ## The register list by number (R290, R291) -/

theorem regBelow_eq_ofNum {r : Reg} (h : r ≠ .sp) : regBelow r = .ofNum (r.num - 1) := by
  cases r with
  | sp => exact absurd rfl h
  | _ => rfl

theorem regAbove_eq_ofNum {r : Reg} (h : r ≠ .pc) : regAbove r = .ofNum (r.num + 1) := by
  cases r with
  | pc => exact absurd rfl h
  | _ => rfl

theorem num_regBelow {r : Reg} (h : r ≠ .sp) : (regBelow r).num.toNat + 1 = r.num.toNat := by
  cases r with
  | sp => exact absurd rfl h
  | _ => rfl

@[simp] theorem num_regDown (r : Reg) (k : Nat) : (regDown r k).num = r.num - BitVec.ofNat 3 k := Reg.num_ofNum _

@[simp] theorem regDown_zero (r : Reg) : regDown r 0 = r := by
  rw [regDown, BitVec.sub_zero, Reg.ofNum_num]

theorem regDown_regBelow {r : Reg} (h : r ≠ .sp) (k : Nat) : regDown (regBelow r) k = regDown r (k + 1) := by
  rw [regDown, regDown, regBelow_eq_ofNum h, Reg.num_ofNum, BitVec.ofNat_add]
  congr 1
  bv_omega

/-- POP goes up the list that PUSH has gone down, where the list does not pass below SP. -/
theorem regAbove_regDown {r : Reg} {k : Nat} (h : k + 1 ≤ r.num.toNat) :
    regAbove (regDown r (k + 1)) = regDown r k := by
  have hpc : regDown r (k + 1) ≠ .pc := fun e => by
    have hnum : r.num - BitVec.ofNat 3 (k + 1) = 7#3 := by rw [← num_regDown, e]; rfl
    bv_omega
  rw [regAbove_eq_ofNum hpc, num_regDown, regDown, BitVec.ofNat_add]
  congr 1
  bv_omega

/-! ## PUSH (R290) -/

/-- Where the `k`-th word of a PUSH goes. -/
def pushedAddr (rb : Reg) (s : State) (k : Nat) : Addr := segZero (s.reg rb - BitVec.ofNat 16 k)

/-- The `k`-th word of a PUSH: the register as it then is, which for the stack register is its decremented value. -/
def pushedWord (rd rb : Reg) (s : State) (k : Nat) : Word :=
  if regDown rd k = rb then s.reg rb - BitVec.ofNat 16 k else s.reg (regDown rd k)

theorem pushedAddr_inj {rb : Reg} {s : State} {j k : Nat} (hj : j < 2 ^ 16) (hk : k < 2 ^ 16)
    (h : pushedAddr rb s j = pushedAddr rb s k) : j = k := by
  rw [pushedAddr, pushedAddr, segZero_inj] at h
  bv_omega

/-- After `k` pushes the next word is the register `k` places below. -/
theorem reg_pushRegs_regDown (k : Nat) (r rb : Reg) (s : State) :
    (pushRegs k r rb s).reg (regDown r k) = pushedWord r rb s k := by
  rw [pushedWord]
  split
  · next h => rw [h, pushRegs_rb]
  · next h => exact pushRegs_others k r rb s _ (List.mem_singleton.not.mpr h)

/-- The last push of a run: the word and its address are those of the run's index. -/
theorem pushRegs_last {n : Nat} {r : Reg} (rb : Reg) (s : State) (h : n ≤ r.num.toNat) :
    pushRegs (n + 1) r rb s = (pushRegs n r rb s).push (pushedWord r rb s n) rb := by
  rw [← reg_pushRegs_regDown]
  induction n generalizing r s with
  | zero => rw [regDown_zero]; rfl
  | succ n ih =>
    have hsp : r ≠ .sp := fun e => by subst e; exact absurd h (Nat.not_succ_le_zero n)
    have hbelow : n ≤ (regBelow r).num.toNat := by
      have := num_regBelow hsp
      omega
    rw [pushRegs_succ, ih _ hbelow, regDown_regBelow hsp]
    rfl

theorem segZero_pushRegs_rb (n : Nat) (r rb : Reg) (s : State) :
    segZero ((pushRegs n r rb s).reg rb) = pushedAddr rb s n := by
  rw [pushRegs_rb, pushedAddr]

section Legal

variable {n : Nat} {r : Reg} (rb : Reg) (s : State) (h : n ≤ r.num.toNat + 1)
include h

theorem pushRegs_sameMem : SameMemBut ((List.range n).map (pushedAddr rb s)) s (pushRegs n r rb s) := by
  induction n with
  | zero => exact .refl _ s
  | succ n ih =>
    have hn : n ≤ r.num.toNat := Nat.le_of_succ_le_succ h
    rw [pushRegs_last rb s hn, List.range_succ, List.map_append, List.map_singleton, ← segZero_pushRegs_rb n r rb s]
    exact (ih (Nat.le_succ_of_le hn)).trans (State.push_sameMem _ _ rb)

theorem pushRegs_performs :
    Performs ((List.range n).map fun k => .write (pushedAddr rb s k) (pushedWord r rb s k)) s (pushRegs n r rb s) := by
  induction n with
  | zero => exact .refl s
  | succ n ih =>
    have hn : n ≤ r.num.toNat := Nat.le_of_succ_le_succ h
    rw [pushRegs_last rb s hn, List.range_succ, List.map_append, List.map_singleton, ← segZero_pushRegs_rb n r rb s]
    exact (ih (Nat.le_succ_of_le hn)).trans (State.push_performs _ _ rb)

/-- No later push of the run overwrites a word: there are at most eight, at different offsets. -/
theorem word_pushRegs {k : Nat} (hk : k < n) :
    (pushRegs n r rb s).mem.word (pushedAddr rb s k) = pushedWord r rb s k := by
  induction n with
  | zero => exact absurd hk (Nat.not_lt_zero k)
  | succ n ih =>
    have hn : n ≤ r.num.toNat := Nat.le_of_succ_le_succ h
    have hlt := r.num.isLt
    rw [pushRegs_last rb s hn, State.push_mem, segZero_pushRegs_rb]
    rcases Nat.lt_succ_iff_lt_or_eq.mp hk with hbefore | rfl
    · have hne : pushedAddr rb s k ≠ pushedAddr rb s n := fun e =>
        hbefore.ne (pushedAddr_inj (by omega) (by omega) e)
      rw [Memory.word_setWord, if_neg hne, ih (Nat.le_succ_of_le hn) hbefore]
    · exact Memory.word_setWord_self ..

end Legal

/-- Settles O49: every push of the run by its index, the run's end being one push after the run before it. -/
theorem pushStoresTheRegisters : Obligations.PushStoresTheRegisters := by
  unfold Obligations.PushStoresTheRegisters
  intro rd rb n s hlegal
  obtain ⟨-, hn⟩ : 1 ≤ n.toNat ∧ n.toNat ≤ rd.num.toNat + 1 := by simpa [pushLegal] using hlegal
  have htop : (pushRegs n.toNat rd rb s).reg rb = s.reg rb - n.setWidth 16 := by
    rw [pushRegs_rb, BitVec.ofNat_toNat]
  exact ⟨_, rfl, htop, pushRegs_others _ rd rb s, fun k hk => word_pushRegs rb s hn hk, pushRegs_sameMem rb s hn,
    pushRegs_performs rb s hn, pushRegs_sb .., pushRegs_control ..⟩

/-! ## POP (R291) -/

/-- A pop writes the register popped and the stack register. -/
theorem State.popTo_others (s : State) (d r : Reg) : SameRegsBut [d, r] s (s.popTo d r) := fun q hq => by
  rw [List.mem_cons, List.mem_singleton, not_or] at hq
  obtain ⟨hd, hr⟩ := hq
  rw [State.popTo_reg, if_neg hd, if_neg hr]

theorem exec_pop_one {rd : Reg} (rb : Reg) (s : State) (h : rd ≠ .pc) :
    exec (.pop rd 1#3 rb) s = .next (s.popTo (.ofNum (rd.num + 1)) rb) := by
  rw [← regAbove_eq_ofNum h]
  rfl

/-- Settles O50: POP of one register is the one pop into the register above. -/
theorem popOneRegister : Obligations.PopOneRegister := by
  unfold Obligations.PopOneRegister
  intro rd rb s hrd
  refine ⟨_, exec_pop_one rb s hrd, ?_, fun hrb => ?_, s.popTo_others _ rb, .of_eq (s.popTo_mem _ rb),
    s.popTo_performs _ rb, s.popTo_sb _ rb, s.popTo_control _ rb⟩
  · rw [State.popTo_reg, if_pos rfl]
  · rw [State.popTo_reg, if_neg hrb, if_pos rfl]

/-- Settles O51: the run of pops as its first and the others, the count going down with them. -/
theorem popGoesUpOneRegisterAtATime : Obligations.PopGoesUpOneRegisterAtATime := by
  unfold Obligations.PopGoesUpOneRegisterAtATime
  intro rd rb n s hlegal hn
  obtain ⟨-, hlast⟩ : 1 ≤ n.toNat ∧ n.toNat + rd.num.toNat ≤ 7 := by simpa [popLegal] using hlegal
  have hrd : rd ≠ .pc := fun e => by
    have hnum : rd.num.toNat = 7 := by rw [e]; rfl
    omega
  have hcount : n.toNat = (n - 1).toNat + 1 := by bv_omega
  refine ⟨_, _, exec_pop_one rb s hrd, rfl, ?_⟩
  show Host.Outcome.next (popRegs n.toNat rd rb s) = _
  rw [hcount, popRegs_succ, regAbove_eq_ofNum hrd]

/-! ## POP after PUSH (R33, R70) -/

theorem PlainReads.tail {n : Nat} {s t : State} (h : PlainReads (n + 1) s) (e : t.replies = s.replies.drop 1) :
    PlainReads n t := fun k hk => by
  rw [e, List.getElem?_drop, Nat.add_comm]
  exact h (k + 1) (Nat.succ_lt_succ hk)

/-- PUSH uses up no answer of the platform. -/
theorem pushRegs_replies (n : Nat) (r rb : Reg) (s : State) : (pushRegs n r rb s).replies = s.replies := by
  induction n generalizing r s with
  | zero => rfl
  | succ n ih => rw [pushRegs_succ, ih, State.push_replies]

/-- In `t` the first `n` registers of the list from `hi` down stand on the stack as they were in `s`, and the other
registers hold what they held, but for the stack register, which is below those words. -/
structure Stacked (n : Nat) (hi rb : Reg) (s t : State) : Prop where
  top : t.reg rb = s.reg rb - BitVec.ofNat 16 n
  others : ∀ q, q ≠ rb → (∀ k < n, q ≠ regDown hi k) → t.reg q = s.reg q
  words : ∀ k < n, t.mem.word (pushedAddr rb s k) = s.reg (regDown hi k)

theorem pushRegs_stacked {n : Nat} {hi rb : Reg} (s : State) (hn : n ≤ hi.num.toNat + 1)
    (havoid : ∀ k < n, regDown hi k ≠ rb) : Stacked n hi rb s (pushRegs n hi rb s) where
  top := pushRegs_rb n hi rb s
  others q hq _ := pushRegs_others n hi rb s q (List.mem_singleton.not.mpr hq)
  words k hk := by rw [word_pushRegs rb s hn hk, pushedWord, if_neg (havoid k hk)]

/-- With nothing left on the stack every register is back. -/
theorem Stacked.sameRegs {hi rb : Reg} {s t : State} (h : Stacked 0 hi rb s t) : SameRegsBut [] s t := fun q _ => by
  by_cases hq : q = rb
  · rw [hq, h.top, BitVec.sub_zero]
  · exact h.others q hq fun k hk => absurd hk (Nat.not_lt_zero k)

/-- A pop takes the last word pushed back into its register. -/
theorem Stacked.popTo {n : Nat} {hi rb : Reg} {s t : State} (h : Stacked (n + 1) hi rb s t)
    (hplain : PlainReads (n + 1) t) (havoid : regDown hi n ≠ rb) :
    Stacked n hi rb s (t.popTo (regDown hi n) rb) := by
  have hback : t.reg rb + 1 = s.reg rb - BitVec.ofNat 16 n := by
    rw [h.top, BitVec.ofNat_add]
    bv_omega
  refine ⟨?top, fun q hq hlist => ?others, fun k hk => ?words⟩
  case top => rw [State.popTo_reg, if_neg havoid.symm, if_pos rfl, hback]
  case words => rw [State.popTo_mem, h.words k (Nat.lt_succ_of_lt hk)]
  case others =>
    by_cases hlast : q = regDown hi n
    · rw [hlast, State.popTo_reg, if_pos rfl, hplain.reply n.succ_pos, hback]
      exact h.words n n.lt_succ_self
    · rw [State.popTo_reg, if_neg hlast, if_neg hq]
      refine h.others q hq fun k hk => ?_
      rcases Nat.lt_succ_iff_lt_or_eq.mp hk with hlt | rfl
      · exact hlist k hlt
      · exact hlast

theorem Stacked.sameRegs_popRegs {n : Nat} {hi rb : Reg} {s t : State} (h : Stacked n hi rb s t)
    (hplain : PlainReads n t) (hn : n ≤ hi.num.toNat) (havoid : ∀ k < n, regDown hi k ≠ rb) :
    SameRegsBut [] s (popRegs n (regDown hi n) rb t) := by
  induction n generalizing t with
  | zero => exact h.sameRegs
  | succ n ih =>
    rw [popRegs_succ, regAbove_regDown hn]
    exact ih (h.popTo hplain (havoid n n.lt_succ_self)) (hplain.tail (t.popTo_replies _ rb)) (Nat.le_of_succ_le hn)
      fun k hk => havoid k (Nat.lt_succ_of_lt hk)

/-- Settles O52: PUSH stacks the list, and each pop takes one register of it back. -/
theorem popUndoesPush : Obligations.PopUndoesPush := by
  unfold Obligations.PopUndoesPush
  intro hi rb n s t _ hn havoid hplain hpush
  cases hpush
  have hlegal : n.toNat ≤ hi.num.toNat + 1 := Nat.le_succ_of_le hn
  have hafter : PlainReads n.toNat (pushRegs n.toNat hi rb s) :=
    hplain.congr (pushRegs_replies n.toNat hi rb s)
  exact ⟨_, rfl, (pushRegs_stacked s hlegal havoid).sameRegs_popRegs hafter hn havoid, popRegs_mem ..⟩

end Sys2Proof.Machine
end

section
/-! SUPPORT. RETI (45_remaining_stack.md R292): its two pops by register and access, and the interrupt entry as what a
return takes back (60_exceptions.md R327, R328). -/

namespace Sys2Proof.Machine

/-! ## The two pops of RETI -/

/-- RETI pops what `retf` pops (R291, R292). -/
theorem popRegs_sr_pc (s : State) : popRegs 2 .bp .sp s = (s.popTo .sr .sp).popTo .pc .sp := rfl

theorem popRegs_sr_pc_performs (s : State) :
    Performs [.read (segZero (s.sp + 1)) (s.reply 0 (segZero (s.sp + 1))),
      .read (segZero (s.sp + 2)) (s.reply 1 (segZero (s.sp + 2)))] s (popRegs 2 .bp .sp s) := by
  have hsecond := (s.popTo .sr .sp).popTo_performs .pc .sp
  have htwo : (s.popTo .sr .sp).reg .sp + 1 = s.sp + 2 := by
    rw [State.popTo_reg]
    show s.sp + 1 + 1 = s.sp + 2
    bv_omega
  rw [htwo, State.popTo_reply] at hsecond
  exact (s.popTo_performs .sr .sp).trans hsecond

/-- A return changes no register, and makes no access, but in its two pops. -/
theorem State.returnInterrupt_pops (s : State) :
    (∀ q, s.returnInterrupt.reg q = (popRegs 2 .bp .sp s).reg q) ∧
      s.returnInterrupt.bus = (popRegs 2 .bp .sp s).bus ∧
      s.returnInterrupt.replies = (popRegs 2 .bp .sp s).replies := by
  rw [popRegs_sr_pc]
  rcases s.returnInterrupt_cases with ⟨-, e⟩ | ⟨-, -, e⟩ | ⟨-, -, e⟩ <;> rw [e] <;>
    exact ⟨fun q => by cases q <;> rfl, rfl, rfl⟩

theorem State.returnInterrupt_reg (s : State) (q : Reg) :
    s.returnInterrupt.reg q =
      if q = .pc then s.reply 1 (segZero (s.sp + 2))
      else if q = .sr then s.reply 0 (segZero (s.sp + 1))
      else if q = .sp then s.sp + 2 else s.reg q := by
  obtain ⟨hregs, -, -⟩ := s.returnInterrupt_pops
  rw [hregs, popRegs_sr_pc_reg]

theorem State.returnInterrupt_performs (s : State) :
    Performs [.read (segZero (s.sp + 1)) (s.reply 0 (segZero (s.sp + 1))),
      .read (segZero (s.sp + 2)) (s.reply 1 (segZero (s.sp + 2)))] s s.returnInterrupt := by
  obtain ⟨-, hbus, hreplies⟩ := s.returnInterrupt_pops
  obtain ⟨hbus', hreplies'⟩ := popRegs_sr_pc_performs s
  exact ⟨hbus.trans hbus', hreplies.trans hreplies'⟩

/-- Settles O53: the two pops, and then one of the three ways in which a return leaves the control state. -/
theorem returnFromInterrupt : Obligations.ReturnFromInterrupt := by
  unfold Obligations.ReturnFromInterrupt
  intro s
  have hsr : s.returnInterrupt.sr = s.reply 0 (segZero (s.sp + 1)) := s.returnInterrupt_reg .sr
  have hpc : s.returnInterrupt.pc = s.reply 1 (segZero (s.sp + 2)) := s.returnInterrupt_reg .pc
  have hothers : SameRegsBut [.sr, .pc, .sp] s s.returnInterrupt := fun q hq => by
    simp only [List.mem_cons, List.not_mem_nil, or_false, not_or] at hq
    obtain ⟨hqsr, hqpc, hqsp⟩ := hq
    rw [State.returnInterrupt_reg, if_neg hqpc, if_neg hqsr, if_neg hqsp]
  have haccesses := s.returnInterrupt_performs
  rw [← hsr, ← hpc] at haccesses
  refine ⟨_, rfl, hsr, hpc, s.returnInterrupt_reg .sp, hothers, .of_eq s.returnInterrupt_mem, haccesses, ?_⟩
  have hc : SameControl s (popRegs 2 .bp .sp s) := popRegs_control ..
  rcases s.returnInterrupt_cases with ⟨hfiq, e⟩ | ⟨hfiq, hirq, e⟩ | ⟨hfiq, hirq, e⟩ <;>
    rw [e, ← popRegs_sr_pc, hfiq] <;>
    refine ⟨rfl, hc.enableIrq, hc.enableFiq, hc.sirq, hc.faulted, hc.savedSb0, ?_⟩
  · exact ⟨fun _ => ⟨rfl, hc.irq, rfl, hc.savedSb1, rfl⟩, nofun, nofun⟩
  · rw [hirq]
    exact ⟨nofun, fun _ _ => ⟨rfl, hc.fiq.trans hfiq, rfl, hc.savedSb2, rfl⟩, nofun⟩
  · rw [hirq]
    exact ⟨nofun, nofun, fun _ _ =>
      ⟨hc.irq.trans hirq, hc.fiq.trans hfiq, hc.savedSb1, hc.savedSb2, popRegs_sb ..⟩⟩

/-! ## The entry that a return takes back (R327, R328) -/

/-- What RETI needs of an interrupt entry from `s` to `t`: the two words above SP, SB in slot 0, and one source in
service. -/
structure Interrupted (s t : State) : Prop where
  sp : t.sp = s.sp - 2
  stackedPc : t.mem.word (segZero s.sp) = s.pc
  stackedSr : t.mem.word (segZero (s.sp - 1)) = s.sr
  savedSb : t.savedSb0 = s.sb
  source : (t.fiq = true ∧ t.irq = false) ∨ (t.fiq = false ∧ t.irq = true)

/-- An interrupt check that changes anything has entered a handler. -/
theorem State.checkIrqs_interrupted {s : State} (h : s.checkIrqs ≠ s) : Interrupted s s.checkIrqs := by
  rcases s.checkIrqs_cases with e | ⟨-, -, hfiq, hirq, e⟩ | ⟨line, -, -, -, hirq, hfiq, e⟩
  · exact absurd e h
  · obtain ⟨enters, -, -, -⟩ := State.enterInterrupt_enters { s with fiq := true } s.savedSb2 fiqVector
    rw [e]
    exact ⟨enters.sp, enters.stackedPc, enters.stackedSr, enters.savedSb0, .inl ⟨rfl, hirq⟩⟩
  · obtain ⟨enters, -, -, -⟩ := State.enterInterrupt_enters { s with irq := true } s.savedSb1 (irqVector line)
    rw [e]
    exact ⟨enters.sp, enters.stackedPc, enters.stackedSr, enters.savedSb0, .inr ⟨hfiq, rfl⟩⟩

/-- Settles O57: RETI reads the two words of the entry and reloads SB from slot 0, whichever source was taken. -/
theorem returnUndoesEntry : Obligations.ReturnUndoesEntry := by
  unfold Obligations.ReturnUndoesEntry
  intro s h _ _ htaken hsp hpcWord hsrWord hslot hirq hfiq hplain
  have entry := s.checkIrqs_interrupted htaken
  obtain ⟨t, ht, hsr, hpc, hsp', -, -, -, hcurirq, -, -, -, -, -, leaveFiq, leaveIrq, -⟩ := returnFromInterrupt h
  rw [entry.sp] at hsp
  rw [entry.stackedPc] at hpcWord
  rw [entry.stackedSr] at hsrWord
  rw [entry.savedSb] at hslot
  have htop : h.sp + 2 = s.sp := by rw [hsp, BitVec.sub_add_cancel]
  have hbelow : h.sp + 1 = s.sp - 1 := by rw [hsp]; bv_omega
  rw [htop, hplain.reply (by decide), hpcWord] at hpc
  rw [hbelow, hplain.reply (by decide), hsrWord] at hsr
  have hleft : t.sb = s.sb ∧ t.irq = false ∧ t.fiq = false := by
    rcases entry.source with ⟨fiqTaken, noIrq⟩ | ⟨noFiq, irqTaken⟩
    · obtain ⟨hfiq', hirq', -, -, hsb⟩ := leaveFiq (hfiq.trans fiqTaken)
      exact ⟨hsb.trans hslot, hirq'.trans (hirq.trans noIrq), hfiq'⟩
    · obtain ⟨hirq', hfiq', -, -, hsb⟩ := leaveIrq (hfiq.trans noFiq) (hirq.trans irqTaken)
      exact ⟨hsb.trans hslot, hirq', hfiq'⟩
  obtain ⟨hsb, hirq', hfiq'⟩ := hleft
  exact ⟨t, ht, hpc, hsr, hsp'.trans htop, hsb, hirq', hfiq', hcurirq⟩

end Sys2Proof.Machine
end

section
/-! SUPPORT. Interrupts and the fault (60_exceptions.md): the interrupt check by what is pending, enabled and in service
(R325 to R332), the line input (R322, R323), and the illegal word (R310), which only the decoder latches (R311). -/

namespace Sys2Proof.Machine

/-! ## The fault latch (R310, R311) -/

/-- RETI leaves the fault latch (R311). -/
theorem State.returnInterrupt_faulted (s : State) : s.returnInterrupt.faulted = s.faulted := by
  have hlatch := s.returnPops_plainRun.control.faulted
  rcases s.returnInterrupt_cases with ⟨-, e⟩ | ⟨-, -, e⟩ | ⟨-, -, e⟩ <;> rw [e] <;> exact hlatch

theorem exec_faulted {i : Instr} {s t : State} (h : exec i s = .next t) : t.faulted = s.faulted := by
  cases exec_effect h with
  | plain run => exact run.control.faulted
  | shifted sb _ run => exact run.control_of_sb.faulted
  | enables irq fiq _ => rfl
  | reti _ => exact s.returnInterrupt_faulted

/-- Settles O13: every arm of `exec` answers a next state, and none of an instruction's effects is on the latch. -/
theorem everyInstructionCompletes : Obligations.EveryInstructionCompletes := by
  unfold Obligations.EveryInstructionCompletes
  intro i s
  obtain ⟨t, ht⟩ := exec_next i s
  exact ⟨t, ht, exec_faulted ht⟩

/-- An illegal opcode word takes no second word (R310). -/
theorem takesSecondWord_of_error {op : Word} {e : Reject} (h : decodeOp op 0#16 = .error e) :
    takesSecondWord op = false := by
  rw [takesSecondWord, h]

/-- A step whose fetch decodes to no instruction sets the latch, without the interrupt check (R310). -/
theorem State.runStep_of_error {s : State} {e : Reject} (h : decode s.fetch.words = .error e) :
    s.runStep = .next (s.fetch.st.raiseUnimplemented s.fetch.op s.lpc) := by
  simp only [State.runStep, h]

/-- Settles O10: the fetch of an illegal word is that of one word, and decodes to no instruction. -/
theorem illegalWordSetsTheLatch : Obligations.IllegalWordSetsTheLatch := by
  unfold Obligations.IllegalWordSetsTheLatch
  intro s e hs op herror
  have htakes : takesSecondWord op = false := takesSecondWord_of_error herror
  have hfetch := s.fetch_oneWord htakes
  have hdecode : decode s.fetch.words = .error e := by
    rw [hfetch, decode_oneWord [] htakes, herror]
    rfl
  rw [step_running hs, State.runStep_of_error hdecode, hfetch]
  rfl

/-! ## The source that the check selects (R325, R326) -/

theorem State.checkIrqs_of_fiqPending {s : State} (h : s.sirq.getLsbD 8 = true) : s.checkIrqs = s.triggerFiq := by
  rw [State.checkIrqs, if_pos h]

theorem State.checkIrqs_of_irqPending {s : State} {line : BitVec 3} (hfiq : s.sirq.getLsbD 8 = false)
    (hline : pendingLine s.sirq = some line) : s.checkIrqs = s.triggerIrq line := by
  rw [State.checkIrqs, if_neg (ne_true_of_eq_false hfiq), hline]

/-! ## The entry of the selected source (R327, R328) -/

/-- The trigger enters a FIQ that is enabled, with nothing in service. -/
theorem State.triggerFiq_taken {s : State} (henable : s.enableFiq = true) (hfiq : s.fiq = false) (hirq : s.irq = false) :
    s.triggerFiq = { s with fiq := true }.enterInterrupt s.savedSb2 fiqVector := by
  rw [State.triggerFiq, if_neg (by simp [henable, hfiq, hirq])]

/-- The trigger enters an IRQ where IRQs are enabled and nothing is in service. -/
theorem State.triggerIrq_taken {s : State} (line : BitVec 3) (henable : s.enableIrq = true) (hirq : s.irq = false)
    (hfiq : s.fiq = false) :
    s.triggerIrq line =
      { { s with irq := true }.enterInterrupt s.savedSb1 (irqVector line) with curirq := line } := by
  rw [State.triggerIrq, if_neg (by simp [henable, hirq, hfiq])]

/-- An entry neither reads the in-service bits of the state it leaves nor says which line is in service. -/
theorem EntersHandler.of_inService {handlerSb : BitVec 4} {vector : Addr} {s t : State} {irq fiq : Bool}
    (h : EntersHandler handlerSb vector { s with irq := irq, fiq := fiq } t) (line : BitVec 3) :
    EntersHandler handlerSb vector s { t with curirq := line } where
  sp := h.sp
  pc := h.pc
  sr := h.sr
  others := h.others
  stackedPc := h.stackedPc
  stackedSr := h.stackedSr
  memory := h.memory
  accesses := ⟨h.accesses.bus, h.accesses.replies⟩
  sb := h.sb
  savedSb0 := h.savedSb0
  savedSb1 := h.savedSb1
  savedSb2 := h.savedSb2
  enableIrq := h.enableIrq
  enableFiq := h.enableFiq
  sirq := h.sirq
  faulted := h.faulted

/-- The vector of an IRQ line as a number (R67). -/
theorem irqVector_eq_ofNat (line : BitVec 3) : irqVector line = BitVec.ofNat 23 (0x00FFF8 + line.toNat) := by
  rw [irqVector, BitVec.ofNat_add, BitVec.ofNat_toNat]

/-- Settles O54: a pending FIQ is the source selected, and its trigger accepts it. -/
theorem checkTakesTheFiq : Obligations.CheckTakesTheFiq := by
  unfold Obligations.CheckTakesTheFiq
  intro s hpending henable hfiq hirq
  rw [State.checkIrqs_of_fiqPending hpending, State.triggerFiq_taken henable hfiq hirq]
  obtain ⟨henters, hirq', hfiq', hcurirq⟩ :=
    State.enterInterrupt_enters { s with fiq := true } s.savedSb2 fiqVector
  exact ⟨henters.of_inService s.curirq, hfiq', hirq'.trans hirq, hcurirq⟩

/-- Settles O55: the least pending line is the source selected, and its trigger accepts it. -/
theorem checkTakesTheLeastIrq : Obligations.CheckTakesTheLeastIrq := by
  unfold Obligations.CheckTakesTheLeastIrq
  intro s line hnoFiq hpending hleast henable hirq hfiq
  have hline : pendingLine s.sirq = some line := pendingLine_eq hpending hleast
  rw [State.checkIrqs_of_irqPending hnoFiq hline, State.triggerIrq_taken line henable hirq hfiq, ← irqVector_eq_ofNat]
  obtain ⟨henters, hirq', hfiq', -⟩ :=
    State.enterInterrupt_enters { s with irq := true } s.savedSb1 (irqVector line)
  exact ⟨henters.of_inService line, hirq', hfiq'.trans hfiq, rfl⟩

/-! ## The check that changes nothing (R325, R326, R332) -/

/-- The check changes nothing where it refuses a pending FIQ and, with no FIQ pending, every pending IRQ. -/
theorem State.checkIrqs_refused {s : State}
    (fiqRefused : s.sirq.getLsbD 8 = true → s.enableFiq = false ∨ s.irq = true ∨ s.fiq = true)
    (irqRefused : ∀ line : BitVec 3, s.sirq.getLsbD 8 = false → s.sirq.getLsbD line.toNat = true →
      s.enableIrq = false ∨ s.irq = true ∨ s.fiq = true) : s.checkIrqs = s := by
  rcases s.checkIrqs_cases with e | ⟨hpending, henable, hfiq, hirq, -⟩ | ⟨line, hnoFiq, hline, henable, hirq, hfiq, -⟩
  · exact e
  · simpa [henable, hfiq, hirq] using fiqRefused hpending
  · simpa [henable, hfiq, hirq] using irqRefused line hnoFiq hline

/-- Settles O56: in each clause either trigger refuses, or its source is not the one selected. -/
theorem checkRefusesAndShadows : Obligations.CheckRefusesAndShadows := by
  unfold Obligations.CheckRefusesAndShadows
  intro s
  refine ⟨fun hnone => ?_, fun hservice => ?_, fun hpending hdisabled => ?_, fun hnoFiq hdisabled => ?_⟩
  · have hclear (k : Nat) : s.sirq.getLsbD k ≠ true := by simp [hnone]
    exact State.checkIrqs_refused (fun h => absurd h (hclear 8)) fun line _ h => absurd h (hclear line.toNat)
  · exact State.checkIrqs_refused (fun _ => .inr hservice) fun _ _ _ => .inr hservice
  · exact State.checkIrqs_refused (fun _ => .inl hdisabled) fun _ h => absurd hpending (ne_true_of_eq_false h)
  · exact State.checkIrqs_refused (fun h => absurd h (ne_true_of_eq_false hnoFiq)) fun _ _ _ => .inl hdisabled

/-! ## The line input (R322, R323) -/

/-- A line above the FIQ's has no pending bit (R323). -/
theorem State.setInput_of_lt {s : State} {line : Nat} (h : 8 < line) (b : Bool) : s.setInput line b = s := by
  simp [State.setInput, h]

/-- Settles O58: a line event changes the pending mask at most, and there the bit of its line alone. -/
theorem lineInput : Obligations.LineInput := by
  unfold Obligations.LineInput
  intro s line b
  refine ⟨fun hs hline => ⟨s.setInput_frame line b, s.setInput_sirq line b hs hline⟩,
    fun hline => State.setInput_of_lt hline b, fun hs => ?_⟩
  obtain ⟨d, hd⟩ := Option.ne_none_iff_exists'.mp hs
  exact State.setInput_latched hd line b

end Sys2Proof.Machine
end

section
/-! SUPPORT. The transitions of the whole machine (70_reset_and_hazards.md R374): which are enabled, and what every
interleaving of them keeps. -/

namespace Sys2Proof.Machine

/-! ## Which transitions are enabled (R374) -/

/-- A step of a block that is not faulted has a next state, whatever it fetches (R310, R311). -/
theorem State.runStep_next (s : State) : ∃ t, s.runStep = .next t := by
  cases hdecode : decode s.fetch.words with
  | error e => exact ⟨_, State.runStep_of_error hdecode⟩
  | ok p =>
    obtain ⟨t, ht⟩ := exec_next p.1 s.fetch.st
    refine ⟨t.checkIrqs, ?_⟩
    rw [State.runStep_of_decode hdecode, ht]
    rfl

/-- A step is enabled exactly where nothing is latched (R310, R374). -/
theorem step_enabled_iff (s : State) : (∃ t, step s = .next t) ↔ s.faulted = none := by
  cases hs : s.faulted with
  | none =>
    rw [step_running hs]
    exact iff_of_true s.runStep_next rfl
  | some d =>
    rw [step_latched hs]
    exact iff_of_false (fun ⟨_, h⟩ => by cases h) (Option.some_ne_none d)

/-- Settles O12: a step by `step_enabled_iff`, since the answers of the platform are no part of the latch; a line event
and a reset answer a next state by definition. -/
theorem transitionsEnabled : Obligations.TransitionsEnabled := by
  unfold Obligations.TransitionsEnabled
  refine fun s => ⟨fun replies => step_enabled_iff { s with replies := replies }, fun line b => ?_,
    fun replies => ⟨_, rfl⟩⟩
  refine ⟨s.setInput line b, rfl, fun hs => ?_⟩
  obtain ⟨d, hd⟩ := Option.ne_none_iff_exists'.mp hs
  exact State.setInput_latched hd line b

/-! ## The invariant at reset (R360) -/

/-- The state after a reset meets the invariant over every memory that does. -/
theorem Inv.resetWith {m : Memory} (memWf : m.wf = true) (memLow : ∀ c ∈ m, c.1 < 2 ^ 23)
    (replies : List (Option Word)) (v : Word) : Inv (.resetWith m replies v) where
  memWf := memWf
  memLow := memLow
  exclusive := fun ⟨hirq, _⟩ => Bool.noConfusion hirq
  curirqIdle := fun _ => rfl
  busLow := by
    intro a ha
    rw [List.mem_singleton.mp ha]
    exact (by decide : LowAddr resetVector)
  latchIllegal := fun _ hd => by cases hd

/-- Settles O17: reset starts from the empty memory, and its one access is the read of its vector. -/
theorem resetSatisfiesInvariant : Obligations.ResetSatisfiesInvariant := by
  unfold Obligations.ResetSatisfiesInvariant
  exact ⟨.resetWith rfl (fun _ hc => absurd hc List.not_mem_nil) [] _, fun s => ⟨rfl, rfl⟩⟩

/-! ## The invariant along every interleaving (R374) -/

theorem Inv.deviceReset {s : State} (hs : Inv s) : Inv s.deviceReset := .resetWith hs.memWf hs.memLow _ _

/-- The invariant does not speak of what the platform is still to answer. -/
theorem Inv.withReplies {s : State} (hs : Inv s) (replies : List (Option Word)) : Inv { s with replies := replies } :=
  hs.of_parts (hs.storage.congr rfl rfl) hs.exclusive hs.curirqIdle rfl

theorem Inv.setInput {s : State} (hs : Inv s) (line : Nat) (b : Bool) : Inv (s.setInput line b) := by
  rw [s.setInput_frame line b]
  exact hs.of_parts (hs.storage.congr rfl rfl) hs.exclusive hs.curirqIdle rfl

theorem Inv.transition {u : Transition} {s t : State} (hs : Inv s) (h : transition u s = .next t) : Inv t := by
  cases u with
  | step replies => exact stepKeepsInvariant _ _ (hs.withReplies replies) h
  | setInput line b => cases h; exact hs.setInput line b
  | reset replies => cases h; exact (hs.withReplies replies).deviceReset

/-- A run of one more transition is that transition and then the run of the others. -/
theorem run_cons {u : Transition} {us : List Transition} {s t : State} (h : run (u :: us) s = .next t) :
    ∃ v, transition u s = .next v ∧ run us v = .next t := by
  rw [run] at h
  split at h
  · next v hv => exact ⟨v, hv, h⟩
  · cases h
  · cases h

/-- What every transition keeps holds at the end of every run that begins with it. -/
theorem run_keeps {P : State → Prop}
    (keeps : ∀ {u : Transition} {s t : State}, P s → transition u s = .next t → P t) :
    ∀ {us : List Transition} {s t : State}, P s → run us s = .next t → P t := by
  intro us
  induction us with
  | nil => intro s t hs h; cases h; exact hs
  | cons u us ih =>
    intro s t hs h
    obtain ⟨v, hv, hrest⟩ := run_cons h
    exact ih (keeps hs hv) hrest

/-- Settles O18: by induction on the transitions, each of which keeps the invariant. -/
theorem transitionsKeepInvariant : Obligations.TransitionsKeepInvariant := by
  unfold Obligations.TransitionsKeepInvariant
  exact fun _ _ _ hs h => run_keeps Inv.transition hs h

end Sys2Proof.Machine
end

section
/-! SUPPORT. The latency of an interrupt (70_reset_and_hazards.md R373): a line raised between two steps is the only one
pending at the interrupt check that ends the next step. -/

namespace Sys2Proof.Machine

/-- The step of a fetched instruction is its effect and one interrupt check (R10, R324). -/
theorem step_of_exec {s t : State} {i : Instr} (hs : s.faulted = none) (hwf : i.wf = true)
    (hwords : fetchWords i s = encode i) (hexec : exec i (s.fetched i) = .next t) : step s = .next t.checkIrqs := by
  obtain ⟨u, hu, hstep⟩ := stepRunsDecodedInstruction s i hs hwf hwords
  rw [hexec] at hu
  cases hu
  exact hstep

/-- A line raised with no other pending is the only one pending after the next instruction (R322). -/
theorem sirq_after_exec {s t : State} {line : Nat} {i : Instr} (hs : s.faulted = none) (hnone : s.sirq = 0#9)
    (hline : line ≤ 8) (hexec : exec i ((s.setInput line true).fetched i) = .next t) {k : Nat} (hk : k < 9) :
    t.sirq.getLsbD k = decide (k = line) := by
  have hkept : t.sirq = (s.setInput line true).sirq := (exec_sirq hexec).trans (State.fetched_control _ i).sirq
  rw [hkept, s.setInput_sirq line true hs hline k hk, hnone]
  by_cases heq : k = line <;> simp [heq]

/-- Settles O60: the one pending line is the source that the check at the end of the step selects, and its trigger
accepts it. -/
theorem interruptTakenAfterTheNextInstruction : Obligations.InterruptTakenAfterTheNextInstruction := by
  unfold Obligations.InterruptTakenAfterTheNextInstruction
  rintro s u t line i hs hnone hline rfl hwf hwords hexec henable hirq hfiq
  have hrunning : (s.setInput line true).faulted = none := by rw [s.setInput_frame line true, hs]
  have hsirq {k : Nat} (hk : k < 9) := sirq_after_exec hs hnone hline hexec hk
  refine ⟨t.checkIrqs, step_of_exec hrunning hwf hwords hexec, fun hfiqLine => ?_, fun hirqLine => ?_⟩
  · have hpending : t.sirq.getLsbD 8 = true := (hsirq (by decide)).trans (decide_eq_true hfiqLine.symm)
    rw [if_pos hfiqLine] at henable
    exact checkTakesTheFiq t hpending henable hfiq hirq
  · obtain ⟨l, rfl⟩ : ∃ l : BitVec 3, l.toNat = line := ⟨BitVec.ofNat 3 line, Nat.mod_eq_of_lt hirqLine⟩
    have hnoFiq : t.sirq.getLsbD 8 = false := (hsirq (by decide)).trans (decide_eq_false hirqLine.ne')
    have hpending : t.sirq.getLsbD l.toNat = true :=
      (hsirq (Nat.lt_succ_of_lt hirqLine)).trans (decide_eq_true rfl)
    have hleast : ∀ k < l.toNat, t.sirq.getLsbD k = false := fun k hk =>
      (hsirq (hk.trans (Nat.lt_succ_of_lt hirqLine))).trans (decide_eq_false hk.ne)
    rw [if_neg hirqLine.ne] at henable
    obtain ⟨henters, hirq', hfiq', hcurirq⟩ := checkTakesTheLeastIrq t l hnoFiq hpending hleast henable hirq hfiq
    exact ⟨henters, hirq', hfiq', congrArg BitVec.toNat hcurirq⟩

end Sys2Proof.Machine
end

section
/-! SUPPORT. The words of the spec's own examples, as encodings that the decoder reads back. -/

namespace Sys2Proof

/-- The words that encode a well-formed instruction decode to it, with no word left over. -/
theorem decode_of_encode_eq {words : List Word} (i : Instr) (hwf : i.wf = true) (h : encode i = words) :
    decode words = .ok (i, []) := by
  rw [← h, ← List.append_nil (encode i), decode_encode_append i [] hwf]

/-- Settles O8: each legal word is the encoding of its instruction, and the last matches no pattern of its group. -/
theorem exampleWordsDecode : Obligations.ExampleWordsDecode := by
  unfold Obligations.ExampleWordsDecode
  exact ⟨decode_of_encode_eq (.addImm6 .r1 5#6) rfl rfl,
    decode_of_encode_eq (.loadInd .r2 false .postDec .r3) rfl rfl,
    decode_of_encode_eq (.addImm16 .r1 .r2 0x1234#16) rfl rfl,
    decode_of_encode_eq (.push .r3 3#3 .sp) rfl rfl,
    decode_of_encode_eq .reti rfl rfl,
    decode_of_encode_eq (.clrbDmImm .r1 15#4) rfl rfl,
    decode_of_encode_eq (.call 5#6 0x2000#16) rfl rfl,
    decode_of_encode_eq (.jmp true 1#6) rfl rfl,
    rfl⟩

end Sys2Proof
end
